-- ==== Sys2Proof/Word.lean ====
section
/-! DEFINITION. The words of the hardware: bytes and 32-bit unsigned words. Arithmetic on them wraps
(00_scope.md R4), which is what `BitVec` arithmetic does; comparisons are unsigned. -/
namespace Sys2Proof

/-- A byte of IN, OUT or WIN (20_memory.md R56: every access is one byte). -/
abbrev Byte := BitVec 8

/-- A `u32` of the rules (00_scope.md R4). -/
abbrev Word := BitVec 32

end Sys2Proof
end

