-- ==== Sys2Proof/Config.lean ====
section
/-! DEFINITION. The format constants of 00_scope.md section 5, and the free values: opaque constants,
with no body, that stand for what the spec leaves open. -/
namespace Sys2Proof.Config

/-- `PROB_INIT`: every slot after a model reset (10_state.md R22). -/
def probInit : BitVec 11 := 1024#11

/-- `TOP`: the normalisation threshold `2^24` (40_range_decoder.md R121). -/
def top : Word := 0x01000000#32

/-- `DICT_MIN`: the lower clamp of a dictionary size (30_encoding.md R86). -/
def dictMin : Word := 4096#32

/-- `PROP_LIMIT`: the first illegal property byte, `9*5*5` (30_encoding.md R84). -/
def propLimit : Byte := 225#8

/-- `END_MARKER`: the distance that is the end-of-stream marker (30_encoding.md R98). -/
def endMarker : Word := 0xFFFFFFFF#32

/-- `kMatchMinLen` (41_bittree_length.md R147). -/
def matchMinLen : Nat := 2

/-- `LIT_SUBTABLE`: slots of one literal sub-table (10_state.md R24). -/
def litSubtable : Nat := 0x300

/-- The undefined-size sentinel of an `unpackSize` field (30_encoding.md R87). -/
def sizeUndefined : BitVec 64 := 0xFFFFFFFFFFFFFFFF#64

/-- Free value: what `rc.range` and `rc.code` hold after a prologue that could not be read
(40_range_decoder.md R120 leaves them unspecified; 93_implementation_defined.md U5 "any value").
Nothing is known of it. Log entry 8. -/
opaque freeWord : Nat → Word

/-- Free value: with `DRAIN_ON_FAULT = any`, whether SNK receives one more pending byte before the
error indication (60_exceptions.md R306: an arbitrary prefix). Nothing is known of it. Log entry 7. -/
opaque freeDeliver : Nat → Bool

end Sys2Proof.Config
end

