-- ==== Sys2Proof/Syntax.lean ====
section
/-! DEFINITION. The operations of the hardware as data: one constructor of `Instr` per mnemonic of
spec/opcode_table.json (the six match/mask rows of C2.ILL are one operation, control bytes
0x03..0x7F, and share one constructor), the probability tables that range-decoder operations name,
and the words of the formats: bytes, decoded bits, and transactions on the HOST port. -/
namespace Sys2Proof

/-- The two length-decoder instances (41_bittree_length.md R146). -/
inductive LenInst where
  | len     -- simple matches
  | repLen  -- repeat matches
deriving DecidableEq, Repr

/-- The probability tables of 10_state.md R23, each addressed by its own index. -/
inductive Table where
  | isMatch
  | isRep
  | isRepG0
  | isRepG1
  | isRepG2
  | isRep0Long
  | lit
  | posSlot (k : BitVec 2)
  | posDec
  | align
  | choice (l : LenInst)
  | choice2 (l : LenInst)
  | low (l : LenInst) (ps : BitVec 4)
  | mid (l : LenInst) (ps : BitVec 4)
  | high (l : LenInst)
deriving DecidableEq, Repr

/-- One operation. The operands are the fields of its format: a chunk kind carries its header fields
(30_encoding.md R89; sizes as stored, that is minus 1), HDR1 and RC.INIT their header fields (R81,
R82), a host command its arguments (R103), a primitive the operands of its rule. A symbol-level
operation (30_encoding.md R94) carries none: its literal, length and distance fields are decoded bits
that the operation itself takes from the range decoder, as the rules of 43_state_machine.md say. -/
inductive Instr where
  -- F-C2, LZMA2 chunk kinds
  | c2Eos
  | c2Rawd (uncM1 : BitVec 16)
  | c2Raw (uncM1 : BitVec 16)
  | c2Lzma0 (uncM1 : BitVec 21) (compM1 : BitVec 16)
  | c2Lzma1 (uncM1 : BitVec 21) (compM1 : BitVec 16)
  | c2Lzma2 (uncM1 : BitVec 21) (compM1 : BitVec 16) (prop : Byte)
  | c2Lzma3 (uncM1 : BitVec 21) (compM1 : BitVec 16) (prop : Byte)
  | c2Ill (c : Byte)
  -- F-HDR1, F-PROLOGUE, F-PROP
  | hdr1 (prop : Byte) (dict : Word) (size : BitVec 64)
  | rcInit (reserved : Byte) (code : Word)
  | propDec (d : Byte)
  -- F-SYM
  | lit
  | simpleMatch
  | eos
  | srep
  | rep0
  | rep1
  | rep2
  | rep3
  -- HOST-CMD
  | cmdReset
  | cmdStartLzma1
  | cmdStartRaw (prop : Byte) (dict : Word) (sizeDefined : Bool) (size : BitVec 64) (shared : Bool)
  | cmdStartLzma2 (dict : Word)
  | cmdReopen (sizeDefined : Bool) (size : BitVec 64) (resetState newProps : Bool) (prop : Byte)
      (resetDict : Bool)
  -- PRIMITIVE
  | rcNorm
  | rcBit (t : Table) (i : Nat)
  | rcDirect (n : Nat)
  | rcFinok
  | btDec (t : Table) (base numBits : Nat)
  | btRdec (t : Table) (base numBits : Nat)
  | btReset (t : Table)
  | lenDec (l : LenInst) (ps : BitVec 4)
  | lenReset (l : LenInst)
  | litDec (litState : Nat)
  | litDecm (litState : Nat) (matchByte : Byte)
  | distDec (n : Nat)
  | smReset
  | chkBack
  | copy (n : Nat)
  | winInit (size : Word)
  | winPut (b : Byte)
  | winGet (dist : Nat)
  | winChk (dist : Nat)
  | winCopy (dist length : Nat)
  | winEmpty
  | winHasPending
  | winDrain
  | winReset
  | rawCopy
  | chunkEnd
  | construct (lc : BitVec 4) (lp pb : BitVec 3) (dict : Word) (sizeDefined : Bool)
      (size : BitVec 64) (shared : Bool)
deriving DecidableEq, Repr

/-- A command transaction on the HOST port: the command number of 30_encoding.md R103 and the argument
fields; a command reads the arguments the rule lists for it. -/
structure HostWord where
  code : Nat
  prop : Byte := 0#8
  dict : Word := 0#32
  sizeDefined : Bool := false
  size : BitVec 64 := 0#64
  shared : Bool := false
  resetState : Bool := false
  newProps : Bool := false
  resetDict : Bool := false
deriving DecidableEq, Repr

/-- A symbol-level operation with its decoded fields, as 30_encoding.md R101 writes it in a trace:
`LIT 0xNN`; MATCH with the length index and the 0-based distance (distance 0xFFFFFFFF is EOS, R98);
SREP; `REPk` with the length index. -/
inductive SymCode where
  | lit (b : Byte)
  | newMatch (lenIndex : Nat) (dist : Word)
  | srep
  | rep (k : BitVec 2) (lenIndex : Nat)
deriving DecidableEq, Repr

/-- The formats of 30_encoding.md R80 that carry an operation, and the HOST port. -/
inductive Format where
  | c2
  | hdr1
  | prologue
  | prop
  | sym
  | host
deriving DecidableEq, Repr

/-- The words of an encoded operation: bytes of IN, decoded bits, or a HOST transaction. -/
inductive Words where
  | bytes (bs : List Byte)
  | bits (bs : List Bool)
  | port (w : HostWord)
deriving DecidableEq, Repr

end Sys2Proof
end

