-- ==== Sys2Proof/WellFormed.lean ====
section
/-! DEFINITION. Which operands an operation may carry: the ranges the rule of each operation gives.
An operand whose type already is its range (a byte, a header field) needs no check. -/
namespace Sys2Proof

/-- Slots of the largest literal table, `0x300 << 12` (10_state.md R24). -/
def maxLitSlots : Nat := 0x300 * 2 ^ 12

/-- The number of slots a table can have at most (10_state.md R23). -/
def Table.maxSize : Table → Nat
  | .isMatch => 192
  | .isRep => 12
  | .isRepG0 => 12
  | .isRepG1 => 12
  | .isRepG2 => 12
  | .isRep0Long => 192
  | .lit => maxLitSlots
  | .posSlot _ => 64
  | .posDec => 115
  | .align => 16
  | .choice _ => 1
  | .choice2 _ => 1
  | .low _ _ => 8
  | .mid _ _ => 8
  | .high _ => 256

/-- The operand checks. -/
def Instr.wf : Instr → Bool
  | .c2Eos => true
  | .c2Rawd _ => true
  | .c2Raw _ => true
  | .c2Lzma0 _ _ => true
  | .c2Lzma1 _ _ => true
  | .c2Lzma2 _ _ _ => true
  | .c2Lzma3 _ _ _ => true
  | .c2Ill c => decide (3#8 ≤ c ∧ c ≤ 0x7F#8)                 -- 30_encoding.md R93
  | .hdr1 _ _ _ => true
  | .rcInit _ _ => true
  | .propDec _ => true
  | .lit => true
  | .simpleMatch => true
  | .eos => true
  | .srep => true
  | .rep0 => true
  | .rep1 => true
  | .rep2 => true
  | .rep3 => true
  | .cmdReset => true
  | .cmdStartLzma1 => true
  | .cmdStartRaw _ _ _ _ _ => true
  | .cmdStartLzma2 _ => true
  | .cmdReopen _ _ _ _ _ _ => true
  | .rcNorm => true
  | .rcBit t i => decide (i < t.maxSize)                      -- 40_range_decoder.md R122
  | .rcDirect n => decide (n ≤ 32)                            -- R123
  | .rcFinok => true
  | .btDec t base n => (n == 3 || n == 6 || n == 8) && decide (base + 2 ^ n ≤ t.maxSize)  -- R140
  | .btRdec t base n => decide (1 ≤ n ∧ n ≤ 5) && decide (base + 2 ^ n ≤ t.maxSize)       -- R141
  | .btReset _ => true
  | .lenDec _ _ => true
  | .lenReset _ => true
  | .litDec ls => decide (ls < 2 ^ 12)                        -- 42_literal_distance.md R160
  | .litDecm ls _ => decide (ls < 2 ^ 12)
  | .distDec n => decide (n ≤ 271)                            -- R165
  | .smReset => true
  | .chkBack => true
  | .copy n => decide (n ≤ 271)                               -- 43_state_machine.md R200
  | .winInit size => decide (4096#32 ≤ size)                  -- 44_window.md R220
  | .winPut _ => true
  | .winGet dist => decide (1 ≤ dist)                         -- R222
  | .winChk dist => decide (1 ≤ dist)                         -- R223
  | .winCopy dist length => decide (1 ≤ dist ∧ length ≤ 273)  -- R224
  | .winEmpty => true
  | .winHasPending => true
  | .winDrain => true
  | .winReset => true
  | .rawCopy => true
  | .chunkEnd => true
  | .construct lc lp pb dict _ _ _ =>                          -- 45_lzma1_reader.md R243
      decide (lc ≤ 8#4 ∧ lp ≤ 4#3 ∧ pb ≤ 4#3 ∧ 4096#32 ≤ dict)

/-- A symbol code with its fields in range (30_encoding.md R95, R96). -/
def SymCode.wf : SymCode → Bool
  | .lit _ => true
  | .newMatch n _ => decide (n ≤ 271)
  | .srep => true
  | .rep _ n => decide (n ≤ 271)

end Sys2Proof
end

