-- ==== Sys2Proof/Decode.lean ====
section
/-! DEFINITION. The formats of 30_encoding.md: from words to operations, and after it from operations
back to words. Bytes are in input order; decoded bits are in the order they are decoded. Every decoder
is total and rejects by name. -/
namespace Sys2Proof

/-- Why words are no operation. -/
inductive Reject where
  /-- fewer words than the format has -/
  | truncated
  /-- more words than the format has -/
  | trailing
  /-- words of another kind than the format has (bytes, decoded bits, a HOST transaction) -/
  | wrongWords
  /-- a HOST command number that 30_encoding.md R103 does not list -/
  | hostCode (code : Nat)
deriving DecidableEq, Repr

/-! ### Byte order (20_memory.md R55) -/

/-- Two bytes, high byte first (30_encoding.md R90, R91). -/
def u16be (hi lo : Byte) : BitVec 16 := hi.setWidth 16 <<< 8 ||| lo.setWidth 16

/-- The stored `uncompressedSize - 1` of an LZMA chunk: control bits 4:0, then two bytes
(30_encoding.md R90). -/
def unc21 (c x1 x2 : Byte) : BitVec 21 :=
  (c.setWidth 21 &&& 0x1F#21) <<< 16 ||| x1.setWidth 21 <<< 8 ||| x2.setWidth 21

/-- The prologue's code, big-endian (30_encoding.md R82). -/
def u32be (b1 b2 b3 b4 : Byte) : Word :=
  b1.setWidth 32 <<< 24 ||| b2.setWidth 32 <<< 16 ||| b3.setWidth 32 <<< 8 ||| b4.setWidth 32

/-- Little-endian bytes as a number of width `w`, the first byte lowest (30_encoding.md R81). -/
def leBytes (w : Nat) : List Byte → BitVec w
  | [] => 0#w
  | b :: bs => b.setWidth w ||| leBytes w bs <<< 8

/-! ### F-C2 -/

/-- Header bytes after the control byte (30_encoding.md R89). -/
def c2HeaderLen (c : Byte) : Nat :=
  if c = 0x00#8 then 0
  else if c = 0x01#8 ∨ c = 0x02#8 then 2
  else if c < 0x80#8 then 0
  else if c < 0xC0#8 then 4
  else 5

/-- The chunk kind of a control byte and the header bytes `x` after it (30_encoding.md R88 to R93,
46_lzma2_demux.md R272). -/
def chunkOf (c : Byte) (x : List Byte) : Instr :=
  let x1 := x.getD 0 0#8
  let x2 := x.getD 1 0#8
  let x3 := x.getD 2 0#8
  let x4 := x.getD 3 0#8
  let x5 := x.getD 4 0#8
  if c = 0x00#8 then .c2Eos
  else if c = 0x01#8 then .c2Rawd (u16be x1 x2)
  else if c = 0x02#8 then .c2Raw (u16be x1 x2)
  else if c < 0x80#8 then .c2Ill c
  else if c < 0xA0#8 then .c2Lzma0 (unc21 c x1 x2) (u16be x3 x4)
  else if c < 0xC0#8 then .c2Lzma1 (unc21 c x1 x2) (u16be x3 x4)
  else if c < 0xE0#8 then .c2Lzma2 (unc21 c x1 x2) (u16be x3 x4) x5
  else .c2Lzma3 (unc21 c x1 x2) (u16be x3 x4) x5

/-- One chunk header at the front of `bs`, and the bytes after it. -/
def decodeC2 (bs : List Byte) : Except Reject (Instr × List Byte) :=
  match bs with
  | [] => .error .truncated
  | c :: r =>
    if r.length < c2HeaderLen c then .error .truncated
    else .ok (chunkOf c (r.take (c2HeaderLen c)), r.drop (c2HeaderLen c))

/-! ### F-HDR1, F-PROLOGUE, F-PROP -/

/-- The LZMA1 header of 13 bytes (30_encoding.md R81). -/
def hdr1Of (h : List Byte) : Instr :=
  .hdr1 (h.getD 0 0#8) (leBytes 32 ((h.drop 1).take 4)) (leBytes 64 ((h.drop 5).take 8))

/-- The prologue of 5 bytes (30_encoding.md R82). -/
def prologueOf (b : List Byte) : Instr :=
  .rcInit (b.getD 0 0#8) (u32be (b.getD 1 0#8) (b.getD 2 0#8) (b.getD 3 0#8) (b.getD 4 0#8))

/-- A format of a fixed number of bytes. -/
def decodeFixed (n : Nat) (f : List Byte → Instr) (bs : List Byte) :
    Except Reject (Instr × List Byte) :=
  if bs.length < n then .error .truncated else .ok (f (bs.take n), bs.drop n)

/-! ### F-SYM: decoded bits -/

/-- An unsigned field of `n` bits, most significant bit first (41_bittree_length.md R140). -/
def takeMsb : Nat → Nat → List Bool → Option (Nat × List Bool)
  | 0, acc, bs => some (acc, bs)
  | _ + 1, _, [] => none
  | n + 1, acc, b :: bs => takeMsb n (2 * acc + b.toNat) bs

/-- An unsigned field of `n` bits, least significant bit first (41_bittree_length.md R141). -/
def takeLsb : Nat → List Bool → Option (Nat × List Bool)
  | 0, bs => some (0, bs)
  | _ + 1, [] => none
  | n + 1, b :: bs =>
    match takeLsb n bs with
    | some (v, r) => some (b.toNat + 2 * v, r)
    | none => none

/-- The length code; answers the length index 0..271 (30_encoding.md R95). -/
def takeLen : List Bool → Option (Nat × List Bool)
  | false :: bs => takeMsb 3 0 bs
  | true :: false :: bs => (takeMsb 3 0 bs).map fun p => (8 + p.1, p.2)
  | true :: true :: bs => (takeMsb 8 0 bs).map fun p => (16 + p.1, p.2)
  | _ => none

/-- `numDirectBits` of a position slot (42_literal_distance.md R168). -/
def slotDirectBits (slot : Nat) : Nat := slot / 2 - 1

/-- The base distance of a position slot of 4 or more (42_literal_distance.md R165). -/
def slotBase (slot : Nat) : Word := BitVec.ofNat 32 (2 + slot % 2) <<< slotDirectBits slot

/-- The distance code; answers the 0-based distance (30_encoding.md R96). -/
def takeDist (bs : List Bool) : Option (Word × List Bool) :=
  match takeMsb 6 0 bs with
  | none => none
  | some (slot, bs) =>
    let nd := slotDirectBits slot
    if slot < 4 then some (BitVec.ofNat 32 slot, bs)
    else if slot < 14 then
      match takeLsb nd bs with
      | none => none
      | some (v, bs) => some (slotBase slot + BitVec.ofNat 32 v, bs)
    else
      match takeMsb (nd - 4) 0 bs with
      | none => none
      | some (d, bs) =>
        match takeLsb 4 bs with
        | none => none
        | some (a, bs) => some (slotBase slot + (BitVec.ofNat 32 d <<< 4) + BitVec.ofNat 32 a, bs)

/-- One symbol code at the front of the decoded bits (30_encoding.md R94 to R97), and the bits after
it; `none` when the bits end inside the code. -/
def decodeSym : List Bool → Option (SymCode × List Bool)
  | false :: bs => (takeMsb 8 0 bs).map fun p => (.lit (BitVec.ofNat 8 p.1), p.2)
  | true :: false :: bs =>
    match takeLen bs with
    | none => none
    | some (n, bs) => (takeDist bs).map fun p => (.newMatch n p.1, p.2)
  | true :: true :: false :: false :: bs => some (.srep, bs)
  | true :: true :: false :: true :: bs => (takeLen bs).map fun p => (.rep 0#2 p.1, p.2)
  | true :: true :: true :: false :: bs => (takeLen bs).map fun p => (.rep 1#2 p.1, p.2)
  | true :: true :: true :: true :: false :: bs => (takeLen bs).map fun p => (.rep 2#2 p.1, p.2)
  | true :: true :: true :: true :: true :: bs => (takeLen bs).map fun p => (.rep 3#2 p.1, p.2)
  | _ => none

/-- The operation a complete symbol code selects (30_encoding.md R98: distance 0xFFFFFFFF is EOS). -/
def SymCode.instr : SymCode → Instr
  | .lit _ => .lit
  | .newMatch _ d => if d = Config.endMarker then .eos else .simpleMatch
  | .srep => .srep
  | .rep k _ =>
    if k = 0#2 then .rep0 else if k = 1#2 then .rep1 else if k = 2#2 then .rep2 else .rep3

/-- The operation a prefix of decoded bits selects (30_encoding.md R94); the fields after the prefix
belong to the operation. -/
def symPrefix : List Bool → Option Instr
  | [false] => some .lit
  | [true, false] => some .simpleMatch
  | [true, true, false, false] => some .srep
  | [true, true, false, true] => some .rep0
  | [true, true, true, false] => some .rep1
  | [true, true, true, true, false] => some .rep2
  | [true, true, true, true, true] => some .rep3
  | _ => none

/-- Decoded bits as an operation: a bare prefix, or a complete symbol code. -/
def decodeBits (bs : List Bool) : Except Reject Instr :=
  match symPrefix bs with
  | some i => .ok i
  | none =>
    match decodeSym bs with
    | some (c, []) => .ok c.instr
    | some _ => .error .trailing
    | none => .error .truncated

/-! ### HOST-CMD -/

/-- A command of the HOST port (30_encoding.md R103). -/
def decodeHost (w : HostWord) : Except Reject Instr :=
  match w.code with
  | 0 => .ok .cmdReset
  | 1 => .ok .cmdStartLzma1
  | 2 => .ok (.cmdStartRaw w.prop w.dict w.sizeDefined w.size w.shared)
  | 3 => .ok (.cmdStartLzma2 w.dict)
  | 4 => .ok (.cmdReopen w.sizeDefined w.size w.resetState w.newProps w.prop w.resetDict)
  | n => .error (.hostCode n)

/-! ### All formats -/

/-- A decoder's answer when the words must be exactly one operation. -/
def exactly (r : Except Reject (Instr × List Byte)) : Except Reject Instr :=
  match r with
  | .ok (i, []) => .ok i
  | .ok _ => .error .trailing
  | .error e => .error e

/-- The operation that `w` is in format `f`. -/
def decode (f : Format) (w : Words) : Except Reject Instr :=
  match f, w with
  | .c2, .bytes bs => exactly (decodeC2 bs)
  | .hdr1, .bytes bs => exactly (decodeFixed 13 hdr1Of bs)
  | .prologue, .bytes bs => exactly (decodeFixed 5 prologueOf bs)
  | .prop, .bytes bs => exactly (decodeFixed 1 (fun b => .propDec (b.getD 0 0#8)) bs)
  | .sym, .bits bs => decodeBits bs
  | .host, .port w => decodeHost w
  | _, _ => .error .wrongWords

/-! ### Encoding -/

/-- Byte `k` of a number, byte 0 the lowest. -/
def byteAt {w : Nat} (v : BitVec w) (k : Nat) : Byte := (v >>> (8 * k)).setWidth 8

/-- The control byte of an LZMA chunk of sub-kind `k` (30_encoding.md R88). -/
def lzmaCtrl (k : Byte) (uncM1 : BitVec 21) : Byte := 0x80#8 ||| k <<< 5 ||| byteAt uncM1 2

/-- The four size bytes of an LZMA chunk header (30_encoding.md R89). -/
def lzmaSizes (uncM1 : BitVec 21) (compM1 : BitVec 16) : List Byte :=
  [byteAt uncM1 1, byteAt uncM1 0, byteAt compM1 1, byteAt compM1 0]

/-- The `n` low bits of `v`, most significant first. -/
def msbBits : Nat → Nat → List Bool
  | 0, _ => []
  | n + 1, v => v.testBit n :: msbBits n v

/-- The `n` low bits of `v`, least significant first. -/
def lsbBits : Nat → Nat → List Bool
  | 0, _ => []
  | n + 1, v => v.testBit 0 :: lsbBits n (v / 2)

/-- The length code of a length index (30_encoding.md R95). -/
def encodeLen (n : Nat) : List Bool :=
  if n < 8 then false :: msbBits 3 n
  else if n < 16 then true :: false :: msbBits 3 (n - 8)
  else true :: true :: msbBits 8 (n - 16)

/-- The position slot of a distance: the slot whose range in the table of 42_literal_distance.md R165
holds it. -/
def slotOf (d : Nat) : Nat :=
  if d < 4 then d else 2 * Nat.log2 d + d / 2 ^ (Nat.log2 d - 1) % 2

/-- The distance code of a 0-based distance (30_encoding.md R96). -/
def encodeDist (d : Word) : List Bool :=
  let slot := slotOf d.toNat
  let nd := slotDirectBits slot
  let off := d.toNat - (slotBase slot).toNat
  if slot < 4 then msbBits 6 slot
  else if slot < 14 then msbBits 6 slot ++ lsbBits nd off
  else msbBits 6 slot ++ msbBits (nd - 4) (off / 16) ++ lsbBits 4 (off % 16)

/-- The prefix of the repeat match with `repk` (30_encoding.md R94). -/
def repPrefix (k : BitVec 2) : List Bool :=
  if k = 0#2 then [true, true, false, true]
  else if k = 1#2 then [true, true, true, false]
  else if k = 2#2 then [true, true, true, true, false]
  else [true, true, true, true, true]

/-- The decoded bits of a symbol-level operation with its fields (30_encoding.md R94 to R97). -/
def encodeSym : SymCode → List Bool
  | .lit b => false :: msbBits 8 b.toNat
  | .newMatch n d => true :: false :: (encodeLen n ++ encodeDist d)
  | .srep => [true, true, false, false]
  | .rep k n => repPrefix k ++ encodeLen n

/-- The words of an operation, and the format they are in; `none` for a primitive, which has no encoding
(30_encoding.md section 8). A symbol-level operation is its prefix; EOS, which has no prefix of its
own, is the complete code with length index 0 (R98). -/
def encode : Instr → Option (Format × Words)
  | .c2Eos => some (.c2, .bytes [0x00#8])
  | .c2Rawd u => some (.c2, .bytes [0x01#8, byteAt u 1, byteAt u 0])
  | .c2Raw u => some (.c2, .bytes [0x02#8, byteAt u 1, byteAt u 0])
  | .c2Lzma0 u c => some (.c2, .bytes (lzmaCtrl 0#8 u :: lzmaSizes u c))
  | .c2Lzma1 u c => some (.c2, .bytes (lzmaCtrl 1#8 u :: lzmaSizes u c))
  | .c2Lzma2 u c p => some (.c2, .bytes (lzmaCtrl 2#8 u :: (lzmaSizes u c ++ [p])))
  | .c2Lzma3 u c p => some (.c2, .bytes (lzmaCtrl 3#8 u :: (lzmaSizes u c ++ [p])))
  | .c2Ill c => some (.c2, .bytes [c])
  | .hdr1 p d u =>
    some (.hdr1, .bytes
      [p, byteAt d 0, byteAt d 1, byteAt d 2, byteAt d 3,
       byteAt u 0, byteAt u 1, byteAt u 2, byteAt u 3, byteAt u 4, byteAt u 5, byteAt u 6, byteAt u 7])
  | .rcInit b0 code =>
    some (.prologue, .bytes [b0, byteAt code 3, byteAt code 2, byteAt code 1, byteAt code 0])
  | .propDec d => some (.prop, .bytes [d])
  | .lit => some (.sym, .bits [false])
  | .simpleMatch => some (.sym, .bits [true, false])
  | .eos => some (.sym, .bits (encodeSym (.newMatch 0 Config.endMarker)))
  | .srep => some (.sym, .bits [true, true, false, false])
  | .rep0 => some (.sym, .bits (repPrefix 0#2))
  | .rep1 => some (.sym, .bits (repPrefix 1#2))
  | .rep2 => some (.sym, .bits (repPrefix 2#2))
  | .rep3 => some (.sym, .bits (repPrefix 3#2))
  | .cmdReset => some (.host, .port { code := 0 })
  | .cmdStartLzma1 => some (.host, .port { code := 1 })
  | .cmdStartRaw p d sd u sh =>
    some (.host, .port { code := 2, prop := p, dict := d, sizeDefined := sd, size := u, shared := sh })
  | .cmdStartLzma2 d => some (.host, .port { code := 3, dict := d })
  | .cmdReopen sd u rs np p rd =>
    some (.host, .port { code := 4, prop := p, sizeDefined := sd, size := u, resetState := rs,
                         newProps := np, resetDict := rd })
  | .rcNorm => none
  | .rcBit _ _ => none
  | .rcDirect _ => none
  | .rcFinok => none
  | .btDec _ _ _ => none
  | .btRdec _ _ _ => none
  | .btReset _ => none
  | .lenDec _ _ => none
  | .lenReset _ => none
  | .litDec _ => none
  | .litDecm _ _ => none
  | .distDec _ => none
  | .smReset => none
  | .chkBack => none
  | .copy _ => none
  | .winInit _ => none
  | .winPut _ => none
  | .winGet _ => none
  | .winChk _ => none
  | .winCopy _ _ => none
  | .winEmpty => none
  | .winHasPending => none
  | .winDrain => none
  | .winReset => none
  | .rawCopy => none
  | .chunkEnd => none
  | .construct _ _ _ _ _ _ _ => none

/-! ### Words as spec/opcode_table.json numbers them -/

/-- The first 13 bytes (the longest format) of a word whose bit 0 is the least significant bit of the
first byte; bits from `nbits` on are 0. -/
def tableBytes (nbits w : Nat) : List Byte :=
  (List.range 13).map fun k => BitVec.ofNat 8 ((w % 2 ^ nbits) >>> (8 * k))

/-- The format a table word is read in. Byte 0 does not tell F-C2 from F-PROLOGUE (C2.EOS and RC.INIT
both match 0x00; in the machine the phase decides): a row of 104 bits is F-HDR1, one of 40 bits with
byte 0 zero is F-PROLOGUE, every other is F-C2. Log entry 20. -/
def tableFormat (nbits w : Nat) : Format :=
  if nbits = 104 then .hdr1
  else if nbits = 40 ∧ w % 256 = 0 then .prologue
  else .c2

/-- The operation the decoder reads from a table word. -/
def decodeTableWord (nbits w : Nat) : Option Instr :=
  let bs := tableBytes nbits w
  let r := match tableFormat nbits w with
    | .hdr1 => decodeFixed 13 hdr1Of bs
    | .prologue => decodeFixed 5 prologueOf bs
    | _ => decodeC2 bs
  match r with
  | .ok (i, _) => some i
  | .error _ => none

end Sys2Proof
end

