-- ==== Sys2Proof/Machine/State.lean ====
section
/-! DEFINITION. The state of the hardware as plain data, its value at power-on, and the reasons a step can
stop. 10_state.md lists the state; INVENTORY.md says which rule names each field. -/
namespace Sys2Proof.Machine

/-- The control position (10_state.md R14). -/
inductive Phase where
  | idle
  | hdr1
  | rcinit
  | run
  | c2ctrl
  | c2hdr
  | c2raw
  | done
  | fault
deriving DecidableEq, Repr

/-- The active driver (10_state.md R31). -/
inductive Mode where
  | none
  | lzma1
  | raw
  | lzma2
deriving DecidableEq, Repr

/-- `STATUS.kind` (60_exceptions.md R301). -/
inductive Kind where
  | none
  | endOk
  | corruptedStream
  | incorrectProperties
  | dictSizeOutOfRange
  | resultError
  | unexpectedChunkCode
  | ioError
deriving DecidableEq, Repr

/-- `STATUS.cause` (60_exceptions.md R302); `none` is the cleared value 0. -/
inductive Cause where
  | none
  | endSize
  | endMarker
  | endLzma2Eos
  | headerShort
  | prologueShort
  | chunkHeaderShort
  | propsGe225
  | propsUnsupported
  | dictTooLarge
  | sizeExhausted
  | badMarker
  | sizeNotReached
  | badDistance
  | repEmptyWindow
  | lenOverrun
  | eofAtFinish
  | noProperties
  | chunkInputOverrun
  | chunkInputLeft
  | ctrl03to7F
  | unexpectedEof
  | sourceError
deriving DecidableEq, Repr

/-- The stored fields of `STATUS` (10_state.md R20); `corrupted` and `busy` are computed. -/
structure Status where
  kind : Kind
  cause : Cause
  info : Word
deriving DecidableEq, Repr

/-- What HOST reads from `STATUS` (10_state.md R20, 45_lzma1_reader.md R249). -/
structure StatusView where
  kind : BitVec 4
  cause : BitVec 8
  info : Word
  corrupted : Bool
  busy : Bool
deriving DecidableEq, Repr

/-- The range decoder (10_state.md R10 to R12). -/
structure Rc where
  range : Word
  code : Word
  corrupted : Bool
deriving DecidableEq, Repr

/-- The FSM state and the four most recent 0-based distances (10_state.md R13, R15). -/
structure Fsm where
  state : BitVec 4
  rep0 : Word
  rep1 : Word
  rep2 : Word
  rep3 : Word
deriving DecidableEq, Repr

/-- The configuration registers (10_state.md R18, R19). -/
structure Cfg where
  lc : BitVec 4
  lp : BitVec 3
  pb : BitVec 3
  dictSize : Word
deriving DecidableEq, Repr

/-- The LZMA2 chunk registers (10_state.md R21). -/
structure C2 where
  ctrl : Byte
  uncSize : BitVec 22
  compSize : BitVec 17
  prop : Byte
  compLeft : BitVec 17
  rawLeft : BitVec 17
  haveDecoder : Bool
deriving DecidableEq, Repr

/-- Window cells that have been written, index strictly rising; an unlisted cell has no value
(20_memory.md R69). -/
abbrev Memory := List Host.Cell

/-- Probability slots that differ from 1024, key strictly rising; an unlisted slot holds 1024. -/
abbrev ProbMem := List (Nat × BitVec 11)

/-- The window and its bookkeeping (10_state.md R26, R27). `allocated` is the state
45_lzma1_reader.md R244 implies: a window exists since power-on or CMD.RESET. -/
structure Win where
  buf : Memory
  size : Word
  pos : Word
  isFull : Bool
  pending : Nat
  totalPos : Nat
  allocated : Bool
deriving DecidableEq, Repr

/-- The rest of an operation that waits until `win.pending == 0` (44_window.md R228 is performed only
then): C2.RAWD (46_lzma2_demux.md R274), C2.LZMA3 (R281), CMD.REOPEN with its size arguments
(45_lzma1_reader.md R245). -/
inductive Wait where
  | rawd
  | lzma3
  | reopen (sizeDefined : Bool) (size : BitVec 64)
deriving DecidableEq, Repr

/-- An answer of SRC to a pull (20_memory.md R58). -/
inductive SrcAnswer where
  | byte (b : Byte)
  | eof
  | err (e : Word)
deriving DecidableEq, Repr

/-- What SNK receives on OUT (20_memory.md R61, 45_lzma1_reader.md R247, 60_exceptions.md R304). -/
inductive OutItem where
  | byte (b : Byte)
  | endOfStream
  | error
deriving DecidableEq, Repr

/-- Whom CORE waits for (60_exceptions.md R319). While it waits for SRC, the first `taken` answers of `env.src`
have been given to pulls of the operation in flight, and the answer after them, once SRC gives it, is that of the
pull outstanding: no other operation gets them (20_memory.md R60; log entry 2). -/
inductive Hold where
  | none
  | src (taken : Nat)
  | snk
  | host
deriving DecidableEq, Repr

/-- One move of one agent (00_scope.md R2): CORE runs its next rule; SNK accepts; SRC answers a pull;
HOST issues a command, reads `STATUS`, or attaches an SRC. -/
inductive Turn where
  | core
  | snk
  | src (a : SrcAnswer)
  | command (w : HostWord)
  | readStatus
  | attach (answers : List SrcAnswer)
deriving DecidableEq, Repr

/-- The ports and the other agents (20_memory.md R50, R58, R61; 45_lzma1_reader.md R240). -/
structure Env where
  src : List SrcAnswer
  out : List OutItem
  turns : List Turn
  autoSnk : Bool
  hold : Hold
  indGiven : Bool
  hostRead : Option StatusView
deriving DecidableEq, Repr

/-- The parameter `DRAIN_ON_FAULT` (60_exceptions.md R306). -/
inductive Drain where
  | nothing
  | all
  | any
deriving DecidableEq, Repr

/-- The open parameters of the implementation (00_scope.md section 5): `WIN_CAP`, `LIT_BITS_CAP`,
`DRAIN_ON_FAULT`. The model's own field; no step writes it. -/
structure Params where
  winCap : Word
  litBitsCap : Nat
  drainOnFault : Drain
deriving DecidableEq, Repr

/-- The result of the last primitive executed as an instruction of its own. The model's own field:
inside an operation a primitive's result goes to the rule that invoked it. -/
inductive Ret where
  | none
  | bit (b : Bool)
  | truth (b : Bool)
  | num (n : Nat)
  | word (w : Word)
  | byte (b : Byte)
  | props (lc : BitVec 4) (lp pb : BitVec 3)
deriving DecidableEq, Repr

/-- The whole state. `par`, `ret` and `free` are the model's own; every other field is the spec's. -/
structure State where
  par : Params
  phase : Phase
  mode : Mode
  status : Status
  inCount : Nat
  rc : Rc
  st : Fsm
  sizeDefined : Bool
  rem : BitVec 64
  cfg : Cfg
  c2 : C2
  prob : ProbMem
  win : Win
  wait : Option Wait
  env : Env
  ret : Ret
  free : Nat
deriving DecidableEq, Repr

/-- Modelling faults: what a rule of the spec never does. Each stops the machine, which is safe: the
hardware goes on only where the spec gives it no behaviour. -/
inductive Fault where
  /-- WIN.GET outside `1 <= dist <= (isFull ? size : pos)` (44_window.md R222; U2). Raised by
  WIN.GET and what calls it. Safe. -/
  | winGetRange
  /-- A read of a window cell that no WIN.PUT has written (20_memory.md R69; U1). Raised by WIN.GET.
  Safe. -/
  | winCellUnwritten
  /-- A window index outside `0 .. win.size-1` (20_memory.md R52). Raised by WIN.GET and WIN.PUT.
  Safe. -/
  | winIndex
  /-- A slot index outside its table (20_memory.md R54: bounds-checked indexed access). Raised by
  RC.BIT and what calls it. Safe. -/
  | probIndex
deriving DecidableEq, Repr

/-- Refusals. -/
inductive Refusal where
  /-- The instruction has no meaning in this model. Raised by an arm of `exec` only; no arm raises
  it. Safe. -/
  | notModelled (mnemonic : String)
deriving DecidableEq, Repr

/-- The outcome of a step of this machine. -/
abbrev Outcome := Host.Outcome State Fault Refusal

/-- The registers at power-on (10_state.md R30 first column, 70_reset_and_hazards.md R340). What R30
gives: `phase`, `mode`, `status`, `inCount`, `rc.corrupted`, `win.pending`, `c2.haveDecoder`, and a
window with no cell written. DESIGN CHOICE, unsafe, log entries 3 and 4: every register R30 leaves
unspecified is zero and every probability slot is 1024. -/
def State.reset : State where
  par := { winCap := 0xFFFFFFFF#32, litBitsCap := 12, drainOnFault := .any }
  phase := .idle
  mode := .none
  status := { kind := .none, cause := .none, info := 0#32 }
  inCount := 0
  rc := { range := 0#32, code := 0#32, corrupted := false }
  st := { state := 0#4, rep0 := 0#32, rep1 := 0#32, rep2 := 0#32, rep3 := 0#32 }
  sizeDefined := false
  rem := 0#64
  cfg := { lc := 0#4, lp := 0#3, pb := 0#3, dictSize := 0#32 }
  c2 := { ctrl := 0#8, uncSize := 0#22, compSize := 0#17, prop := 0#8, compLeft := 0#17,
          rawLeft := 0#17, haveDecoder := false }
  prob := []
  win := { buf := [], size := 0#32, pos := 0#32, isFull := false, pending := 0, totalPos := 0,
           allocated := false }
  wait := none
  env := { src := [], out := [], turns := [], autoSnk := true, hold := .none, indGiven := false,
           hostRead := none }
  ret := .none
  free := 0

/-! The update of one field each; Laws/State.lean says what each leaves alone. -/

def State.withPhase (s : State) (x : Phase) : State := { s with phase := x }

def State.withMode (s : State) (x : Mode) : State := { s with mode := x }

def State.withStatus (s : State) (x : Status) : State := { s with status := x }

def State.withInCount (s : State) (x : Nat) : State := { s with inCount := x }

def State.withRc (s : State) (x : Rc) : State := { s with rc := x }

def State.withSt (s : State) (x : Fsm) : State := { s with st := x }

def State.withSizeDefined (s : State) (x : Bool) : State := { s with sizeDefined := x }

def State.withRem (s : State) (x : BitVec 64) : State := { s with rem := x }

def State.withCfg (s : State) (x : Cfg) : State := { s with cfg := x }

def State.withC2 (s : State) (x : C2) : State := { s with c2 := x }

def State.withProb (s : State) (x : ProbMem) : State := { s with prob := x }

def State.withWin (s : State) (x : Win) : State := { s with win := x }

def State.withWait (s : State) (x : Option Wait) : State := { s with wait := x }

def State.withEnv (s : State) (x : Env) : State := { s with env := x }

def State.withRet (s : State) (x : Ret) : State := { s with ret := x }

def State.withFree (s : State) (x : Nat) : State := { s with free := x }

end Sys2Proof.Machine
end

