-- ==== Sys2Proof/Machine/Mem.lean ====
section
/-! DEFINITION. Sparse memories: lists of (address, value) pairs with strictly rising addresses. WIN and PROB
(20_memory.md R50) are held this way; both canonical forms are stated here. -/
namespace Sys2Proof.Machine

/-- The value listed at address `a`. -/
def cellGet {α : Type} : List (Nat × α) → Nat → Option α
  | [], _ => none
  | (k, v) :: r, a => if k = a then some v else cellGet r a

/-- List `v` at address `a`. -/
def cellPut {α : Type} : List (Nat × α) → Nat → α → List (Nat × α)
  | [], a, v => [(a, v)]
  | (k, w) :: r, a, v =>
    if a < k then (a, v) :: (k, w) :: r
    else if a = k then (a, v) :: r
    else (k, w) :: cellPut r a v

/-- Unlist the addresses `lo .. lo+n-1`. -/
def cellDrop {α : Type} (m : List (Nat × α)) (lo n : Nat) : List (Nat × α) :=
  m.filter fun c => decide (c.1 < lo ∨ lo + n ≤ c.1)

/-- Addresses strictly rise. -/
def cellsRising {α : Type} : List (Nat × α) → Bool
  | [] => true
  | [_] => true
  | (a, _) :: (b, w) :: r => decide (a < b) && cellsRising ((b, w) :: r)

/-- The canonical form of the window's contents. An unlisted cell has no value (20_memory.md R69), so
no listed cell can repeat it. -/
def Memory.wf (m : Memory) : Bool := cellsRising m

/-- The canonical form of the probability store: no slot is listed with 1024, which is what an unlisted
slot holds. -/
def ProbMem.wf (m : ProbMem) : Bool :=
  cellsRising m && m.all fun c => decide (c.2 ≠ Config.probInit)

/-- The slot with key `a`. -/
def slotGet (m : ProbMem) (a : Nat) : BitVec 11 := (cellGet m a).getD Config.probInit

/-- Write the slot with key `a`. -/
def slotPut (m : ProbMem) (a : Nat) (v : BitVec 11) : ProbMem :=
  if v = Config.probInit then cellDrop m a 1 else cellPut m a v

end Sys2Proof.Machine
end

