-- ==== Sys2Proof/Machine/Operands.lean ====
section
/-! DEFINITION. Operand forms: how a rule names a probability slot, a window cell, a context or a clamped
parameter. -/
namespace Sys2Proof.Machine

/-! ### Slots of PROB -/

/-- Slots of a table (10_state.md R23); only the literal table's number depends on the properties
(R24). -/
def tableSize (cfg : Cfg) (t : Table) : Nat :=
  match t with
  | .lit => Config.litSubtable * 2 ^ (cfg.lc.toNat + cfg.lp.toNat)
  | t => t.maxSize

/-- The offset of a length instance in the layout of 20_memory.md R54. -/
def lenBase : LenInst → Nat
  | .len => 819
  | .repLen => 1333

/-- Where a table starts in the (informative) layout of 20_memory.md R54: the model's key of slot `i`
is `tableBase t + i`. -/
def tableBase : Table → Nat
  | .isMatch => 0
  | .isRep => 192
  | .isRepG0 => 204
  | .isRepG1 => 216
  | .isRepG2 => 228
  | .isRep0Long => 240
  | .posSlot k => 432 + 64 * k.toNat
  | .posDec => 688
  | .align => 803
  | .choice l => lenBase l
  | .choice2 l => lenBase l + 1
  | .low l ps => lenBase l + 2 + 8 * ps.toNat
  | .mid l ps => lenBase l + 130 + 8 * ps.toNat
  | .high l => lenBase l + 258
  | .lit => 1847

/-- `prob[T][i]` (10_state.md R22). -/
def probAt (s : State) (t : Table) (i : Nat) : BitVec 11 := slotGet s.prob (tableBase t + i)

/-! ### Contexts -/

/-- `posState` (42_literal_distance.md R171), of which only four bits exist (10_state.md R27). -/
def posState (s : State) : BitVec 4 := BitVec.ofNat 4 (s.win.totalPos % 2 ^ s.cfg.pb.toNat)

/-- `litState` (42_literal_distance.md R160). -/
def litState (s : State) (prevByte : Byte) : Nat :=
  (s.win.totalPos % 2 ^ s.cfg.lp.toNat) * 2 ^ s.cfg.lc.toNat
    + prevByte.toNat / 2 ^ (8 - s.cfg.lc.toNat)

/-- `(state << 4) + posState` (43_state_machine.md R187). -/
def stateIndex (st : BitVec 4) (ps : BitVec 4) : Nat := 16 * st.toNat + ps.toNat

/-- `lenState = min(length index, 3)` (42_literal_distance.md R166). -/
def lenState (n : Nat) : BitVec 2 := if n < 3 then BitVec.ofNat 2 n else 3#2

/-! ### Window addressing -/

/-- How many cells a distance can reach, `isFull ? size : pos` (10_state.md R26). -/
def winValid (w : Win) : Nat := if w.isFull then w.size.toNat else w.pos.toNat

/-- The cell written `dist` positions ago (20_memory.md R53). -/
def winCell (w : Win) (dist : Nat) : Nat :=
  if dist ≤ w.pos.toNat then w.pos.toNat - dist else w.size.toNat - dist + w.pos.toNat

/-! ### Header fields -/

/-- `lc`, `lp`, `pb` of a property byte below 225 (30_encoding.md R84). -/
def propLc (d : Byte) : BitVec 4 := BitVec.ofNat 4 (d.toNat % 9)

def propLp (d : Byte) : BitVec 3 := BitVec.ofNat 3 (d.toNat / 9 % 5)

def propPb (d : Byte) : BitVec 3 := BitVec.ofNat 3 (d.toNat / 9 / 5)

/-- The dictionary size after the lower clamp (30_encoding.md R86). -/
def clampDict (d : Word) : Word := if d < Config.dictMin then Config.dictMin else d

/-- `uncompressedSize` and `compressedSize` from their stored values (30_encoding.md R90, R91). -/
def uncSizeOf {w : Nat} (m1 : BitVec w) : BitVec 22 := m1.setWidth 22 + 1#22

def compSizeOf (m1 : BitVec 16) : BitVec 17 := m1.setWidth 17 + 1#17

end Sys2Proof.Machine
end

