-- ==== Sys2Proof/Machine/Flags.lean ====
section
/-! DEFINITION. The flags (10_state.md R28), the conditions the rules test, and the encoding of `STATUS`.
There are no arithmetic condition codes. -/
namespace Sys2Proof.Machine

/-! ### `rc.corrupted` -/

/-- RC.INIT sets the flag for a nonzero reserved byte or `code == range` (40_range_decoder.md R120). -/
def initCorrupted (reserved : Byte) (code : Word) : Bool :=
  reserved != 0#8 || code == 0xFFFFFFFF#32

/-- An iteration of RC.DIRECT sets the flag, sticky, when `code == range` after the conditional
subtraction (40_range_decoder.md R123). -/
def directCorrupted (old : Bool) (range code : Word) : Bool := old || code == range

/-! ### Tests -/

/-- RC.FINOK, the clean finish (40_range_decoder.md R124). -/
def finOk (s : State) : Bool := s.rc.code == 0#32

/-- "declared size is exactly 0": false when the size is undefined (43_state_machine.md R203). -/
def sizeDone (s : State) : Bool := s.sizeDefined && s.rem == 0#64

/-- WIN.EMPTY (44_window.md R225). -/
def winIsEmpty (w : Win) : Bool := w.pos == 0#32 && !w.isFull

/-- WIN.CHK (44_window.md R223). -/
def winReaches (w : Win) (dist : Nat) : Bool := decide (dist ≤ w.pos.toNat) || w.isFull

/-- The first half of CHK_BACK and then its second (43_state_machine.md R204). -/
def backOk (s : State) : Bool :=
  decide (s.st.rep0 < s.cfg.dictSize) && winReaches s.win (s.st.rep0.toNat + 1)

/-- `win.isFull` after a WIN.PUT: set by the write that wraps, never cleared (44_window.md R221). -/
def fullAfterPut (w : Win) : Bool := w.isFull || w.pos + 1#32 == w.size

/-- The LZMA2 chunk limit is active (20_memory.md R59; `mode` is what tells: 10_state.md R31). -/
def limitActive (s : State) : Bool :=
  s.mode == .lzma2 && (s.phase == .rcinit || s.phase == .run)

/-- `sizeDefined` of a size field (30_encoding.md R87). -/
def sizeIsDefined (u : BitVec 64) : Bool := u != Config.sizeUndefined

/-! ### Holds -/

/-- CORE waits for SRC: it is held at a pull (20_memory.md R58). -/
def Hold.atPull : Hold → Bool
  | .src _ => true
  | .none => false
  | .snk => false
  | .host => false

/-- How many of SRC's answers the operation in flight has pulled, the answer to the pull outstanding included. -/
def Hold.taken : Hold → Nat
  | .src n => n + 1
  | .none => 0
  | .snk => 0
  | .host => 0

/-! ### Command acceptance (45_lzma1_reader.md R250) -/

/-- Phases with no run in progress. -/
def Phase.quiet : Phase → Bool
  | .idle => true
  | .done => true
  | .fault => true
  | _ => false

/-- No run is in progress: an accepted CMD.REOPEN has begun one, also while it waits for the drain
(70_reset_and_hazards.md R352; log entry 16). -/
def betweenRuns (s : State) : Bool := s.phase.quiet && s.wait.isNone

/-- A START command is accepted; CMD.START_RAW with a shared window only if one is allocated (R244). -/
def startAccepted (s : State) : Bool := s.phase.quiet

/-- CMD.REOPEN is accepted in DONE, in modes LZMA1 and RAW. -/
def reopenAccepted (s : State) : Bool :=
  s.phase == .done && (s.mode == .lzma1 || s.mode == .raw)

/-! ### STATUS -/

/-- The kind each cause has (60_exceptions.md R302). -/
def causeKind : Cause → Kind
  | .none => .none
  | .endSize => .endOk
  | .endMarker => .endOk
  | .endLzma2Eos => .endOk
  | .headerShort => .corruptedStream
  | .prologueShort => .corruptedStream
  | .chunkHeaderShort => .corruptedStream
  | .propsGe225 => .incorrectProperties
  | .propsUnsupported => .incorrectProperties
  | .dictTooLarge => .dictSizeOutOfRange
  | .sizeExhausted => .resultError
  | .badMarker => .resultError
  | .sizeNotReached => .resultError
  | .badDistance => .resultError
  | .repEmptyWindow => .resultError
  | .lenOverrun => .resultError
  | .eofAtFinish => .resultError
  | .noProperties => .resultError
  | .chunkInputOverrun => .resultError
  | .chunkInputLeft => .resultError
  | .ctrl03to7F => .unexpectedChunkCode
  | .unexpectedEof => .ioError
  | .sourceError => .ioError

/-- `STATUS.kind` codes (60_exceptions.md R301). -/
def kindCode : Kind → BitVec 4
  | .none => 0#4
  | .endOk => 1#4
  | .corruptedStream => 2#4
  | .incorrectProperties => 3#4
  | .dictSizeOutOfRange => 4#4
  | .resultError => 5#4
  | .unexpectedChunkCode => 6#4
  | .ioError => 7#4

/-- `STATUS.cause` codes (60_exceptions.md R302). -/
def causeCode : Cause → BitVec 8
  | .none => 0x00#8
  | .endSize => 0x01#8
  | .endMarker => 0x02#8
  | .endLzma2Eos => 0x03#8
  | .headerShort => 0x10#8
  | .prologueShort => 0x11#8
  | .chunkHeaderShort => 0x12#8
  | .propsGe225 => 0x20#8
  | .propsUnsupported => 0x21#8
  | .dictTooLarge => 0x28#8
  | .sizeExhausted => 0x30#8
  | .badMarker => 0x31#8
  | .sizeNotReached => 0x32#8
  | .badDistance => 0x33#8
  | .repEmptyWindow => 0x34#8
  | .lenOverrun => 0x35#8
  | .eofAtFinish => 0x36#8
  | .noProperties => 0x37#8
  | .chunkInputOverrun => 0x38#8
  | .chunkInputLeft => 0x39#8
  | .ctrl03to7F => 0x40#8
  | .unexpectedEof => 0x50#8
  | .sourceError => 0x51#8

/-- What a read of `STATUS` shows (10_state.md R20, 45_lzma1_reader.md R249). -/
def statusView (s : State) : StatusView where
  kind := kindCode s.status.kind
  cause := causeCode s.status.cause
  info := s.status.info
  corrupted := s.rc.corrupted
  busy := !s.phase.quiet

end Sys2Proof.Machine
end

