-- ==== Sys2Proof/Machine/Ops.lean ====
section
/-! DEFINITION. The named operations the rules are written with: the four ways a rule can go, the fault
entry and the clean end, pulls, access to PROB and WIN, the resets. -/
namespace Sys2Proof.Machine

/-! ### How a rule goes -/

/-- A rule completes with a value, raises (the state is the one after `raise`), is held at a pull that
SRC has not answered, or does what no rule does (a modelling fault). -/
inductive Res (α : Type) where
  | ok (a : α) (s : State)
  | raised (s : State)
  | held
  | bad (f : Fault)

/-- Program order (00_scope.md R5): the rest runs only if the first part completes; nothing after a
`raise` is executed (60_exceptions.md R304). -/
def Res.bind {α β : Type} (r : Res α) (f : α → State → Res β) : Res β :=
  match r with
  | .ok a s => f a s
  | .raised s => .raised s
  | .held => .held
  | .bad e => .bad e

/-- Record in the state whom CORE waits for. -/
def onHold (h : Hold) (s : State) : State := s.withEnv { s.env with hold := h }

/-- Held at a pull: the operation has been given every answer SRC has supplied, or it would not be held. -/
def holdAtPull (s : State) : State := onHold (.src s.env.src.length) s

/-- The outcome of an instruction that ran from `s0`: a raise is a next state (phase FAULT); held at a pull,
nothing has happened but the hold (00_scope.md R3, 70_reset_and_hazards.md R349; log entry 2). -/
def settle (s0 : State) (r : Res Unit) : Outcome :=
  match r with
  | .ok _ s => .next s
  | .raised s => .next s
  | .held => .next (holdAtPull s0)
  | .bad f => .fault f

/-- The outcome of a primitive executed as an instruction of its own: its result stands in `ret`. -/
def settleRet {α : Type} (s0 : State) (ret : α → Ret) (r : Res α) : Outcome :=
  settle s0 (r.bind fun a s => .ok () (s.withRet (ret a)))

/-! ### Taking a fault, and the clean end -/

/-- The state after `raise K(c, info)`: STATUS and `phase`, nothing else (60_exceptions.md R304). There
is no return from it (R311). -/
def raiseState (c : Cause) (info : Word) (s : State) : State :=
  (s.withStatus { kind := causeKind c, cause := c, info := info }).withPhase .fault

/-- `raise` (60_exceptions.md R304). -/
def raise {α : Type} (c : Cause) (info : Word) (s : State) : Res α := .raised (raiseState c info s)

/-- `finish(c)`: STATUS and `phase`, nothing else (60_exceptions.md R303). -/
def finish (c : Cause) (s : State) : State :=
  (s.withStatus { kind := .endOk, cause := c, info := 0#32 }).withPhase .done

/-! ### IN -/

/-- The cause of a pull that meets `End` (20_memory.md R59). -/
def endCause (s : State) : Cause :=
  match s.phase with
  | .hdr1 => .headerShort
  | .rcinit => .prologueShort
  | .c2hdr => .chunkHeaderShort
  | .run => if sizeDone s then .eofAtFinish else .unexpectedEof
  | .idle => .unexpectedEof
  | .c2ctrl => .unexpectedEof
  | .c2raw => .unexpectedEof
  | .done => .unexpectedEof
  | .fault => .unexpectedEof

/-- The cause of a pull at the chunk limit (20_memory.md R59, 46_lzma2_demux.md R289). -/
def limitCause (s : State) : Cause :=
  if s.phase = .rcinit then .prologueShort else .chunkInputOverrun

/-- `c2.compLeft` counts the pulls of a limited chunk, before SRC is asked (20_memory.md R59). -/
def countPull (s : State) : State :=
  if limitActive s then s.withC2 { s.c2 with compLeft := s.c2.compLeft - 1#17 } else s

/-- SRC's next answer is taken from the port. -/
def takeAnswer (rest : List SrcAnswer) (s : State) : State := s.withEnv { s.env with src := rest }

/-- `Pull()` (20_memory.md R58, R59). -/
def pull (s : State) : Res Byte :=
  if limitActive s && s.c2.compLeft == 0#17 then raise (limitCause s) 0#32 s
  else
    match s.env.src with
    | [] => .held
    | .byte b :: rest => .ok b ((takeAnswer rest (countPull s)).withInCount (s.inCount + 1))
    | .eof :: rest => raise (endCause s) 0#32 (takeAnswer rest (countPull s))
    | .err e :: rest => raise .sourceError e (takeAnswer rest (countPull s))

/-- `n` pulls. -/
def pullN : Nat → State → Res (List Byte)
  | 0, s => .ok [] s
  | n + 1, s => (pull s).bind fun b s => (pullN n s).bind fun bs s => .ok (b :: bs) s

/-! ### PROB -/

/-- Write `prob[T][i]`. -/
def probPut (t : Table) (i : Nat) (p : BitVec 11) (s : State) : State :=
  s.withProb (slotPut s.prob (tableBase t + i) p)

/-- Every slot of one table becomes 1024 (41_bittree_length.md R142). -/
def tableReset (t : Table) (s : State) : State :=
  s.withProb (cellDrop s.prob (tableBase t) (tableSize s.cfg t))

/-! ### WIN -/

/-- `MemRead(WIN, i, 1)` (20_memory.md R52). -/
def memRead (i : Nat) (s : State) : Res Byte :=
  if i < s.win.size.toNat then
    match cellGet s.win.buf i with
    | some b => .ok b s
    | none => .bad .winCellUnwritten
  else .bad .winIndex

/-- The window after WIN.PUT(b) (44_window.md R221). -/
def putWin (b : Byte) (w : Win) : Win :=
  { w with
    buf := cellPut w.buf w.pos.toNat b
    pos := if w.pos + 1#32 == w.size then 0#32 else w.pos + 1#32
    isFull := fullAfterPut w
    pending := w.pending + 1
    totalPos := w.totalPos + 1 }

/-- WIN.PUT (44_window.md R221). -/
def winPut (b : Byte) (s : State) : Res Unit :=
  if s.win.pos < s.win.size then .ok () (s.withWin (putWin b s.win)) else .bad .winIndex

/-- WIN.GET (44_window.md R222). -/
def winGet (dist : Nat) (s : State) : Res Byte :=
  if 1 ≤ dist ∧ dist ≤ winValid s.win then memRead (winCell s.win dist) s else .bad .winGetRange

/-- WIN.COPY: byte by byte, forward (44_window.md R224). -/
def winCopy (dist : Nat) : Nat → State → Res Unit
  | 0, s => .ok () s
  | n + 1, s =>
    (winGet dist s).bind fun b s => (winPut b s).bind fun _ s => winCopy dist n s

/-- WIN.INIT (44_window.md R220). -/
def winInit (size : Word) (s : State) : State :=
  s.withWin { buf := [], size := size, pos := 0#32, isFull := false, pending := 0, totalPos := 0,
              allocated := true }

/-- The writes of WIN.RESET (44_window.md R228); cells and size are kept. -/
def winReset (s : State) : State :=
  s.withWin { s.win with pos := 0#32, isFull := false, pending := 0, totalPos := 0 }

/-- `win.pending <- 0`. -/
def dropPending (s : State) : State := s.withWin { s.win with pending := 0 }

/-- `SnkPush` (20_memory.md R61). -/
def snkPush (x : OutItem) (s : State) : State := s.withEnv { s.env with out := s.env.out ++ [x] }

/-- WIN.DRAIN, enabled when `win.pending > 0` (44_window.md R227). -/
def winDrain (s : State) : Res Unit :=
  if s.win.pending = 0 then .ok () s
  else
    (winGet s.win.pending s).bind fun b s =>
      .ok () ((snkPush (.byte b) s).withWin { s.win with pending := s.win.pending - 1 })

/-! ### Counters and registers of a stream -/

/-- "decrement remaining count": only when the size is defined (43_state_machine.md R203). -/
def useRem (k : BitVec 64) (s : State) : State :=
  if s.sizeDefined then s.withRem (s.rem - k) else s

/-- `sizeDefined <- sd; if sd: rem <- u` (45_lzma1_reader.md R243). -/
def loadSize (sd : Bool) (u : BitVec 64) (s : State) : State :=
  if sd then (s.withSizeDefined true).withRem u else s.withSizeDefined false

/-- `st.state <- x`. -/
def setFsm (x : BitVec 4) (s : State) : State := s.withSt { s.st with state := x }

/-- `cfg.lc, cfg.lp, cfg.pb <- ...`. -/
def loadProps (lc : BitVec 4) (lp pb : BitVec 3) (s : State) : State :=
  s.withCfg { s.cfg with lc := lc, lp := lp, pb := pb }

/-- `cfg.dictSize <- ds ; WIN.INIT(ds)`. -/
def allocate (ds : Word) (s : State) : State :=
  winInit ds (s.withCfg { s.cfg with dictSize := ds })

/-- SM.RESET (43_state_machine.md R202). -/
def smReset (s : State) : State :=
  (s.withSt { state := 0#4, rep0 := 0#32, rep1 := 0#32, rep2 := 0#32, rep3 := 0#32 }).withProb []

/-- `STATUS.kind, cause, info <- 0 ; inCount <- 0`, and the model's record of a run that begins: no
indication given yet, nothing waiting (log entries 16, 18). -/
def beginRun (s : State) : State :=
  (((s.withStatus { kind := .none, cause := .none, info := 0#32 }).withInCount 0).withWait none).withEnv
    { s.env with hold := .none, indGiven := false }

/-- What every START command writes first (45_lzma1_reader.md R241, R244; 46_lzma2_demux.md R270). -/
def beginStart (m : Mode) (s : State) : State :=
  let s := dropPending (beginRun s)
  ((s.withMode m).withRc { s.rc with corrupted := false }).withC2 { s.c2 with haveDecoder := false }

/-- PROP.DEC (30_encoding.md R84) with the capacity check of R85: raises or answers nothing; the three
fields are `propLc`, `propLp`, `propPb`. -/
def propCheck (d : Byte) (s : State) : Res Unit :=
  if Config.propLimit ≤ d then raise .propsGe225 (d.setWidth 32) s
  else if s.par.litBitsCap < (propLc d).toNat + (propLp d).toNat then
    raise .propsUnsupported (d.setWidth 32) s
  else .ok () s

/-- The dictionary-size check (30_encoding.md R86); answers the clamped size. -/
def dictCheck (d : Word) (s : State) : Res Word :=
  if s.par.winCap < clampDict d then raise .dictTooLarge (clampDict d) s
  else .ok (clampDict d) s

/-! ### Ends of the main loop -/

/-- CHUNKEND (46_lzma2_demux.md R282). -/
def chunkEnd (s : State) : Res Unit :=
  if s.c2.compLeft = 0#17 then .ok () (s.withPhase .c2ctrl)
  else raise .chunkInputLeft (s.c2.compLeft.setWidth 32) s

/-- `stop(c)` (43_state_machine.md R185). -/
def stop (c : Cause) (s : State) : Res Unit :=
  if s.mode = .lzma2 then chunkEnd s else .ok () (finish c s)

end Sys2Proof.Machine
end

