-- ==== Sys2Proof/Machine/RangeDecoder.lean ====
section
/-! DEFINITION. The range decoder (40_range_decoder.md): RC.INIT, RC.NORM, RC.BIT, RC.DIRECT, RC.FINOK. -/
namespace Sys2Proof.Machine

/-! ### Arithmetic of one decision -/

/-- `bound = (range >> 11) * p` (R122), kept to 32 bits (00_scope.md R4). -/
def rcBound (range : Word) (p : BitVec 11) : Word := (range >>> 11) * p.setWidth 32

/-- The slot after a decoded 0 (R126). -/
def probUp (p : BitVec 11) : BitVec 11 := BitVec.ofNat 11 (p.toNat + (2048 - p.toNat) / 32)

/-- The slot after a decoded 1 (R126). -/
def probDown (p : BitVec 11) : BitVec 11 := p - p >>> 5

/-- The bit RC.BIT decodes on a slot that holds `p`: the comparison is strict (R122). -/
def rcBitOf (rc : Rc) (p : BitVec 11) : Bool := !decide (rc.code < rcBound rc.range p)

/-- `range` and `code` after the decision, before normalisation (R122). -/
def rcAfter (rc : Rc) (p : BitVec 11) : Rc :=
  if rcBitOf rc p then
    { rc with code := rc.code - rcBound rc.range p, range := rc.range - rcBound rc.range p }
  else { rc with range := rcBound rc.range p }

/-- The slot after the decision (R122). -/
def probAfter (rc : Rc) (p : BitVec 11) : BitVec 11 := if rcBitOf rc p then probDown p else probUp p

/-- `range` and `code` after a normalisation that pulled `b` (R121). -/
def rcShift (b : Byte) (rc : Rc) : Rc :=
  { rc with range := rc.range <<< 8, code := rc.code <<< 8 ||| b.setWidth 32 }

/-- The bit of one RC.DIRECT iteration: the halved range is reached (R123). -/
def directBitOf (rc : Rc) : Bool := decide (rc.range >>> 1 ≤ rc.code)

/-- The registers after one RC.DIRECT iteration, before normalisation: halve, subtract if the bit is 1,
test for `code == range` (R123). -/
def directAfter (rc : Rc) : Rc :=
  let range := rc.range >>> 1
  let code := if directBitOf rc then rc.code - range else rc.code
  { range := range, code := code, corrupted := directCorrupted rc.corrupted range code }

/-- The registers RC.INIT loads (R120). -/
def rcLoad (reserved : Byte) (code : Word) : Rc :=
  { range := 0xFFFFFFFF#32, code := code, corrupted := initCorrupted reserved code }

/-! ### The operations -/

/-- RC.NORM (R121): one byte at most. -/
def rcNorm (s : State) : Res Unit :=
  if s.rc.range < Config.top then
    (pull s).bind fun b s => .ok () (s.withRc (rcShift b s.rc))
  else .ok () s

/-- The writes of RC.BIT before RC.NORM (R122). -/
def rcDecide (t : Table) (i : Nat) (s : State) : State :=
  (probPut t i (probAfter s.rc (probAt s t i)) s).withRc (rcAfter s.rc (probAt s t i))

/-- RC.BIT (R122). The slot is updated before the normalisation, so it stays updated when that raises. -/
def rcBit (t : Table) (i : Nat) (s : State) : Res Bool :=
  if i < tableSize s.cfg t then
    (rcNorm (rcDecide t i s)).bind fun _ s' => .ok (rcBitOf s.rc (probAt s t i)) s'
  else .bad .probIndex

/-- One iteration of RC.DIRECT (R123). -/
def rcDirectBit (s : State) : Res Bool :=
  (rcNorm (s.withRc (directAfter s.rc))).bind fun _ s' => .ok (directBitOf s.rc) s'

/-- RC.DIRECT (R123): `n` more bits below the bits `v` decoded so far. -/
def rcDirect : Nat → Word → State → Res Word
  | 0, v, s => .ok v s
  | n + 1, v, s =>
    (rcDirectBit s).bind fun b s => rcDirect n (v <<< 1 ||| BitVec.ofNat 32 b.toNat) s

/-! ### Instructions -/

/-- RC.INIT (R120), its five bytes pulled by the fetch. -/
def execRcInit (reserved : Byte) (code : Word) (s : State) : Outcome :=
  settle s (.ok () ((s.withRc (rcLoad reserved code)).withPhase .run))

/-- RC.NORM as an instruction of its own. -/
def execRcNorm (s : State) : Outcome := settle s (rcNorm s)

/-- RC.BIT as an instruction of its own. -/
def execRcBit (t : Table) (i : Nat) (s : State) : Outcome := settleRet s .bit (rcBit t i s)

/-- RC.DIRECT as an instruction of its own. -/
def execRcDirect (n : Nat) (s : State) : Outcome := settleRet s .word (rcDirect n 0#32 s)

/-- RC.FINOK (R124): reads `rc.code` only. -/
def execRcFinok (s : State) : Outcome := settleRet s .truth (.ok (finOk s) s)

end Sys2Proof.Machine
end

