-- ==== Sys2Proof/Machine/BitTree.lean ====
section
/-! DEFINITION. Bit trees and the length decoder (41_bittree_length.md): BT.DEC, BT.RDEC, BT.RESET, LEN.DEC,
LEN.RESET. -/
namespace Sys2Proof.Machine

/-! ### Trees -/

/-- The child of node `m` after bit `b` (R143). -/
def treeChild (m : Nat) (b : Bool) : Nat := 2 * m + b.toNat

/-- The walk of BT.DEC from node `m` down `n` levels; answers the node it ends at (R140). -/
def btWalk (t : Table) (base : Nat) : Nat → Nat → State → Res Nat
  | 0, m, s => .ok m s
  | n + 1, m, s => (rcBit t (base + m) s).bind fun b s => btWalk t base n (treeChild m b) s

/-- BT.DEC: most significant bit first (R140). -/
def btDec (t : Table) (base numBits : Nat) (s : State) : Res Nat :=
  (btWalk t base numBits 1 s).bind fun m s => .ok (m - 2 ^ numBits) s

/-- The walk of BT.RDEC: `i` is the place of the next bit, `sym` the bits so far (R141). -/
def btRwalk (t : Table) (base : Nat) : Nat → Nat → Nat → Nat → State → Res Nat
  | 0, _, _, sym, s => .ok sym s
  | n + 1, i, m, sym, s =>
    (rcBit t (base + m) s).bind fun b s =>
      btRwalk t base n (i + 1) (treeChild m b) (sym + b.toNat * 2 ^ i) s

/-- BT.RDEC: least significant bit first (R141). -/
def btRdec (t : Table) (base numBits : Nat) (s : State) : Res Nat := btRwalk t base numBits 0 1 0 s

/-! ### Lengths -/

/-- LEN.DEC (R144); answers the length index, without `kMatchMinLen` (R147). -/
def lenDec (l : LenInst) (ps : BitVec 4) (s : State) : Res Nat :=
  (rcBit (.choice l) 0 s).bind fun c s =>
    if c then
      (rcBit (.choice2 l) 0 s).bind fun c2 s =>
        if c2 then (btDec (.high l) 0 8 s).bind fun v s => .ok (16 + v) s
        else (btDec (.mid l ps) 0 3 s).bind fun v s => .ok (8 + v) s
    else btDec (.low l ps) 0 3 s

/-- LEN.RESET (R145): the instance's tables are 514 slots of the layout of 20_memory.md R54. -/
def lenReset (l : LenInst) (s : State) : State := s.withProb (cellDrop s.prob (lenBase l) 514)

/-! ### Instructions -/

/-- BT.DEC as an instruction of its own. -/
def execBtDec (t : Table) (base numBits : Nat) (s : State) : Outcome :=
  settleRet s .num (btDec t base numBits s)

/-- BT.RDEC as an instruction of its own. -/
def execBtRdec (t : Table) (base numBits : Nat) (s : State) : Outcome :=
  settleRet s .num (btRdec t base numBits s)

/-- BT.RESET (R142): every slot of the table, index 0 included. -/
def execBtReset (t : Table) (s : State) : Outcome := settle s (.ok () (tableReset t s))

/-- LEN.DEC as an instruction of its own. -/
def execLenDec (l : LenInst) (ps : BitVec 4) (s : State) : Outcome := settleRet s .num (lenDec l ps s)

/-- LEN.RESET as an instruction of its own. -/
def execLenReset (l : LenInst) (s : State) : Outcome := settle s (.ok () (lenReset l s))

end Sys2Proof.Machine
end

