-- ==== Sys2Proof/Machine/LiteralDistance.lean ====
section
/-! DEFINITION. Literals and distances (42_literal_distance.md): LIT.DEC, LIT.DECM, DIST.DEC. -/
namespace Sys2Proof.Machine

/-! ### Literals -/

/-- The first slot of a literal sub-table (R160). -/
def litTable (ls : Nat) : Nat := Config.litSubtable * ls

/-- LIT.DEC (R162): the walk of an 8-bit tree. -/
def litDec (ls : Nat) (s : State) : Res Byte :=
  (btWalk .lit (litTable ls) 8 1 s).bind fun m s => .ok (BitVec.ofNat 8 (m - 0x100)) s

/-- The two loops of LIT.DECM (R163) with `n` bits to go and `symbol = m`: conditioned on bit `n-1` of
the match byte while `same`, plain after the first bit that differs. -/
def litMatched (base : Nat) (mb : Byte) : Nat → Bool → Nat → State → Res Nat
  | 0, _, m, s => .ok m s
  | n + 1, true, m, s =>
    (rcBit .lit (base + (1 + (mb.getLsbD n).toNat) * 2 ^ 8 + m) s).bind fun b s =>
      litMatched base mb n (b == mb.getLsbD n) (treeChild m b) s
  | n + 1, false, m, s =>
    (rcBit .lit (base + m) s).bind fun b s => litMatched base mb n false (treeChild m b) s

/-- LIT.DECM (R163). -/
def litDecm (ls : Nat) (mb : Byte) (s : State) : Res Byte :=
  (litMatched (litTable ls) mb 8 true 1 s).bind fun m s => .ok (BitVec.ofNat 8 (m - 0x100)) s

/-! ### Distances -/

/-- The low bits of a distance with position slot `slot` (R165, R167 to R169). -/
def distLow (slot : Nat) (s : State) : Res Word :=
  let nd := slotDirectBits slot
  if slot < 4 then .ok (BitVec.ofNat 32 slot) s
  else if slot < 14 then
    (btRdec .posDec ((slotBase slot).toNat - slot) nd s).bind fun v s =>
      .ok (slotBase slot + BitVec.ofNat 32 v) s
  else
    (rcDirect (nd - 4) 0#32 s).bind fun d s =>
      (btRdec .align 0 4 s).bind fun a s => .ok (slotBase slot + d <<< 4 + BitVec.ofNat 32 a) s

/-- DIST.DEC (R165); answers the 0-based distance and validates nothing. -/
def distDec (n : Nat) (s : State) : Res Word :=
  (btDec (.posSlot (lenState n)) 0 6 s).bind fun slot s => distLow slot s

/-! ### Instructions -/

/-- LIT.DEC as an instruction of its own. -/
def execLitDec (ls : Nat) (s : State) : Outcome := settleRet s .byte (litDec ls s)

/-- LIT.DECM as an instruction of its own. -/
def execLitDecm (ls : Nat) (mb : Byte) (s : State) : Outcome := settleRet s .byte (litDecm ls mb s)

/-- DIST.DEC as an instruction of its own. -/
def execDistDec (n : Nat) (s : State) : Outcome := settleRet s .word (distDec n s)

end Sys2Proof.Machine
end

