-- ==== Sys2Proof/Machine/StateMachine.lean ====
section
/-! DEFINITION. The LZMA state machine (43_state_machine.md): LIT, MATCH, EOS, SREP, REP0 to REP3, SM.RESET,
CHK_BACK, COPY. Each symbol-level operation starts where its prefix has been decoded (the fetch decodes
it and makes the pre-checks of R193), with `posState` and `s0` as at the start of the pass: no decision
of the prefix changes what they are computed from (log entry 15). -/
namespace Sys2Proof.Machine

/-! ### The FSM -/

/-- R181. -/
def afterLiteral (x : BitVec 4) : BitVec 4 :=
  if x < 4#4 then 0#4 else if x < 10#4 then x - 3#4 else x - 6#4

/-- R182. -/
def afterMatch (x : BitVec 4) : BitVec 4 := if x < 7#4 then 7#4 else 10#4

/-- R183. -/
def afterRep (x : BitVec 4) : BitVec 4 := if x < 7#4 then 8#4 else 11#4

/-- R184. -/
def afterShortRep (x : BitVec 4) : BitVec 4 := if x < 7#4 then 9#4 else 11#4

/-! ### Rep registers -/

/-- The rotation of MATCH (R190); `rep0` is written once the distance is decoded. -/
def rotateReps (f : Fsm) : Fsm := { f with rep3 := f.rep2, rep2 := f.rep1, rep1 := f.rep0 }

/-- The promotion of REP1 (R196). -/
def promote1 (f : Fsm) : Fsm := { f with rep1 := f.rep0, rep0 := f.rep1 }

/-- The promotion of REP2 (R197). -/
def promote2 (f : Fsm) : Fsm := { f with rep2 := f.rep1, rep1 := f.rep0, rep0 := f.rep2 }

/-- The promotion of REP3 (R198). -/
def promote3 (f : Fsm) : Fsm :=
  { f with rep3 := f.rep2, rep2 := f.rep1, rep1 := f.rep0, rep0 := f.rep3 }

/-! ### Shared parts -/

/-- CHK_BACK (R204). -/
def chkBack (s : State) : Res Unit :=
  if backOk s then .ok () s else raise .badDistance s.st.rep0 s

/-- COPY (R200): with a declared size smaller than the length, copy what remains, then raise. -/
def copy (n : Nat) (s : State) : Res Unit :=
  let length := n + Config.matchMinLen
  if s.sizeDefined && decide (s.rem.toNat < length) then
    (winCopy (s.st.rep0.toNat + 1) s.rem.toNat s).bind fun _ s =>
      raise .lenOverrun 0#32 (s.withRem 0#64)
  else
    (winCopy (s.st.rep0.toNat + 1) length s).bind fun _ s =>
      .ok () (useRem (BitVec.ofNat 64 length) s)

/-- The byte a literal is conditioned on, if any: LIT.DECM after CHK_BACK when `s0 >= 7`, else LIT.DEC
(R164, R188). -/
def litByte (s : State) : Res Byte :=
  (if winIsEmpty s.win then Res.ok 0#8 s else winGet 1 s).bind fun prev s =>
    if 7#4 ≤ s.st.state then
      (chkBack s).bind fun _ s =>
        (winGet (s.st.rep0.toNat + 1) s).bind fun mb s => litDecm (litState s prev) mb s
    else litDec (litState s prev) s

/-- LIT (R188). -/
def lit (s : State) : Res Unit :=
  if sizeDone s then raise .sizeExhausted 0#32 s
  else
    (litByte s).bind fun b s =>
      (winPut b s).bind fun _ s => .ok () (useRem 1#64 (setFsm (afterLiteral s.st.state) s))

/-- EOS (R191). -/
def eos (s : State) : Res Unit :=
  if !finOk s then raise .badMarker 0#32 s
  else if s.sizeDefined && s.rem != 0#64 then raise .sizeNotReached 0#32 s
  else stop .endMarker s

/-- MATCH (R190), EOS when the decoded distance is the end marker. -/
def simpleMatch (s : State) : Res Unit :=
  (lenDec .len (posState s) (s.withSt (rotateReps s.st))).bind fun n s =>
    (distDec n (setFsm (afterMatch s.st.state) s)).bind fun d s =>
      let s := s.withSt { s.st with rep0 := d }
      if d = Config.endMarker then eos s
      else (chkBack s).bind fun _ s => copy n s

/-- SREP (R194). -/
def srep (s : State) : Res Unit :=
  (chkBack s).bind fun _ s =>
    (winGet (s.st.rep0.toNat + 1) s).bind fun b s =>
      (winPut b s).bind fun _ s => .ok () (useRem 1#64 (setFsm (afterShortRep s.st.state) s))

/-- REPTAIL (R199). -/
def repTail (s : State) : Res Unit :=
  (lenDec .repLen (posState s) s).bind fun n s =>
    (chkBack (setFsm (afterRep s.st.state) s)).bind fun _ s => copy n s

/-! ### Instructions -/

/-- LIT (R188). -/
def execLit (s : State) : Outcome := settle s (lit s)

/-- MATCH (R190 to R192). -/
def execMatch (s : State) : Outcome := settle s (simpleMatch s)

/-- EOS (R191), its length and distance decoded. -/
def execEos (s : State) : Outcome := settle s (eos s)

/-- SREP (R194). -/
def execSrep (s : State) : Outcome := settle s (srep s)

/-- REP0 (R195): the rep registers are unchanged. -/
def execRep0 (s : State) : Outcome := settle s (repTail s)

/-- REP1 (R196). -/
def execRep1 (s : State) : Outcome := settle s (repTail (s.withSt (promote1 s.st)))

/-- REP2 (R197). -/
def execRep2 (s : State) : Outcome := settle s (repTail (s.withSt (promote2 s.st)))

/-- REP3 (R198). -/
def execRep3 (s : State) : Outcome := settle s (repTail (s.withSt (promote3 s.st)))

/-- SM.RESET (R202). -/
def execSmReset (s : State) : Outcome := settle s (.ok () (smReset s))

/-- CHK_BACK as an instruction of its own. -/
def execChkBack (s : State) : Outcome := settle s (chkBack s)

/-- COPY as an instruction of its own. -/
def execCopy (n : Nat) (s : State) : Outcome := settle s (copy n s)

end Sys2Proof.Machine
end

