-- ==== Sys2Proof/Machine/Fetch.lean ====
section
/-! DEFINITION. How CORE comes to its next operation: the words are pulled from IN (or, in phase RUN, decoded
by the range decoder) and given to the decoder of Decode.lean. The phase says which format is due
(10_state.md R14, 30_encoding.md R80). -/
namespace Sys2Proof.Machine

/-- Phase HDR1: the 13 header bytes (45_lzma1_reader.md R242). -/
def fetchHdr1 (s : State) : Res Instr := (pullN 13 s).bind fun h s => .ok (hdr1Of h) s

/-- After a prologue that could not be read `rc.range` and `rc.code` are unspecified
(40_range_decoder.md R120): free values, log entry 8. -/
def forgetRc (s : State) : State :=
  (s.withRc { s.rc with range := Config.freeWord s.free, code := Config.freeWord (s.free + 1) }).withFree
    (s.free + 2)

/-- Phase RCINIT: the five prologue bytes (R120). -/
def fetchPrologue (s : State) : Res Instr :=
  match pullN 5 s with
  | .ok b s => .ok (prologueOf b) s
  | .raised s => .raised (forgetRc s)
  | .held => .held
  | .bad f => .bad f

/-- The remainder of a chunk header, in phase C2HDR (46_lzma2_demux.md R271). -/
def fetchC2Rest (c : Byte) (s : State) : Res Instr :=
  (pullN (c2HeaderLen c) s).bind fun x s => .ok (chunkOf c x) s

/-- Phase C2CTRL: the control byte, then the remainder (46_lzma2_demux.md R271). -/
def fetchChunk (s : State) : Res Instr :=
  (pull s).bind fun c s => fetchC2Rest c ((s.withC2 { s.c2 with ctrl := c }).withPhase .c2hdr)

/-- The rep family after `isRep` decoded 1: the pre-checks and the rest of the prefix
(43_state_machine.md R193). -/
def fetchRep (ps : BitVec 4) (s : State) : Res Instr :=
  let s0 := s.st.state
  if winIsEmpty s.win then raise .repEmptyWindow 0#32 s
  else if sizeDone s then raise .sizeExhausted 0#32 s
  else
    (rcBit .isRepG0 s0.toNat s).bind fun g0 s =>
      if g0 then
        (rcBit .isRepG1 s0.toNat s).bind fun g1 s =>
          if g1 then
            (rcBit .isRepG2 s0.toNat s).bind fun g2 s => .ok (if g2 then .rep3 else .rep2) s
          else .ok .rep1 s
      else
        (rcBit .isRep0Long (stateIndex s0 ps) s).bind fun l s => .ok (if l then .rep0 else .srep) s

/-- Phase RUN, steps 2 to 4 of a pass: the prefix of the next symbol-level operation
(43_state_machine.md R185, R187, R189, R193; 30_encoding.md R94). The end marker is a MATCH until its
distance is decoded (R98). -/
def fetchSymbol (s : State) : Res Instr :=
  let ps := posState s
  let s0 := s.st.state
  (rcBit .isMatch (stateIndex s0 ps) s).bind fun m s =>
    if m then
      (rcBit .isRep s0.toNat s).bind fun r s => if r then fetchRep ps s else .ok .simpleMatch s
    else .ok .lit s

end Sys2Proof.Machine
end

