-- ==== Sys2Proof/Machine/Reader1.lean ====
section
/-! DEFINITION. The LZMA1 driver and the host commands (45_lzma1_reader.md, and CMD.START_LZMA2 of
46_lzma2_demux.md): HDR1, PROP.DEC, CONSTRUCT, CMD.RESET, the START commands, CMD.REOPEN. -/
namespace Sys2Proof.Machine

/-- CONSTRUCT (R243). -/
def construct (lc : BitVec 4) (lp pb : BitVec 3) (ds : Word) (sd : Bool) (u : BitVec 64)
    (shared : Bool) (s : State) : State :=
  let s := loadProps lc lp pb s
  loadSize sd u (smReset (if shared then s else allocate ds s))

/-- CONSTRUCT with the parameters of a checked property byte, then phase RCINIT (R242, R244). -/
def constructRun (prop : Byte) (ds : Word) (sd : Bool) (u : BitVec 64) (shared : Bool) (s : State) :
    State :=
  (construct (propLc prop) (propLp prop) (propPb prop) ds sd u shared s).withPhase .rcinit

/-- HDR1 after its 13 pulls (R242): properties, then dictionary size. -/
def hdr1 (prop : Byte) (dict : Word) (size : BitVec 64) (s : State) : Res Unit :=
  (propCheck prop s).bind fun _ s =>
    (dictCheck dict s).bind fun ds s =>
      .ok () (constructRun prop ds (sizeIsDefined size) size false s)

/-- The registers after CMD.RESET (R248; 10_state.md R30 first column: the values of power-on). The
parameters, the ports, and the model's own fields are no registers. What the abandoned operation has
pulled is consumed (20_memory.md R60). -/
def reset (s : State) : State :=
  { State.reset with
    par := s.par, ret := s.ret, free := s.free
    env := { s.env with src := s.env.src.drop s.env.hold.taken, hold := .none, indGiven := false } }

/-- CMD.START_LZMA1 once accepted (R241). -/
def startLzma1 (s : State) : State := (beginStart .lzma1 s).withPhase .hdr1

/-- CMD.START_RAW once accepted (R244). -/
def startRaw (prop : Byte) (dict : Word) (sd : Bool) (u : BitVec 64) (shared : Bool) (s : State) :
    Res Unit :=
  (propCheck prop (beginStart .raw s)).bind fun _ s =>
    if shared then .ok () (constructRun prop 0#32 sd u true s)
    else (dictCheck dict s).bind fun ds s => .ok () (constructRun prop ds sd u false s)

/-- CMD.START_LZMA2 once accepted (46_lzma2_demux.md R270). -/
def startLzma2 (dict : Word) (s : State) : Res Unit :=
  (dictCheck dict (beginStart .lzma2 s)).bind fun ds s =>
    .ok () ((allocate ds s).withPhase .c2ctrl)

/-- The last lines of CMD.REOPEN (R245). -/
def reopenEnd (sd : Bool) (u : BitVec 64) (s : State) : State := (loadSize sd u s).withPhase .rcinit

/-- CMD.REOPEN once accepted (R245). With `resetDict` and bytes still pending the rest waits
(70_reset_and_hazards.md R347). -/
def reopen (sd : Bool) (u : BitVec 64) (resetState newProps : Bool) (prop : Byte) (resetDict : Bool)
    (s : State) : Res Unit :=
  let s := beginRun s
  (if newProps then
      (propCheck prop s).bind fun _ s =>
        Res.ok () (loadProps (propLc prop) (propLp prop) (propPb prop) s)
    else Res.ok () s).bind fun _ s =>
  let s := if newProps || resetState then smReset s else s
  if resetDict then
    if s.win.pending = 0 then .ok () (reopenEnd sd u (winReset s))
    else .ok () (onHold .snk (s.withWait (some (.reopen sd u))))
  else .ok () (reopenEnd sd u s)

/-! ### Instructions. A command that is not accepted changes nothing (R250). -/

/-- HDR1 (R242). -/
def execHdr1 (prop : Byte) (dict : Word) (size : BitVec 64) (s : State) : Outcome :=
  settle s (hdr1 prop dict size s)

/-- PROP.DEC (30_encoding.md R84, R85) as an instruction of its own. -/
def execPropDec (d : Byte) (s : State) : Outcome :=
  settleRet s (fun _ => .props (propLc d) (propLp d) (propPb d)) (propCheck d s)

/-- CONSTRUCT as an instruction of its own. -/
def execConstruct (lc : BitVec 4) (lp pb : BitVec 3) (ds : Word) (sd : Bool) (u : BitVec 64)
    (shared : Bool) (s : State) : Outcome :=
  settle s (.ok () (construct lc lp pb ds sd u shared s))

/-- CMD.RESET (R248): accepted in every phase. -/
def execCmdReset (s : State) : Outcome := settle s (.ok () (reset s))

/-- CMD.START_LZMA1 (R241). -/
def execCmdStartLzma1 (s : State) : Outcome :=
  if startAccepted s then settle s (.ok () (startLzma1 s)) else .next s

/-- CMD.START_RAW (R244); with a shared window it needs one to be allocated. -/
def execCmdStartRaw (prop : Byte) (dict : Word) (sd : Bool) (u : BitVec 64) (shared : Bool)
    (s : State) : Outcome :=
  if startAccepted s && (!shared || s.win.allocated) then
    settle s (startRaw prop dict sd u shared s)
  else .next s

/-- CMD.START_LZMA2 (46_lzma2_demux.md R270). -/
def execCmdStartLzma2 (dict : Word) (s : State) : Outcome :=
  if startAccepted s then settle s (startLzma2 dict s) else .next s

/-- CMD.REOPEN (R245). -/
def execCmdReopen (sd : Bool) (u : BitVec 64) (resetState newProps : Bool) (prop : Byte)
    (resetDict : Bool) (s : State) : Outcome :=
  if reopenAccepted s then settle s (reopen sd u resetState newProps prop resetDict s) else .next s

end Sys2Proof.Machine
end

