-- ==== Sys2Proof/Machine/Reader2.lean ====
section
/-! DEFINITION. The LZMA2 chunk kinds (46_lzma2_demux.md), RAWCOPY and CHUNKEND. The header of a chunk is read
by the fetch (R271); `c2.ctrl` is written there. -/
namespace Sys2Proof.Machine

/-- `c2.uncSize <- ...` (30_encoding.md R90). -/
def loadUnc (n : BitVec 22) (s : State) : State := s.withC2 { s.c2 with uncSize := n }

/-- The entry of RAWCOPY (R276). -/
def rawEnter (s : State) : State :=
  (s.withC2 { s.c2 with rawLeft := s.c2.uncSize.setWidth 17 }).withPhase .c2raw

/-- `c2.rawLeft <- c2.rawLeft - 1`, and the end of the loop when none is left (R276). -/
def rawNext (s : State) : State :=
  let s := s.withC2 { s.c2 with rawLeft := s.c2.rawLeft - 1#17 }
  if s.c2.rawLeft = 0#17 then s.withPhase .c2ctrl else s

/-- RAWCOPY: its entry, and in phase C2RAW one iteration of its loop (R276; log entry 29). -/
def rawCopy (s : State) : Res Unit :=
  if s.phase = .c2raw then
    if s.c2.rawLeft = 0#17 then .ok () (s.withPhase .c2ctrl)
    else if s.win.size.toNat ≤ s.win.pending then .ok () (onHold .snk s)
    else (pull s).bind fun b s => (winPut b s).bind fun _ s => .ok () (rawNext s)
  else .ok () (rawEnter s)

/-- C2.RAWD from WIN.RESET on (R274). -/
def rawdEnd (s : State) : State := rawEnter (winReset s)

/-- C2.RAWD (R274). -/
def c2Rawd (n : BitVec 22) (s : State) : State :=
  let s := loadUnc n s
  if s.win.pending = 0 then rawdEnd s else onHold .snk (s.withWait (some .rawd))

/-- `c2.uncSize` and `c2.compSize` of an LZMA chunk (R281). -/
def loadSizes (uncM1 : BitVec 21) (compM1 : BitVec 16) (s : State) : State :=
  s.withC2 { s.c2 with uncSize := uncSizeOf uncM1, compSize := compSizeOf compM1 }

/-- The sub-kinds 2 and 3: new properties, state reset (R281). -/
def newDecoder (prop : Byte) (s : State) : Res Unit :=
  (propCheck prop (s.withC2 { s.c2 with prop := prop })).bind fun _ s =>
    let s := smReset (loadProps (propLc prop) (propLp prop) (propPb prop) s)
    .ok () (s.withC2 { s.c2 with haveDecoder := true })

/-- The sub-kinds 0 and 1 need properties from an earlier chunk (R281). -/
def oldDecoder (s : State) : Res Unit :=
  if s.c2.haveDecoder then .ok () s else raise .noProperties 0#32 s

/-- The last lines of an LZMA chunk's rule (R281). -/
def lzmaEnd (s : State) : State :=
  let s := (s.withSizeDefined true).withRem (s.c2.uncSize.setWidth 64)
  (s.withC2 { s.c2 with compLeft := s.c2.compSize }).withPhase .rcinit

/-- C2.LZMA3 from WIN.RESET on (R281). -/
def lzma3End (s : State) : State := lzmaEnd (winReset s)

/-- C2.LZMA0 (R277, R281). -/
def c2Lzma0 (u : BitVec 21) (c : BitVec 16) (s : State) : Res Unit :=
  (oldDecoder (loadSizes u c s)).bind fun _ s => .ok () (lzmaEnd s)

/-- C2.LZMA1 (R278, R281). -/
def c2Lzma1 (u : BitVec 21) (c : BitVec 16) (s : State) : Res Unit :=
  (oldDecoder (loadSizes u c s)).bind fun _ s => .ok () (lzmaEnd (smReset s))

/-- C2.LZMA2 (R279, R281). -/
def c2Lzma2 (u : BitVec 21) (c : BitVec 16) (prop : Byte) (s : State) : Res Unit :=
  (newDecoder prop (loadSizes u c s)).bind fun _ s => .ok () (lzmaEnd s)

/-- C2.LZMA3 (R280, R281). -/
def c2Lzma3 (u : BitVec 21) (c : BitVec 16) (prop : Byte) (s : State) : Res Unit :=
  (newDecoder prop (loadSizes u c s)).bind fun _ s =>
    if s.win.pending = 0 then .ok () (lzma3End s)
    else .ok () (onHold .snk (s.withWait (some .lzma3)))

/-- What a waiting operation does once `win.pending == 0` (R274, R281; 45_lzma1_reader.md R245). -/
def resume (w : Wait) (s : State) : State :=
  let s := s.withWait none
  match w with
  | .rawd => rawdEnd s
  | .lzma3 => lzma3End s
  | .reopen sd u => reopenEnd sd u (winReset s)

/-! ### Instructions -/

/-- C2.EOS (R273). -/
def execC2Eos (s : State) : Outcome := settle s (.ok () (finish .endLzma2Eos s))

/-- C2.RAWD (R274). -/
def execC2Rawd (uncM1 : BitVec 16) (s : State) : Outcome := settle s (.ok () (c2Rawd (uncSizeOf uncM1) s))

/-- C2.RAW (R275). -/
def execC2Raw (uncM1 : BitVec 16) (s : State) : Outcome :=
  settle s (.ok () (rawEnter (loadUnc (uncSizeOf uncM1) s)))

/-- C2.LZMA0 (R277). -/
def execC2Lzma0 (uncM1 : BitVec 21) (compM1 : BitVec 16) (s : State) : Outcome :=
  settle s (c2Lzma0 uncM1 compM1 s)

/-- C2.LZMA1 (R278). -/
def execC2Lzma1 (uncM1 : BitVec 21) (compM1 : BitVec 16) (s : State) : Outcome :=
  settle s (c2Lzma1 uncM1 compM1 s)

/-- C2.LZMA2 (R279). -/
def execC2Lzma2 (uncM1 : BitVec 21) (compM1 : BitVec 16) (prop : Byte) (s : State) : Outcome :=
  settle s (c2Lzma2 uncM1 compM1 prop s)

/-- C2.LZMA3 (R280). -/
def execC2Lzma3 (uncM1 : BitVec 21) (compM1 : BitVec 16) (prop : Byte) (s : State) : Outcome :=
  settle s (c2Lzma3 uncM1 compM1 prop s)

/-- C2.ILL (R283). -/
def execC2Ill (c : Byte) (s : State) : Outcome :=
  settle s (raise .ctrl03to7F (c.setWidth 32) s)

/-- RAWCOPY (R276). -/
def execRawCopy (s : State) : Outcome := settle s (rawCopy s)

/-- CHUNKEND (R282). -/
def execChunkEnd (s : State) : Outcome := settle s (chunkEnd s)

end Sys2Proof.Machine
end

