-- ==== Sys2Proof/Machine/Window.lean ====
section
/-! DEFINITION. The window primitives as instructions of their own (44_window.md); their operations stand in
Ops.lean. -/
namespace Sys2Proof.Machine

/-- WIN.INIT (R220). -/
def execWinInit (size : Word) (s : State) : Outcome := settle s (.ok () (winInit size s))

/-- WIN.PUT (R221). -/
def execWinPut (b : Byte) (s : State) : Outcome := settle s (winPut b s)

/-- WIN.GET (R222). -/
def execWinGet (dist : Nat) (s : State) : Outcome := settleRet s .byte (winGet dist s)

/-- WIN.CHK (R223). -/
def execWinChk (dist : Nat) (s : State) : Outcome :=
  settleRet s .truth (.ok (winReaches s.win dist) s)

/-- WIN.COPY (R224). -/
def execWinCopy (dist length : Nat) (s : State) : Outcome := settle s (winCopy dist length s)

/-- WIN.EMPTY (R225). -/
def execWinEmpty (s : State) : Outcome := settleRet s .truth (.ok (winIsEmpty s.win) s)

/-- WIN.HASPENDING (R226). -/
def execWinHasPending (s : State) : Outcome :=
  settleRet s .truth (.ok (decide (0 < s.win.pending)) s)

/-- WIN.DRAIN (R227); with nothing pending it is not enabled and nothing happens (log entry 33). -/
def execWinDrain (s : State) : Outcome := settle s (winDrain s)

/-- WIN.RESET (R228): performed only when nothing is pending; until then CORE is held on SNK
(20_memory.md R62 (c)). -/
def execWinReset (s : State) : Outcome :=
  if s.win.pending = 0 then settle s (.ok () (winReset s)) else .next (onHold .snk s)

end Sys2Proof.Machine
end

