-- ==== Sys2Proof/Machine/Dispatch.lean ====
section
/-! DEFINITION. One arm per operation: its meaning. -/
namespace Sys2Proof.Machine

def exec (i : Instr) (s : State) : Host.Outcome State Fault Refusal :=
  match i with
  | .c2Eos => Sys2Proof.Machine.execC2Eos s
  | .c2Rawd u => Sys2Proof.Machine.execC2Rawd u s
  | .c2Raw u => Sys2Proof.Machine.execC2Raw u s
  | .c2Lzma0 u c => Sys2Proof.Machine.execC2Lzma0 u c s
  | .c2Lzma1 u c => Sys2Proof.Machine.execC2Lzma1 u c s
  | .c2Lzma2 u c p => Sys2Proof.Machine.execC2Lzma2 u c p s
  | .c2Lzma3 u c p => Sys2Proof.Machine.execC2Lzma3 u c p s
  | .c2Ill c => Sys2Proof.Machine.execC2Ill c s
  | .hdr1 p d u => Sys2Proof.Machine.execHdr1 p d u s
  | .rcInit b c => Sys2Proof.Machine.execRcInit b c s
  | .propDec d => Sys2Proof.Machine.execPropDec d s
  | .lit => Sys2Proof.Machine.execLit s
  | .simpleMatch => Sys2Proof.Machine.execMatch s
  | .eos => Sys2Proof.Machine.execEos s
  | .srep => Sys2Proof.Machine.execSrep s
  | .rep0 => Sys2Proof.Machine.execRep0 s
  | .rep1 => Sys2Proof.Machine.execRep1 s
  | .rep2 => Sys2Proof.Machine.execRep2 s
  | .rep3 => Sys2Proof.Machine.execRep3 s
  | .cmdReset => Sys2Proof.Machine.execCmdReset s
  | .cmdStartLzma1 => Sys2Proof.Machine.execCmdStartLzma1 s
  | .cmdStartRaw p d sd u sh => Sys2Proof.Machine.execCmdStartRaw p d sd u sh s
  | .cmdStartLzma2 d => Sys2Proof.Machine.execCmdStartLzma2 d s
  | .cmdReopen sd u rs np p rd => Sys2Proof.Machine.execCmdReopen sd u rs np p rd s
  | .rcNorm => Sys2Proof.Machine.execRcNorm s
  | .rcBit t k => Sys2Proof.Machine.execRcBit t k s
  | .rcDirect n => Sys2Proof.Machine.execRcDirect n s
  | .rcFinok => Sys2Proof.Machine.execRcFinok s
  | .btDec t b n => Sys2Proof.Machine.execBtDec t b n s
  | .btRdec t b n => Sys2Proof.Machine.execBtRdec t b n s
  | .btReset t => Sys2Proof.Machine.execBtReset t s
  | .lenDec l ps => Sys2Proof.Machine.execLenDec l ps s
  | .lenReset l => Sys2Proof.Machine.execLenReset l s
  | .litDec ls => Sys2Proof.Machine.execLitDec ls s
  | .litDecm ls mb => Sys2Proof.Machine.execLitDecm ls mb s
  | .distDec n => Sys2Proof.Machine.execDistDec n s
  | .smReset => Sys2Proof.Machine.execSmReset s
  | .chkBack => Sys2Proof.Machine.execChkBack s
  | .copy n => Sys2Proof.Machine.execCopy n s
  | .winInit size => Sys2Proof.Machine.execWinInit size s
  | .winPut b => Sys2Proof.Machine.execWinPut b s
  | .winGet dist => Sys2Proof.Machine.execWinGet dist s
  | .winChk dist => Sys2Proof.Machine.execWinChk dist s
  | .winCopy dist len => Sys2Proof.Machine.execWinCopy dist len s
  | .winEmpty => Sys2Proof.Machine.execWinEmpty s
  | .winHasPending => Sys2Proof.Machine.execWinHasPending s
  | .winDrain => Sys2Proof.Machine.execWinDrain s
  | .winReset => Sys2Proof.Machine.execWinReset s
  | .rawCopy => Sys2Proof.Machine.execRawCopy s
  | .chunkEnd => Sys2Proof.Machine.execChunkEnd s
  | .construct lc lp pb ds sd u sh => Sys2Proof.Machine.execConstruct lc lp pb ds sd u sh s

end Sys2Proof.Machine
end

