-- ==== Sys2Proof/Machine/Run.lean ====
section
/-! DEFINITION. The moves of the agents (00_scope.md R2): what CORE does next in each phase, what SNK and
HOST do, and how a turn is taken. -/
namespace Sys2Proof.Machine

/-! ### CORE -/

/-- The operation fetched from `s` (which leads to `s1`) is executed. Held at a pull inside it, CORE is where
it was before the fetch (70_reset_and_hazards.md R349; log entry 2). -/
def afterExec (s : State) (o : Outcome) : Outcome :=
  match o with
  | .next t => if t.env.hold.atPull then .next (holdAtPull s) else .next t
  | .fault f => .fault f
  | .refused r => .refused r

/-- Execute what the fetch found. -/
def execFetched (s : State) (r : Res Instr) : Outcome :=
  match r with
  | .ok i t => afterExec s (exec i t)
  | .raised t => .next t
  | .held => .next (holdAtPull s)
  | .bad f => .fault f

/-- Phase RUN with nothing pending: step 1 of a pass, then the operation the next bits select
(43_state_machine.md R185, R186). -/
def runPass (s : State) : Outcome :=
  if sizeDone s && finOk s then settle s (stop .endSize s) else execFetched s (fetchSymbol s)

/-- One move of CORE when nothing waits. -/
def corePhase (s : State) : Outcome :=
  match s.phase with
  | .idle => .next (onHold .host s)
  | .hdr1 => execFetched s (fetchHdr1 s)
  | .rcinit => execFetched s (fetchPrologue s)
  | .run => if s.win.pending = 0 then runPass s else .next (onHold .snk s)
  | .c2ctrl => execFetched s (fetchChunk s)
  | .c2hdr => execFetched s (fetchC2Rest s.c2.ctrl s)
  | .c2raw => afterExec s (exec .rawCopy s)
  | .done => .next (onHold .host s)
  | .fault => .next (onHold .host s)

/-- One move of CORE. An operation that waits for `win.pending == 0` goes on as soon as that holds
(70_reset_and_hazards.md R347). -/
def coreTurn (s : State) : Outcome :=
  let s := onHold .none s
  match s.wait with
  | some w => if s.win.pending = 0 then .next (resume w s) else .next (onHold .snk s)
  | none => corePhase s

/-! ### SNK -/

/-- Give SNK the end or error indication of the run (45_lzma1_reader.md R247, 60_exceptions.md R304). -/
def indicate (x : OutItem) (s : State) : State :=
  let s := snkPush x s
  s.withEnv { s.env with indGiven := true }

/-- SNK accepts while a fault has ended the run: `DRAIN_ON_FAULT` says how many pending bytes come before
the error indication (60_exceptions.md R306); with `any` a free value decides, log entry 7. -/
def faultTurn (s : State) : Outcome :=
  if s.env.indGiven then .next s
  else if s.win.pending = 0 then .next (indicate .error s)
  else
    match s.par.drainOnFault with
    | .nothing => .next (indicate .error s)
    | .all => settle s (winDrain s)
    | .any =>
      let t := s.withFree (s.free + 1)
      if Config.freeDeliver s.free then settle t (winDrain t) else .next (indicate .error t)

/-- The run ended cleanly, every byte is delivered, and SNK has not been told (45_lzma1_reader.md R247).
While CMD.REOPEN waits, the indication of the previous stream is not given (70_reset_and_hazards.md
R352). -/
def endDue (s : State) : Bool := s.phase == .done && !s.env.indGiven && s.wait.isNone

/-- SNK accepts: the oldest pending byte, or the indication that is due (20_memory.md R61). -/
def snkTurn (s : State) : Outcome :=
  if s.phase = .fault then faultTurn s
  else if 0 < s.win.pending then settle s (winDrain s)
  else if endDue s then .next (indicate .endOfStream s)
  else .next s

/-- Something stands ready for SNK. -/
def snkOffered (s : State) : Bool :=
  if s.phase = .fault then !s.env.indGiven else decide (0 < s.win.pending) || endDue s

/-! ### SRC and HOST -/

/-- SRC answers (20_memory.md R58). -/
def srcTurn (a : SrcAnswer) (s : State) : State := s.withEnv { s.env with src := s.env.src ++ [a] }

/-- HOST issues a command; a transaction that is no command is not one (log entry 21). -/
def commandTurn (w : HostWord) (s : State) : Outcome :=
  match decodeHost w with
  | .ok i => exec i s
  | .error _ => .next s

/-- HOST reads `STATUS`: no side effect on the hardware (45_lzma1_reader.md R249). -/
def readTurn (s : State) : State := s.withEnv { s.env with hostRead := some (statusView s) }

/-- HOST attaches an SRC, only between runs (70_reset_and_hazards.md R343, R352); in a run, which an accepted
CMD.REOPEN has begun also while it waits, it has no such move (45_lzma1_reader.md R240: SRC is the one
attached when the command is issued; log entries 1, 16). -/
def attachTurn (answers : List SrcAnswer) (s : State) : State :=
  if betweenRuns s then s.withEnv { s.env with src := answers } else s

/-! ### Turns -/

/-- One move of one agent. -/
def takeTurn (t : Turn) (s : State) : Outcome :=
  match t with
  | .core => coreTurn s
  | .snk => snkTurn s
  | .src a => .next (srcTurn a s)
  | .command w => commandTurn w s
  | .readStatus => .next (readTurn s)
  | .attach a => .next (attachTurn a s)

/-- The move when none is listed: SNK, if it takes what is offered and something is; else CORE. -/
def freeTurn (s : State) : Turn := if s.env.autoSnk && snkOffered s then .snk else .core

/-- The next move, and the state once it is off the list (log entry 1). -/
def nextTurn (s : State) : Turn × State :=
  match s.env.turns with
  | [] => (freeTurn s, s)
  | t :: ts => (t, s.withEnv { s.env with turns := ts })

/-- The next move is made. -/
def stepTurn (s : State) : Outcome :=
  let p := nextTurn s
  takeTurn p.1 p.2

/-! ### Placing an operation where the next step fetches it (log entry 19) -/

/-- `s` made to stand where CORE's next move reads the format of a table word: the phase, the mode, nothing
waiting, the words as the next answers of SRC, and CORE's turn next. -/
def placeWord (f : Format) (bs : List Byte) (s : State) : State :=
  let s := (s.withWait none).withEnv
    { s.env with src := bs.map .byte ++ s.env.src, turns := .core :: s.env.turns }
  match f with
  | .hdr1 => (s.withMode .lzma1).withPhase .hdr1
  | .prologue => (s.withMode .lzma1).withPhase .rcinit
  | _ => (s.withMode .lzma2).withPhase .c2ctrl

end Sys2Proof.Machine
end

