-- ==== Sys2Proof/Machine/Step.lean ====
section
/-! DEFINITION. The step of the machine, and an operation placed where the step fetches it. -/
namespace Sys2Proof.Machine

/-- One step: the next move of one agent (00_scope.md R2, R3). -/
def step (s : State) : Host.Outcome State Fault Refusal := stepTurn s

/-- `s` with the operation of a word of spec/opcode_table.json where the next step fetches it. -/
def State.withFetchWord (s : State) (nbits w : Nat) : State :=
  placeWord (tableFormat nbits w) (tableBytes nbits w) s

end Sys2Proof.Machine
end

