-- ==== Sys2Proof/Safety.lean ====
section
/-! DEFINITION. The terms claims are stated in: decisions of the range decoder and the slots they are made
on, what a source supplies, what a copy writes, and the invariants of the machine. -/
namespace Sys2Proof.Machine

/-! ### Decisions

A decision is one RC.BIT on a slot, or one iteration of RC.DIRECT (30_encoding.md R94, R100). -/

/-- One decision and the bit it decodes. -/
inductive Decision where
  | slot (t : Table) (i : Nat) (b : Bool)
  | direct (b : Bool)
deriving DecidableEq, Repr

/-- The state after the listed decisions, if in `s` the range decoder takes exactly these. -/
def decides : List Decision → State → Option State
  | [], s => some s
  | .slot t i b :: ds, s =>
    match rcBit t i s with
    | .ok c s1 => if c = b then decides ds s1 else none
    | _ => none
  | .direct b :: ds, s =>
    match rcDirectBit s with
    | .ok c s1 => if c = b then decides ds s1 else none
    | _ => none

/-- A walk down a tree from node `m`: after bit `b` node `m` gives way to `2m + b`
(41_bittree_length.md R143). -/
def treePath (t : Table) (base : Nat) : Nat → List Bool → List Decision
  | _, [] => []
  | m, b :: bs => .slot t (base + m) b :: treePath t base (2 * m + b.toNat) bs

/-- The number whose bits these are, most significant first. -/
def msbValue (bs : List Bool) : Nat := bs.foldl (fun v b => 2 * v + b.toNat) 0

/-- The number whose bits these are, least significant first. -/
def lsbValue : List Bool → Nat
  | [] => 0
  | b :: bs => b.toNat + 2 * lsbValue bs

/-- The decisions of the length index `n` on instance `l` (41_bittree_length.md R144). -/
def lenPath (l : LenInst) (ps : BitVec 4) (n : Nat) : List Decision :=
  if n < 8 then .slot (.choice l) 0 false :: treePath (.low l ps) 0 1 (msbBits 3 n)
  else if n < 16 then
    .slot (.choice l) 0 true :: .slot (.choice2 l) 0 false ::
      treePath (.mid l ps) 0 1 (msbBits 3 (n - 8))
  else
    .slot (.choice l) 0 true :: .slot (.choice2 l) 0 true ::
      treePath (.high l) 0 1 (msbBits 8 (n - 16))

/-- The decisions of the 0-based distance `d` after the length index `n` (42_literal_distance.md R165). -/
def distPath (n : Nat) (d : Word) : List Decision :=
  let slot := slotOf d.toNat
  let nd := slotDirectBits slot
  let base := (slotBase slot).toNat
  let off := d.toNat - base
  treePath (.posSlot (BitVec.ofNat 2 (min n 3))) 0 1 (msbBits 6 slot) ++
    if slot < 4 then []
    else if slot < 14 then treePath .posDec (base - slot) 1 (lsbBits nd off)
    else (msbBits (nd - 4) (off / 16)).map .direct ++ treePath .align 0 1 (lsbBits 4 (off % 16))

/-- The decisions of the literal byte `b` in sub-table `ls` (42_literal_distance.md R162). -/
def litPath (ls : Nat) (b : Byte) : List Decision := treePath .lit (0x300 * ls) 1 (msbBits 8 b.toNat)

/-- The decisions of a literal whose bits are listed beside the bits of the match byte, from node `m`; the
match byte counts while `same` (42_literal_distance.md R163). -/
def matchedPath (base : Nat) : Bool → Nat → List (Bool × Bool) → List Decision
  | _, _, [] => []
  | true, m, (x, b) :: r =>
    .slot .lit (base + 0x100 * (1 + x.toNat) + m) b :: matchedPath base (b == x) (2 * m + b.toNat) r
  | false, m, (_, b) :: r => .slot .lit (base + m) b :: matchedPath base false (2 * m + b.toNat) r

/-- The decisions of the literal byte `b` conditioned on the match byte `mb`. -/
def litmPath (ls : Nat) (mb b : Byte) : List Decision :=
  matchedPath (0x300 * ls) true 1 ((msbBits 8 mb.toNat).zip (msbBits 8 b.toNat))

/-- The decisions of a prefix made in FSM state `s0` with position state `ps` (30_encoding.md R94,
43_state_machine.md R193). -/
def prefixPath (s0 ps : BitVec 4) : Instr → List Decision
  | .lit => [.slot .isMatch (16 * s0.toNat + ps.toNat) false]
  | .simpleMatch => [.slot .isMatch (16 * s0.toNat + ps.toNat) true, .slot .isRep s0.toNat false]
  | i =>
    [.slot .isMatch (16 * s0.toNat + ps.toNat) true, .slot .isRep s0.toNat true] ++
    (match i with
      | .srep => [.slot .isRepG0 s0.toNat false, .slot .isRep0Long (16 * s0.toNat + ps.toNat) false]
      | .rep0 => [.slot .isRepG0 s0.toNat false, .slot .isRep0Long (16 * s0.toNat + ps.toNat) true]
      | .rep1 => [.slot .isRepG0 s0.toNat true, .slot .isRepG1 s0.toNat false]
      | .rep2 =>
        [.slot .isRepG0 s0.toNat true, .slot .isRepG1 s0.toNat true, .slot .isRepG2 s0.toNat false]
      | _ =>
        [.slot .isRepG0 s0.toNat true, .slot .isRepG1 s0.toNat true, .slot .isRepG2 s0.toNat true])

/-- The slot a decision is made on, as the key of the probability store. -/
def Decision.key : Decision → Option Nat
  | .slot t i _ => some (tableBase t + i)
  | .direct _ => none

/-! ### Input -/

/-- SRC's next `n` answers are bytes, and a chunk limit, if active, leaves room for `n` pulls. -/
def feeds (n : Nat) (s : State) : Bool :=
  decide (n ≤ s.env.src.length)
    && (s.env.src.take n).all (fun a => match a with
        | .byte _ => true
        | _ => false)
    && (!limitActive s || decide (n ≤ s.c2.compLeft.toNat))

/-! ### Window -/

/-- The cell the `k`-th byte from now is stored to. -/
def cellAfter (w : Win) (k : Nat) : Nat := (w.pos.toNat + k) % w.size.toNat

/-- `w'` is `w` after `n` WIN.PUTs, whichever bytes they wrote: the counters moved on, the size is kept,
and every cell not stored to reads as before (44_window.md R221). -/
def advanced (w w' : Win) (n : Nat) : Prop :=
  w'.size = w.size ∧ w'.allocated = w.allocated ∧
  w'.pos.toNat = (w.pos.toNat + n) % w.size.toNat ∧
  w'.isFull = (w.isFull || decide (w.size.toNat ≤ w.pos.toNat + n)) ∧
  w'.pending = w.pending + n ∧ w'.totalPos = w.totalPos + n ∧
  ∀ a, (∀ k < n, a ≠ cellAfter w k) → cellGet w'.buf a = cellGet w.buf a

/-- `w'` is `w` after a copy of `n` bytes from distance `dist`, byte by byte: the `k`-th byte is the one
`dist` back, an old byte while `k < dist` and then one the copy itself wrote (44_window.md R224). -/
def copied (w w' : Win) (dist n : Nat) : Prop :=
  advanced w w' n ∧
  ∀ k < n,
    cellGet w'.buf (cellAfter w k) =
      if k < dist then cellGet w.buf (winCell w (dist - k))
      else cellGet w'.buf (cellAfter w (k - dist))

/-- The pending bytes, oldest first (44_window.md R227). -/
def pendingBytes (w : Win) : List (Option Byte) :=
  (List.range w.pending).map fun k => cellGet w.buf (winCell w (w.pending - k))

/-! ### Registers a rule sets as a group -/

/-- `st.*` after SM.RESET (43_state_machine.md R202). -/
def zeroFsm : Fsm := { state := 0#4, rep0 := 0#32, rep1 := 0#32, rep2 := 0#32, rep3 := 0#32 }

/-- The window after WIN.INIT (44_window.md R220). -/
def emptyWin (size : Word) : Win :=
  { buf := [], size := size, pos := 0#32, isFull := false, pending := 0, totalPos := 0, allocated := true }

/-- The window after WIN.RESET (44_window.md R228). -/
def rewound (w : Win) : Win := { w with pos := 0#32, isFull := false, pending := 0, totalPos := 0 }

/-- The three cleared fields of `STATUS`. -/
def clearStatus : Status := { kind := .none, cause := .none, info := 0#32 }

/-- `cfg` for the property byte `d` (30_encoding.md R84). -/
def propsCfg (d : Byte) (ds : Word) : Cfg :=
  { lc := BitVec.ofNat 4 (d.toNat % 9), lp := BitVec.ofNat 3 (d.toNat / 9 % 5)
    pb := BitVec.ofNat 3 (d.toNat / 9 / 5), dictSize := ds }

/-- A property byte this hardware takes (30_encoding.md R84, R85). -/
def propsLegal (cap : Nat) (d : Byte) : Prop := d.toNat < 225 ∧ d.toNat % 9 + d.toNat / 9 % 5 ≤ cap

/-- The dictionary size `max(d, 4096)` (30_encoding.md R86). -/
def dictOf (d : Word) : Word := if d < 4096#32 then 4096#32 else d

/-- CORE makes the next move and the turns `ts` come after it: its turn is listed, or none is and SNK does not
take what is offered (log entry 1). -/
def coreMoves (ts : List Turn) (s : State) : Prop :=
  s.env.turns = .core :: ts ∨ s.env.turns = [] ∧ ts = [] ∧ (s.env.autoSnk && snkOffered s) = false

/-- SNK makes the next move and the turns `ts` come after it (log entry 1). -/
def snkMoves (ts : List Turn) (s : State) : Prop :=
  s.env.turns = .snk :: ts ∨ s.env.turns = [] ∧ ts = [] ∧ (s.env.autoSnk && snkOffered s) = true

/-- The state CORE's move starts from when the turns `ts` come after it. -/
def atTurn (ts : List Turn) (s : State) : State :=
  { s with env := { s.env with turns := ts, hold := .none } }

/-- `s` after `n` pulls that leave SRC with `rest` (20_memory.md R59). -/
def afterPulls (n : Nat) (rest : List SrcAnswer) (s : State) : State :=
  { s with
    inCount := s.inCount + n
    c2 := if limitActive s then { s.c2 with compLeft := s.c2.compLeft - BitVec.ofNat 17 n } else s.c2
    env := { s.env with src := rest } }

/-- `s` once a rule has raised (60_exceptions.md R304). -/
def faulted (k : Kind) (c : Cause) (info : Word) (s : State) : State :=
  { s with status := { kind := k, cause := c, info := info }, phase := .fault }

/-- A property byte that is refused, and the cause (30_encoding.md R84, R85). -/
def propsRefused (cap : Nat) (d : Byte) (c : Cause) : Prop :=
  225 ≤ d.toNat ∧ c = .propsGe225 ∨
  d.toNat < 225 ∧ cap < d.toNat % 9 + d.toNat / 9 % 5 ∧ c = .propsUnsupported

/-! ### Pulls that fail -/

/-- What a pull that meets the end of input raises in each phase (20_memory.md R59). -/
def endFault (s : State) : Kind × Cause :=
  match s.phase with
  | .hdr1 => (.corruptedStream, .headerShort)
  | .rcinit => (.corruptedStream, .prologueShort)
  | .c2hdr => (.corruptedStream, .chunkHeaderShort)
  | .run =>
    if s.sizeDefined = true ∧ s.rem = 0#64 then (.resultError, .eofAtFinish)
    else (.ioError, .unexpectedEof)
  | _ => (.ioError, .unexpectedEof)

/-- `s` after a pull to which SRC answered no byte: the chunk limit has counted it, `inCount` has not. -/
def afterAnswer (rest : List SrcAnswer) (s : State) : State :=
  { afterPulls 1 rest s with inCount := s.inCount }

/-- A pull from `s` fails, and `t` is the state once it has raised: at the chunk limit, before SRC is asked; at
the end of input; on an error of SRC, whose value goes to `STATUS.info` (20_memory.md R59). -/
def pullFails (s t : State) : Prop :=
  limitActive s = true ∧ s.c2.compLeft = 0#17 ∧
    t = (if s.phase = .rcinit then faulted .corruptedStream .prologueShort 0#32 s
      else faulted .resultError .chunkInputOverrun 0#32 s) ∨
  (limitActive s = true → s.c2.compLeft ≠ 0#17) ∧ ∃ rest,
    s.env.src = .eof :: rest ∧ t = faulted (endFault s).1 (endFault s).2 0#32 (afterAnswer rest s) ∨
    ∃ e, s.env.src = .err e :: rest ∧ t = faulted .ioError .sourceError e (afterAnswer rest s)

/-- The decision `d` is made in `s`, the pull of its normalisation fails, and `t` is the state once that has
raised. -/
def decisionFails (d : Decision) (s t : State) : Prop :=
  match d with
  | .slot T i _ => rcBit T i s = .raised t
  | .direct _ => rcDirectBit s = .raised t

/-- From `s` the first `k` of the decisions `ds` are made, the next one fails, and `t` is the state once it has
raised (70_reset_and_hazards.md R349: an operation can end so at each pull). -/
def failsAfter (k : Nat) (ds : List Decision) (s t : State) : Prop :=
  ∃ d u, ds[k]? = some d ∧ decides (ds.take k) s = some u ∧ decisionFails d u t

/-- The decisions by which LIT decodes the byte `b` in `s`: plain, or conditioned on the byte `rep0 + 1` back,
in the sub-table of the position and the byte before (42_literal_distance.md R160 to R164). -/
def litDecisions (s : State) (b : Byte) (ds : List Decision) : Prop :=
  ∃ prev : Byte,
    ((s.win.pos = 0#32 ∧ s.win.isFull = false) ∧ prev = 0#8 ∨
      ¬(s.win.pos = 0#32 ∧ s.win.isFull = false) ∧ cellGet s.win.buf (winCell s.win 1) = some prev) ∧
    let ls := s.win.totalPos % 2 ^ s.cfg.lp.toNat * 2 ^ s.cfg.lc.toNat +
      prev.toNat / 2 ^ (8 - s.cfg.lc.toNat)
    (s.st.state < 7#4 ∧ ds = litPath ls b ∨
      7#4 ≤ s.st.state ∧ s.st.rep0.toNat + 1 ≤ winValid s.win ∧
        ∃ mb, cellGet s.win.buf (winCell s.win (s.st.rep0.toNat + 1)) = some mb ∧ ds = litmPath ls mb b)

/-! ### Invariants -/

/-- An allocated window (10_state.md R26, R32; 44_window.md R229): the size is legal, the cursor is inside,
every cell a distance can reach has been written, what is pending is reachable, the contents are in
canonical form. -/
structure WinOk (w : Win) : Prop where
  allocated : w.allocated = true
  size : 4096#32 ≤ w.size
  cursor : w.pos < w.size
  cells : Memory.wf w.buf = true
  inside : ∀ c ∈ w.buf, c.1 < w.size.toNat
  written : ∀ d, 1 ≤ d → d ≤ winValid w → (cellGet w.buf (winCell w d)).isSome = true
  pending : w.pending ≤ winValid w

/-- A window and a dictionary size that fit each other, and legal properties: what the operations of the main
loop need of the state (10_state.md R18, R19, R26). -/
structure Ready (s : State) : Prop where
  window : WinOk s.win
  dict : s.cfg.dictSize = s.win.size
  lc : s.cfg.lc ≤ 8#4
  lp : s.cfg.lp ≤ 4#3
  pb : s.cfg.pb ≤ 4#3
  fsm : s.st.state < 12#4

/-- The phase tells the mode, and the mode and phase tell what has been set up (45_lzma1_reader.md,
46_lzma2_demux.md). -/
structure PhaseOk (s : State) : Prop where
  idle : s.phase = .idle ↔ s.mode = .none
  hdr1 : s.phase = .hdr1 → s.mode = .lzma1
  c2 : s.phase = .c2ctrl ∨ s.phase = .c2hdr ∨ s.phase = .c2raw → s.mode = .lzma2
  window : s.phase = .rcinit ∨ s.phase = .run ∨ s.phase = .c2ctrl ∨ s.phase = .c2hdr ∨
    s.phase = .c2raw ∨ s.phase = .done → s.win.allocated = true
  decoder : s.mode = .lzma2 → s.phase = .rcinit ∨ s.phase = .run →
    s.c2.haveDecoder = true ∧ s.sizeDefined = true
  raw : s.phase = .c2raw → 1 ≤ s.c2.rawLeft.toNat ∧ s.c2.rawLeft.toNat ≤ 65536
  hdr : s.phase = .c2hdr → s.wait = some .rawd ∨ s.wait = some .lzma3
  rawd : s.wait = some .rawd →
    s.phase = .c2hdr ∧ 1 ≤ s.c2.uncSize.toNat ∧ s.c2.uncSize.toNat ≤ 65536
  lzma3 : s.wait = some .lzma3 → s.phase = .c2hdr ∧ s.c2.haveDecoder = true
  reopen : ∀ sd u, s.wait = some (.reopen sd u) →
    s.phase = .done ∧ (s.mode = .lzma1 ∨ s.mode = .raw)

/-- `STATUS` belongs to the phase (60_exceptions.md R301, R302; 45_lzma1_reader.md R249): the kind is that of
the cause, a fault shows a fault, a clean end an end, and otherwise all three fields are clear. -/
structure StatusOk (s : State) : Prop where
  kind : s.status.kind = causeKind s.status.cause
  fault : s.phase = .fault → s.status.kind ≠ .none ∧ s.status.kind ≠ .endOk
  done : s.phase = .done → s.wait = none → s.status.kind = .endOk ∧ s.status.info = 0#32
  clear : s.phase ≠ .fault → (s.phase = .done → s.wait ≠ none) →
    s.status.cause = .none ∧ s.status.info = 0#32

/-- The invariant of the machine. -/
structure Inv (s : State) : Prop where
  window : s.win.allocated = true → WinOk s.win ∧ s.cfg.dictSize = s.win.size
  bare : s.win.allocated = false → s.win = State.reset.win
  lc : s.cfg.lc ≤ 8#4
  lp : s.cfg.lp ≤ 4#3
  pb : s.cfg.pb ≤ 4#3
  fsm : s.st.state < 12#4
  probs : ProbMem.wf s.prob = true
  slots : ∀ c ∈ s.prob, 31#11 ≤ c.2 ∧ c.2 ≤ 2017#11
  phase : PhaseOk s
  status : StatusOk s

/-- The invariant of the range decoder between passes (10_state.md R10, R32; 40_range_decoder.md R131). -/
def RcOk (s : State) : Prop :=
  s.phase = .run → s.rc.corrupted = false → s.rc.code < s.rc.range ∧ Config.top ≤ s.rc.range

/-- A safe state: the next step is a next state, no modelling fault and no refusal. -/
def Safe (s : State) : Prop := ∃ t, step s = .next t

end Sys2Proof.Machine
end

