-- ==== Sys2Proof/Certificates/Slice0/Obligations.lean ====
section
/-! DEFINITION. The statements for the provers. Each docstring names the rule of spec/ it formalises; the
next state is written out from the rule, field by field, and whatever a record update does not name is
unchanged. -/

open Sys2Proof Sys2Proof.Machine

/-! ### Encoding -/

/-- Every well-formed operation that has words is decoded from them, with every operand (30_encoding.md
R81, R82, R88 to R98, R103). -/
def Obligations.EncodeThenDecode : Prop :=
  ∀ (i : Instr) (f : Format) (w : Words),
    i.wf = true → encode i = some (f, w) → decode f w = .ok i

/-- A symbol code with its fields is decoded from its bits, whatever bits follow: every literal, every length
index 0..271, every distance of 32 bits (30_encoding.md R94 to R98; 42_literal_distance.md R165). -/
def Obligations.SymbolCodesRoundTrip : Prop :=
  ∀ (c : SymCode) (rest : List Bool),
    c.wf = true → decodeSym (encodeSym c ++ rest) = some (c, rest)

/-- The worked header examples of 30_encoding.md section 5 and 95_test_vectors.md L1.1, L2.1, as words. -/
def Obligations.WordsOfTheSpecDecode : Prop :=
  decodeC2 [0x00#8] = .ok (.c2Eos, []) ∧
  decodeC2 [0x01#8, 0x00#8, 0x01#8] = .ok (.c2Rawd 1#16, []) ∧
  decodeC2 [0x02#8, 0xFF#8, 0xFF#8] = .ok (.c2Raw 0xFFFF#16, []) ∧
  decodeC2 [0x80#8, 0x00#8, 0x03#8, 0x00#8, 0x06#8] = .ok (.c2Lzma0 3#21 6#16, []) ∧
  decodeC2 [0xC0#8, 0x00#8, 0x04#8, 0x00#8, 0x06#8, 0x5D#8] = .ok (.c2Lzma2 4#21 6#16 0x5D#8, []) ∧
  decodeC2 [0xFF#8, 0xFF#8, 0xFF#8, 0xFF#8, 0xFF#8, 0xE0#8] =
    .ok (.c2Lzma3 0x1FFFFF#21 0xFFFF#16 0xE0#8, []) ∧
  decodeC2 [0x7F#8] = .ok (.c2Ill 0x7F#8, []) ∧
  decode .hdr1 (.bytes [0x5D#8, 0x00#8, 0x00#8, 0x10#8, 0x00#8, 0xFF#8, 0xFF#8, 0xFF#8, 0xFF#8, 0xFF#8,
    0xFF#8, 0xFF#8, 0xFF#8]) = .ok (.hdr1 0x5D#8 0x00100000#32 0xFFFFFFFFFFFFFFFF#64) ∧
  decode .prologue (.bytes [0x00#8, 0x83#8, 0xFF#8, 0xFB#8, 0xFF#8]) =
    .ok (.rcInit 0#8 0x83FFFBFF#32) ∧
  decode .sym (.bits [true, true, true, true, false]) = .ok .rep2

/-- Exactly one class applies to every control byte, and each class has the header of its length and layout
(46_lzma2_demux.md R272; 30_encoding.md R88 to R91, whose numbering of the sub-kinds and byte order are taken from
general knowledge: log entry 26). -/
def Obligations.ControlByteClasses : Prop :=
  ∀ (c x1 x2 x3 x4 x5 : Byte) (rest : List Byte),
    (c = 0x00#8 → decodeC2 (c :: rest) = .ok (.c2Eos, rest)) ∧
    (c = 0x01#8 → ∃ u : BitVec 16, u.toNat = x1.toNat * 256 + x2.toNat ∧
      decodeC2 (c :: x1 :: x2 :: rest) = .ok (.c2Rawd u, rest)) ∧
    (c = 0x02#8 → ∃ u : BitVec 16, u.toNat = x1.toNat * 256 + x2.toNat ∧
      decodeC2 (c :: x1 :: x2 :: rest) = .ok (.c2Raw u, rest)) ∧
    (0x03#8 ≤ c → c ≤ 0x7F#8 → decodeC2 (c :: rest) = .ok (.c2Ill c, rest)) ∧
    (0x80#8 ≤ c → ∃ (u : BitVec 21) (v : BitVec 16),
      u.toNat = c.toNat % 32 * 65536 + x1.toNat * 256 + x2.toNat ∧ v.toNat = x3.toNat * 256 + x4.toNat ∧
      (c.toNat / 32 % 4 = 0 →
        decodeC2 (c :: x1 :: x2 :: x3 :: x4 :: rest) = .ok (.c2Lzma0 u v, rest)) ∧
      (c.toNat / 32 % 4 = 1 →
        decodeC2 (c :: x1 :: x2 :: x3 :: x4 :: rest) = .ok (.c2Lzma1 u v, rest)) ∧
      (c.toNat / 32 % 4 = 2 →
        decodeC2 (c :: x1 :: x2 :: x3 :: x4 :: x5 :: rest) = .ok (.c2Lzma2 u v x5, rest)) ∧
      (c.toNat / 32 % 4 = 3 →
        decodeC2 (c :: x1 :: x2 :: x3 :: x4 :: x5 :: rest) = .ok (.c2Lzma3 u v x5, rest)))

/-- The LZMA1 header: a property byte, then two little-endian fields (30_encoding.md R81). -/
def Obligations.HeaderFields : Prop :=
  ∀ p d0 d1 d2 d3 u0 u1 u2 u3 u4 u5 u6 u7 : Byte, ∃ (d : Word) (u : BitVec 64),
    d.toNat = d0.toNat + d1.toNat * 2 ^ 8 + d2.toNat * 2 ^ 16 + d3.toNat * 2 ^ 24 ∧
    u.toNat = u0.toNat + u1.toNat * 2 ^ 8 + u2.toNat * 2 ^ 16 + u3.toNat * 2 ^ 24 + u4.toNat * 2 ^ 32 +
      u5.toNat * 2 ^ 40 + u6.toNat * 2 ^ 48 + u7.toNat * 2 ^ 56 ∧
    decode .hdr1 (.bytes [p, d0, d1, d2, d3, u0, u1, u2, u3, u4, u5, u6, u7]) = .ok (.hdr1 p d u)

/-! ### Reset and the invariants -/

/-- What 10_state.md R30 (first column) and 70_reset_and_hazards.md R340 give for power-on, and that a move
of CORE does nothing there: it waits for HOST. -/
def Obligations.PowerOn : Prop :=
  State.reset.phase = .idle ∧ State.reset.mode = .none ∧
  State.reset.status = { kind := .none, cause := .none, info := 0#32 } ∧
  State.reset.rc.corrupted = false ∧ State.reset.inCount = 0 ∧ State.reset.win.pending = 0 ∧
  State.reset.c2.haveDecoder = false ∧ State.reset.win.buf = [] ∧
  step State.reset = .next { State.reset with env := { State.reset.env with hold := .host } }

/-- The invariants hold at power-on. -/
def Obligations.PowerOnMeetsTheInvariants : Prop := Inv State.reset ∧ RcOk State.reset

/-- Every step keeps the invariant: the window's (44_window.md R229), the legal FSM states, properties and
slot values (10_state.md R13, R18, R22, R32), what each phase presupposes (70_reset_and_hazards.md R341)
and what `STATUS` shows (60_exceptions.md R302, 45_lzma1_reader.md R249). -/
def Obligations.StepKeepsTheInvariant : Prop := ∀ s t : State, Inv s → step s = .next t → Inv t

/-- No step leaves the spec: from a state that meets the invariant no window read leaves what was written
(44_window.md R229) and no slot index leaves its table (20_memory.md R54), whatever the input. -/
def Obligations.StepsNeverStop : Prop := ∀ s : State, Inv s → Safe s

/-- Between passes `code < range` and `range >= 2^24` while `rc.corrupted = 0` (10_state.md R10, R32;
40_range_decoder.md R131). -/
def Obligations.RangeDecoderStaysNormal : Prop :=
  ∀ s t : State, Inv s → RcOk s → step s = .next t → RcOk t

/-- A fault is left by a START command or CMD.RESET only, and until then `STATUS` is what the fault wrote
(60_exceptions.md R311, R312). -/
def Obligations.FaultIsFinal : Prop :=
  ∀ s t : State, Inv s → s.phase = .fault → step s = .next t →
    (∀ w ts, s.env.turns = .command w :: ts → w.code = 4 ∨ 5 ≤ w.code) →
    t.phase = .fault ∧ t.status = s.status ∧ t.inCount = s.inCount

/-- IN is consumed in order and each byte once, and what SNK has received is only added to
(20_memory.md R60, R61): a move of CORE that does not end in a fault takes some bytes off the front of
what SRC answers and counts them; no step takes anything back from OUT. What SRC answers comes behind, and
HOST attaches another SRC between runs only (70_reset_and_hazards.md R343, R352; log entries 1, 16). -/
def Obligations.PortsKeepOrder : Prop :=
  ∀ s t : State, step s = .next t →
    s.env.out <+: t.env.out ∧
    (∀ ts, coreMoves ts s → t.phase ≠ .fault →
      ∃ bs : List Byte, s.env.src = bs.map .byte ++ t.env.src ∧ t.inCount = s.inCount + bs.length) ∧
    (∀ a ts, s.env.turns = .src a :: ts → t.env.src = s.env.src ++ [a] ∧ t.inCount = s.inCount) ∧
    (∀ answers ts, s.env.turns = .attach answers :: ts →
      t = { s with env := { s.env with
        turns := ts
        src := if (s.phase = .idle ∨ s.phase = .done ∨ s.phase = .fault) ∧ s.wait = none then answers
          else s.env.src } })

/-- HOST reads `STATUS`: the kind and cause numbers of 60_exceptions.md R301 and R302, `info`, the live
`rc.corrupted`, `busy` unless the phase is IDLE, DONE or FAULT; nothing else changes (10_state.md R20,
45_lzma1_reader.md R249). -/
def Obligations.StatusRead : Prop :=
  ∀ (s : State) (ts : List Turn), s.env.turns = .readStatus :: ts →
    ∃ v, step s = .next { s with env := { s.env with turns := ts, hostRead := some v } } ∧
      v.info = s.status.info ∧ v.corrupted = s.rc.corrupted ∧
      (v.busy = false ↔ s.phase = .idle ∨ s.phase = .done ∨ s.phase = .fault) ∧
      (∀ k n, (k, n) ∈ [(Kind.none, 0#4), (.endOk, 1#4), (.corruptedStream, 2#4),
          (.incorrectProperties, 3#4), (.dictSizeOutOfRange, 4#4), (.resultError, 5#4),
          (.unexpectedChunkCode, 6#4), (.ioError, 7#4)] → s.status.kind = k → v.kind = n) ∧
      (∀ c n, (c, n) ∈ [(Cause.none, 0x00#8), (.endSize, 0x01#8), (.endMarker, 0x02#8),
          (.endLzma2Eos, 0x03#8), (.headerShort, 0x10#8), (.prologueShort, 0x11#8),
          (.chunkHeaderShort, 0x12#8), (.propsGe225, 0x20#8), (.propsUnsupported, 0x21#8),
          (.dictTooLarge, 0x28#8), (.sizeExhausted, 0x30#8), (.badMarker, 0x31#8),
          (.sizeNotReached, 0x32#8), (.badDistance, 0x33#8), (.repEmptyWindow, 0x34#8),
          (.lenOverrun, 0x35#8), (.eofAtFinish, 0x36#8), (.noProperties, 0x37#8),
          (.chunkInputOverrun, 0x38#8), (.chunkInputLeft, 0x39#8), (.ctrl03to7F, 0x40#8),
          (.unexpectedEof, 0x50#8), (.sourceError, 0x51#8)] → s.status.cause = c → v.cause = n)

/-! ### The step and the fetch -/

/-- A move of CORE in a phase that reads a header runs the operation its bytes decode to, from the state in
which they have been pulled (46_lzma2_demux.md R271, 45_lzma1_reader.md R242, 40_range_decoder.md R120).
A pull that fails after the bytes `bs` of a header ends the step in its fault, the bytes before it consumed
(20_memory.md R59; 46_lzma2_demux.md R290); a prologue cut short leaves `rc.range` and `rc.code` open. -/
def Obligations.StepRunsTheFetchedHeader : Prop :=
  ∀ (s : State) (ts : List Turn) (bs : List Byte) (rest : List SrcAnswer),
    coreMoves ts s → s.wait = none → s.env.src = bs.map .byte ++ rest →
    let pulled := afterPulls bs.length rest (atTurn ts s)
    let inHeader := { pulled with phase := .c2hdr, c2 := { s.c2 with ctrl := bs.headD 0#8 } }
    (∀ i : Instr,
      (s.phase = .c2ctrl → decode .c2 (.bytes bs) = .ok i → step s = exec i inHeader) ∧
      (s.phase = .hdr1 → decode .hdr1 (.bytes bs) = .ok i → step s = exec i pulled) ∧
      (s.phase = .rcinit → (limitActive s = true → 5 ≤ s.c2.compLeft.toNat) →
        decode .prologue (.bytes bs) = .ok i → step s = exec i pulled)) ∧
    ∀ t : State,
      (s.phase = .c2ctrl → bs = [] → pullFails pulled t → step s = .next t) ∧
      (∀ c more, s.phase = .c2ctrl → bs = c :: more →
        more.length < (if c = 1#8 ∨ c = 2#8 then 2 else if 0xC0#8 ≤ c then 5
          else if 0x80#8 ≤ c then 4 else 0) →
        pullFails inHeader t → step s = .next t) ∧
      (s.phase = .hdr1 → bs.length < 13 → pullFails pulled t → step s = .next t) ∧
      (s.phase = .rcinit → bs.length < 5 → (limitActive s = true → bs.length ≤ s.c2.compLeft.toNat) →
        pullFails pulled t → ∃ range code free,
          step s = .next { t with
            rc := { range := range, code := code, corrupted := s.rc.corrupted }, free := free })

/-- A move of CORE in phase RUN with nothing pending runs the operation the next decisions select, one in
phase C2RAW runs RAWCOPY. A prefix that raises ends the step so: by a pre-check, or at a pull that fails after some
of its decisions. Held at a pull inside the prefix or the operation, CORE is where it was, waiting for SRC, and the
answers it has pulled are recorded as its own (43_state_machine.md R185, R193; 46_lzma2_demux.md R276;
20_memory.md R59; 70_reset_and_hazards.md R349; the record is the model's, log entry 2). -/
def Obligations.StepRunsTheOperation : Prop :=
  ∀ (s : State) (ts : List Turn), coreMoves ts s → s.wait = none →
    let held := { s with env := { s.env with turns := ts, hold := .src s.env.src.length } }
    let pass := s.phase = .run ∧ s.win.pending = 0 ∧
      ¬(s.sizeDefined = true ∧ s.rem = 0#64 ∧ s.rc.code = 0#32)
    (∀ (i : Instr) (u : State),
      pass ∧ fetchSymbol (atTurn ts s) = .ok i u ∨ s.phase = .c2raw ∧ i = .rawCopy ∧ u = atTurn ts s →
      (∀ t, exec i u = .next t → (∀ n, t.env.hold ≠ .src n) → step s = .next t) ∧
      (∀ t n, exec i u = .next t → t.env.hold = .src n → step s = .next held) ∧
      (∀ f, exec i u = .fault f → step s = .fault f)) ∧
    (pass →
      (∀ t, fetchSymbol (atTurn ts s) = .raised t → step s = .next t) ∧
      (fetchSymbol (atTurn ts s) = .held → step s = .next held) ∧
      (∀ f, fetchSymbol (atTurn ts s) = .bad f → step s = .fault f) ∧
      ∀ i k t, i ∈ [Instr.lit, .simpleMatch, .srep, .rep0, .rep1, .rep2, .rep3] →
        (2 ≤ k → ¬(s.win.pos = 0#32 ∧ s.win.isFull = false) ∧ ¬(s.sizeDefined = true ∧ s.rem = 0#64)) →
        failsAfter k (prefixPath s.st.state (posState s) i) (atTurn ts s) t → step s = .next t)

/-- A command of HOST is run as the operation its number decodes to (30_encoding.md R103,
45_lzma1_reader.md R240); a number that is no command changes nothing (log entry 21). -/
def Obligations.StepRunsTheCommand : Prop :=
  ∀ (s : State) (ts : List Turn) (w : HostWord),
    s.env.turns = .command w :: ts →
    (∀ i, decode .host (.port w) = .ok i → step s = exec i { s with env := { s.env with turns := ts } }) ∧
    (5 ≤ w.code → step s = .next { s with env := { s.env with turns := ts } })

/-- The prefix of decoded bits selects the operation, on the slots of 43_state_machine.md R187, R189, R193;
before `isRepG0` the rep family fails on an empty window, then on an exhausted size. -/
def Obligations.PrefixSelectsTheOperation : Prop :=
  ∀ s t : State,
    (∀ i, i ∈ [Instr.lit, .simpleMatch, .srep, .rep0, .rep1, .rep2, .rep3] →
      (i ∈ [Instr.srep, .rep0, .rep1, .rep2, .rep3] →
        ¬(s.win.pos = 0#32 ∧ s.win.isFull = false) ∧ ¬(s.sizeDefined = true ∧ s.rem = 0#64)) →
      decides (prefixPath s.st.state (posState s) i) s = some t → fetchSymbol s = .ok i t) ∧
    (decides ((prefixPath s.st.state (posState s) .srep).take 2) s = some t →
      (s.win.pos = 0#32 ∧ s.win.isFull = false →
        fetchSymbol s = .raised (faulted .resultError .repEmptyWindow 0#32 t)) ∧
      (¬(s.win.pos = 0#32 ∧ s.win.isFull = false) → s.sizeDefined = true → s.rem = 0#64 →
        fetchSymbol s = .raised (faulted .resultError .sizeExhausted 0#32 t)))

/-- Step 1 of a pass: declared size reached and a clean finish stop the loop before anything is decoded
(43_state_machine.md R185, R186). -/
def Obligations.StopAtDeclaredSize : Prop :=
  ∀ (s : State) (ts : List Turn),
    coreMoves ts s → s.wait = none → s.phase = .run → s.win.pending = 0 →
    s.sizeDefined = true → s.rem = 0#64 → s.rc.code = 0#32 →
    (s.mode ≠ .lzma2 → step s = .next { atTurn ts s with
      status := { kind := .endOk, cause := .endSize, info := 0#32 }, phase := .done }) ∧
    (s.mode = .lzma2 → step s = exec .chunkEnd (atTurn ts s))

/-! ### The range decoder -/

/-- RC.INIT (40_range_decoder.md R120). -/
def Obligations.RcInit : Prop :=
  ∀ (b0 : Byte) (code : Word) (s : State),
    exec (.rcInit b0 code) s = .next { s with
      rc := { range := 0xFFFFFFFF#32, code := code
              corrupted := decide (b0 ≠ 0#8) || decide (code = 0xFFFFFFFF#32) }
      phase := .run }

/-- RC.NORM: one byte at most, and none when `range >= 2^24`; when the pull fails, `range` and `code` keep
their values and the fault of the context is raised (40_range_decoder.md R121, 20_memory.md R59,
46_lzma2_demux.md R289). (In a phase in which no rule pulls the cause is the model's: log entry 27.) -/
def Obligations.RcNorm : Prop :=
  ∀ s : State,
    (0x01000000#32 ≤ s.rc.range → exec .rcNorm s = .next s) ∧
    (∀ b rest, s.rc.range < 0x01000000#32 → s.env.src = .byte b :: rest →
      (limitActive s = true → s.c2.compLeft ≠ 0#17) →
      exec .rcNorm s = .next { afterPulls 1 rest s with
        rc := { range := s.rc.range <<< 8, code := s.rc.code <<< 8 ||| b.setWidth 32
                corrupted := s.rc.corrupted } }) ∧
    (∀ t, s.rc.range < 0x01000000#32 → pullFails s t → exec .rcNorm s = .next t)

/-- RC.BIT: the decoded bit, the slot it adapts and no other slot, `range` and `code`, then RC.NORM; nothing
else changes but what a pull counts. When the pull fails the slot, `range` and `code` are those before the
shift (40_range_decoder.md R122, R126; 20_memory.md R54, R59). -/
def Obligations.RcBit : Prop :=
  ∀ (T : Table) (i : Nat) (s : State), i < tableSize s.cfg T →
    let p := (probAt s T i).toNat
    let bound := (s.rc.range >>> 11) * BitVec.ofNat 32 p
    let bit := decide (¬ s.rc.code < bound)
    let range := if bit then s.rc.range - bound else bound
    let code := if bit then s.rc.code - bound else s.rc.code
    ∃ prob : ProbMem, let u := { s with
        rc := { range := range, code := code, corrupted := s.rc.corrupted }, prob := prob }
      (probAt u T i).toNat = (if bit then p - p / 32 else p + (2048 - p) / 32) ∧
      (∀ T' j, j < tableSize s.cfg T' → (T', j) ≠ (T, i) → probAt u T' j = probAt s T' j) ∧
      (0x01000000#32 ≤ range → exec (.rcBit T i) s = .next { u with ret := .bit bit }) ∧
      (∀ b rest, range < 0x01000000#32 → s.env.src = .byte b :: rest →
        (limitActive s = true → s.c2.compLeft ≠ 0#17) →
        exec (.rcBit T i) s = .next { afterPulls 1 rest u with
          rc := { range := range <<< 8, code := code <<< 8 ||| b.setWidth 32
                  corrupted := s.rc.corrupted }
          ret := .bit bit }) ∧
      ∀ t, range < 0x01000000#32 → pullFails u t → exec (.rcBit T i) s = .next t

/-- RC.DIRECT: one iteration halves, conditionally subtracts, tests for `code == range` and normalises; when that
cannot pull, `range`, `code` and `corrupted` are those before the shift, and nothing is answered. `n` iterations
answer their bits, the first the most significant, complete when the input lasts, and raise where one of them does
(40_range_decoder.md R121, R123; 20_memory.md R59). -/
def Obligations.RcDirect : Prop :=
  ∀ s : State,
    (let range := s.rc.range >>> 1
     let bit := decide (range ≤ s.rc.code)
     let code := if bit then s.rc.code - range else s.rc.code
     let corrupted := s.rc.corrupted || decide (code = range)
     (0x01000000#32 ≤ range →
       exec (.rcDirect 1) s = .next { s with
         rc := { range := range, code := code, corrupted := corrupted }
         ret := .word (BitVec.ofNat 32 bit.toNat) }) ∧
     (range < 0x01000000#32 → ∀ b rest, s.env.src = .byte b :: rest →
       (limitActive s = true → s.c2.compLeft ≠ 0#17) →
       exec (.rcDirect 1) s = .next { afterPulls 1 rest s with
         rc := { range := range <<< 8, code := code <<< 8 ||| b.setWidth 32, corrupted := corrupted }
         ret := .word (BitVec.ofNat 32 bit.toNat) }) ∧
     ∀ t, range < 0x01000000#32 →
       pullFails { s with rc := { range := range, code := code, corrupted := corrupted } } t →
       exec (.rcDirect 1) s = .next t) ∧
    ∀ n : Nat,
      (∀ (bs : List Bool) (t : State), bs.length = n → decides (bs.map .direct) s = some t →
        exec (.rcDirect n) s = .next { t with ret := .word (BitVec.ofNat 32 (msbValue bs)) }) ∧
      (feeds n s = true →
        ∃ (bs : List Bool) (t : State), bs.length = n ∧ decides (bs.map .direct) s = some t) ∧
      ∀ (bs : List Bool) (k : Nat) (t : State), bs.length = n → failsAfter k (bs.map .direct) s t →
        exec (.rcDirect n) s = .next t

/-- The tests: RC.FINOK (40_range_decoder.md R124), WIN.CHK, WIN.EMPTY, WIN.HASPENDING (44_window.md R223,
R225, R226) answer and write nothing. (The answer stands in the model's field `ret`: log entry 10.) -/
def Obligations.TestsOnlyRead : Prop :=
  ∀ (s : State) (dist : Nat),
    exec .rcFinok s = .next { s with ret := .truth (decide (s.rc.code = 0#32)) } ∧
    exec (.winChk dist) s =
      .next { s with ret := .truth (decide (dist ≤ s.win.pos.toNat) || s.win.isFull) } ∧
    exec .winEmpty s =
      .next { s with ret := .truth (decide (s.win.pos = 0#32) && !s.win.isFull) } ∧
    exec .winHasPending s = .next { s with ret := .truth (decide (s.win.pending > 0)) }

/-- A run of decisions writes `rc`, the slots it is made on, and what its pulls count (`inCount` and, inside a
limited chunk, `c2.compLeft`); it pulls at most one byte a decision. So the operations, with the decisions they make, pull at most LIT 9, SREP 4, MATCH 48,
REP0 and REP1 14, REP2 and REP3 15 bytes (40_range_decoder.md R121 to R123, R132; 30_encoding.md R100). -/
def Obligations.DecisionsFrame : Prop :=
  (∀ (ds : List Decision) (s t : State), decides ds s = some t →
    (∀ k, (∀ d ∈ ds, d.key ≠ some k) → slotGet t.prob k = slotGet s.prob k) ∧
    ∃ bs : List Byte, bs.length ≤ ds.length ∧ s.env.src = bs.map .byte ++ t.env.src ∧
      (limitActive s = true → bs.length ≤ s.c2.compLeft.toNat) ∧
      t = { afterPulls bs.length t.env.src s with rc := t.rc, prob := t.prob }) ∧
  ∀ (s0 ps : BitVec 4) (l : LenInst) (ls n : Nat) (d : Word) (mb b : Byte), n ≤ 271 →
    (prefixPath s0 ps .lit ++ litPath ls b).length = 9 ∧
    (prefixPath s0 ps .lit ++ litmPath ls mb b).length = 9 ∧
    (prefixPath s0 ps .srep).length = 4 ∧
    (prefixPath s0 ps .simpleMatch ++ lenPath l ps n ++ distPath n d).length ≤ 48 ∧
    (prefixPath s0 ps .rep0 ++ lenPath l ps n).length ≤ 14 ∧
    (prefixPath s0 ps .rep1 ++ lenPath l ps n).length ≤ 14 ∧
    (prefixPath s0 ps .rep2 ++ lenPath l ps n).length ≤ 15 ∧
    (prefixPath s0 ps .rep3 ++ lenPath l ps n).length ≤ 15

/-! ### Trees, lengths, literals, distances -/

/-- BT.DEC and BT.RDEC: both walk the nodes `m = 1`, then `2m + bit`; BT.DEC reads the bits most significant
first, BT.RDEC least significant first (41_bittree_length.md R140, R141). -/
def Obligations.TreeWalks : Prop :=
  ∀ (T : Table) (base : Nat) (bs : List Bool) (s t : State),
    decides (treePath T base 1 bs) s = some t →
    exec (.btDec T base bs.length) s = .next { t with ret := .num (msbValue bs) } ∧
    exec (.btRdec T base bs.length) s = .next { t with ret := .num (lsbValue bs) }

/-- LEN.DEC: the decisions of the length index `n` answer `n` (41_bittree_length.md R144). -/
def Obligations.LenDec : Prop :=
  ∀ (l : LenInst) (ps : BitVec 4) (n : Nat) (s t : State), n ≤ 271 →
    decides (lenPath l ps n) s = some t → exec (.lenDec l ps) s = .next { t with ret := .num n }

/-- LIT.DEC and LIT.DECM: the decisions of the byte `b`, plain or conditioned on a match byte, answer `b`
(42_literal_distance.md R162, R163). -/
def Obligations.LiteralDecoders : Prop :=
  ∀ (ls : Nat) (mb b : Byte) (s t : State),
    (decides (litPath ls b) s = some t → exec (.litDec ls) s = .next { t with ret := .byte b }) ∧
    (decides (litmPath ls mb b) s = some t → exec (.litDecm ls mb) s = .next { t with ret := .byte b })

/-- DIST.DEC: the decisions of the distance `d` answer `d`, whatever the 32 bits (42_literal_distance.md
R165 to R169). -/
def Obligations.DistDec : Prop :=
  ∀ (n : Nat) (d : Word) (s t : State),
    decides (distPath n d) s = some t → exec (.distDec n) s = .next { t with ret := .word d }

/-- Every input decodes to something: with bytes enough and tables that hold the slots, the range decoder takes
the decisions of some value, so BT.DEC, BT.RDEC, LEN.DEC, LIT.DEC, LIT.DECM and DIST.DEC complete
(40_range_decoder.md R132; 41_bittree_length.md R140, R141, R144; 42_literal_distance.md R162 to R165). -/
def Obligations.DecodersComplete : Prop :=
  ∀ s : State,
    (∀ T base n, base + 2 ^ n ≤ tableSize s.cfg T → feeds n s = true →
      ∃ bs t, bs.length = n ∧ decides (treePath T base 1 bs) s = some t) ∧
    (∀ l ps, feeds 10 s = true → ∃ n t, n ≤ 271 ∧ decides (lenPath l ps n) s = some t) ∧
    (∀ ls, ls < 2 ^ (s.cfg.lc.toNat + s.cfg.lp.toNat) → feeds 8 s = true →
      (∃ b t, decides (litPath ls b) s = some t) ∧
      ∀ mb, ∃ b t, decides (litmPath ls mb b) s = some t) ∧
    (∀ n, feeds 36 s = true → ∃ d t, decides (distPath n d) s = some t)

/-- The resets: BT.RESET writes 1024 to every slot of its table, LEN.RESET to every slot of its instance,
SM.RESET to every slot there is and 0 to the FSM registers; every other slot and register keeps its
value (41_bittree_length.md R142, R145; 43_state_machine.md R202). (That SM.RESET writes 1024 also to literal slots
beyond the table in use is the model's: log entry 13; 93_implementation_defined.md U22.) -/
def Obligations.ProbabilityResets : Prop :=
  ∀ s : State,
    (∀ T, ∃ t, exec (.btReset T) s = .next t ∧ t = { s with prob := t.prob } ∧
      (∀ i, i < tableSize s.cfg T → probAt t T i = 1024#11) ∧
      ∀ T' i, T' ≠ T → i < tableSize s.cfg T' → probAt t T' i = probAt s T' i) ∧
    (∀ l, ∃ t, exec (.lenReset l) s = .next t ∧ t = { s with prob := t.prob } ∧
      ∀ T i, i < tableSize s.cfg T →
        probAt t T i =
          if T ∈ [.choice l, .choice2 l, .high l] ∨ (∃ ps, T = .low l ps ∨ T = .mid l ps) then 1024#11
          else probAt s T i) ∧
    ∃ t, exec .smReset s = .next t ∧ t = { s with st := zeroFsm, prob := t.prob } ∧
      ∀ T i, probAt t T i = 1024#11

/-! ### The window -/

/-- WIN.INIT, and WIN.RESET when nothing is pending; with bytes pending WIN.RESET waits for SNK and loses
none (44_window.md R220, R228; 20_memory.md R62 (c)). (That CORE waits for SNK is recorded in `env.hold`,
the model's own field: log entry 1.) -/
def Obligations.WindowResets : Prop :=
  ∀ (s : State) (size : Word),
    exec (.winInit size) s = .next { s with win := emptyWin size } ∧
    (s.win.pending = 0 → exec .winReset s = .next { s with win := rewound s.win }) ∧
    (s.win.pending ≠ 0 → exec .winReset s = .next { s with env := { s.env with hold := .snk } })

/-- WIN.PUT writes the cell at the cursor and no other, and moves the counters on (44_window.md R221). -/
def Obligations.WinPut : Prop :=
  ∀ (b : Byte) (s : State), s.win.pos < s.win.size →
    ∃ t, exec (.winPut b) s = .next t ∧ t = { s with win := t.win } ∧ advanced s.win t.win 1 ∧
      cellGet t.win.buf s.win.pos.toNat = some b

/-- WIN.GET reads the cell `dist` back and writes nothing (44_window.md R222, 20_memory.md R53); outside
what was written it is no behaviour of the hardware and the model stops by name. -/
def Obligations.WinGet : Prop :=
  ∀ (dist : Nat) (s : State),
    (WinOk s.win → 1 ≤ dist → dist ≤ (if s.win.isFull then s.win.size.toNat else s.win.pos.toNat) →
      ∃ b, cellGet s.win.buf (if dist ≤ s.win.pos.toNat then s.win.pos.toNat - dist
          else s.win.size.toNat - dist + s.win.pos.toNat) = some b ∧
        exec (.winGet dist) s = .next { s with ret := .byte b }) ∧
    (¬(1 ≤ dist ∧ dist ≤ (if s.win.isFull then s.win.size.toNat else s.win.pos.toNat)) →
      exec (.winGet dist) s = .fault .winGetRange)

/-- WIN.GET(d) answers the byte of the `d`-th most recent WIN.PUT: after one more WIN.PUT the new byte is at
distance 1 and every other one further on (44_window.md R229). -/
def Obligations.GetReturnsThePuts : Prop :=
  ∀ (b : Byte) (s t : State), WinOk s.win → exec (.winPut b) s = .next t →
    exec (.winGet 1) t = .next { t with ret := .byte b } ∧
    ∀ d x, 1 ≤ d → d + 1 ≤ winValid t.win → exec (.winGet d) s = .next { s with ret := .byte x } →
      exec (.winGet (d + 1)) t = .next { t with ret := .byte x }

/-- WIN.COPY: `length` bytes from `dist` back, one at a time, each written byte a source for the next
(44_window.md R224, 70_reset_and_hazards.md R344). -/
def Obligations.WinCopy : Prop :=
  ∀ (dist length : Nat) (s : State),
    WinOk s.win → 1 ≤ dist → dist ≤ winValid s.win → length ≤ 273 →
    ∃ t, exec (.winCopy dist length) s = .next t ∧ t = { s with win := t.win } ∧
      copied s.win t.win dist length

/-- WIN.DRAIN hands SNK the oldest pending byte; WIN.PUT queues behind the pending ones, so bytes are
delivered in the order they were written (44_window.md R227, 20_memory.md R61). When SNK moves, CORE's run
going on or cleanly ended, it gets the oldest pending byte; after the last one of a run that has ended, once,
the end-of-stream indication (45_lzma1_reader.md R247). After a fault it gets, once, the error indication,
before it no, every or some pending byte as `DRAIN_ON_FAULT` says (60_exceptions.md R304, R306). (SNK's move
and the record of the indication are the model's: log entries 1, 7, 18, 33.) -/
def Obligations.PendingBytesInOrder : Prop :=
  (∀ s : State, WinOk s.win →
    (∀ b t, s.win.pending < s.win.size.toNat → exec (.winPut b) s = .next t →
      pendingBytes t.win = pendingBytes s.win ++ [some b]) ∧
    (0 < s.win.pending → ∃ b, pendingBytes s.win =
        some b :: pendingBytes { s.win with pending := s.win.pending - 1 } ∧
      exec .winDrain s = .next { s with
        win := { s.win with pending := s.win.pending - 1 }
        env := { s.env with out := s.env.out ++ [.byte b] } }) ∧
    (s.win.pending = 0 → exec .winDrain s = .next s)) ∧
  ∀ (s : State) (ts : List Turn), snkMoves ts s →
    let u := { s with env := { s.env with turns := ts } }
    let told := fun x : OutItem => { u with
      env := { u.env with out := s.env.out ++ [x], indGiven := true } }
    (s.phase ≠ .fault → s.win.pending ≠ 0 → step s = exec .winDrain u) ∧
    (s.phase = .done → s.win.pending = 0 → s.wait = none →
      step s = .next (if s.env.indGiven then u else told .endOfStream)) ∧
    (s.phase = .fault → s.env.indGiven = true → step s = .next u) ∧
    (s.phase = .fault → s.env.indGiven = false →
      (s.win.pending = 0 ∨ s.par.drainOnFault = .nothing → step s = .next (told .error)) ∧
      (s.win.pending ≠ 0 → s.par.drainOnFault = .all → step s = exec .winDrain u) ∧
      (s.win.pending ≠ 0 → s.par.drainOnFault = .any →
        step s = exec .winDrain { u with free := s.free + 1 } ∨
        step s = .next { told .error with free := s.free + 1 }))

/-! ### The state machine -/

/-- CHK_BACK: passes without effect, or raises BAD_DISTANCE with `st.rep0` (43_state_machine.md R204). -/
def Obligations.ChkBack : Prop :=
  ∀ s : State,
    (s.st.rep0 < s.cfg.dictSize → s.st.rep0.toNat + 1 ≤ s.win.pos.toNat ∨ s.win.isFull = true →
      exec .chkBack s = .next s) ∧
    (¬(s.st.rep0 < s.cfg.dictSize ∧ (s.st.rep0.toNat + 1 ≤ s.win.pos.toNat ∨ s.win.isFull = true)) →
      exec .chkBack s = .next (faulted .resultError .badDistance s.st.rep0 s))

/-- COPY(n): `n + 2` bytes from distance `rep0 + 1`, and `rem` less by as many; when less remains, what
remains is copied and then LEN_OVERRUN raised with `rem = 0` (43_state_machine.md R200). -/
def Obligations.Copy : Prop :=
  ∀ (n : Nat) (s : State),
    WinOk s.win → n ≤ 271 → s.st.rep0.toNat + 1 ≤ winValid s.win →
    ((s.sizeDefined = true → n + 2 ≤ s.rem.toNat) →
      ∃ t, exec (.copy n) s = .next t ∧ copied s.win t.win (s.st.rep0.toNat + 1) (n + 2) ∧
        t = { s with
          win := t.win, rem := if s.sizeDefined then s.rem - BitVec.ofNat 64 (n + 2) else s.rem }) ∧
    (s.sizeDefined = true → s.rem.toNat < n + 2 →
      ∃ t, exec (.copy n) s = .next t ∧ copied s.win t.win (s.st.rep0.toNat + 1) s.rem.toNat ∧
        t = faulted .resultError .lenOverrun 0#32 { s with win := t.win, rem := 0#64 })

/-- LIT: the byte its decisions decode is written at the cursor, the state becomes `afterLiteral`, `rem`
loses 1; the rep registers stay (43_state_machine.md R181, R188; 42_literal_distance.md R160, R161,
R164). -/
def Obligations.Literal : Prop :=
  ∀ (s u : State) (prev b : Byte), Ready s → ¬(s.sizeDefined = true ∧ s.rem = 0#64) →
    ((s.win.pos = 0#32 ∧ s.win.isFull = false) ∧ prev = 0#8 ∨
      ¬(s.win.pos = 0#32 ∧ s.win.isFull = false) ∧ cellGet s.win.buf (winCell s.win 1) = some prev) →
    let ls := s.win.totalPos % 2 ^ s.cfg.lp.toNat * 2 ^ s.cfg.lc.toNat +
      prev.toNat / 2 ^ (8 - s.cfg.lc.toNat)
    (s.st.state < 7#4 ∧ decides (litPath ls b) s = some u ∨
      7#4 ≤ s.st.state ∧ s.st.rep0.toNat + 1 ≤ winValid s.win ∧
        ∃ mb, cellGet s.win.buf (winCell s.win (s.st.rep0.toNat + 1)) = some mb ∧
          decides (litmPath ls mb b) s = some u) →
    ∃ t, exec .lit s = .next t ∧ advanced s.win t.win 1 ∧
      cellGet t.win.buf s.win.pos.toNat = some b ∧
      t = { u with
        win := t.win
        st := { s.st with state :=
          if s.st.state.toNat < 4 then 0#4
          else if s.st.state.toNat < 10 then s.st.state - 3#4 else s.st.state - 6#4 }
        rem := if s.sizeDefined then s.rem - 1#64 else s.rem }

/-- SREP: the byte at distance `rep0 + 1` is appended (43_state_machine.md R184, R194). -/
def Obligations.ShortRep : Prop :=
  ∀ s : State, Ready s → s.st.rep0.toNat + 1 ≤ winValid s.win →
    ∃ t, exec .srep s = .next t ∧ copied s.win t.win (s.st.rep0.toNat + 1) 1 ∧
      t = { s with
        win := t.win
        st := { s.st with state := if s.st.state.toNat < 7 then 9#4 else 11#4 }
        rem := if s.sizeDefined then s.rem - 1#64 else s.rem }

/-- MATCH with length index `n` and 0-based distance `d`: the rep registers rotate and take `d`, the state
becomes `afterMatch`, `n + 2` bytes are copied from distance `d + 1` (43_state_machine.md R182, R190,
R192, R200). -/
def Obligations.Match : Prop :=
  ∀ (s u : State) (n : Nat) (d : Word), Ready s → n ≤ 271 →
    decides (lenPath .len (posState s) n ++ distPath n d) s = some u →
    d.toNat + 1 ≤ winValid s.win → (s.sizeDefined = true → n + 2 ≤ s.rem.toNat) →
    ∃ t, exec .simpleMatch s = .next t ∧ copied s.win t.win (d.toNat + 1) (n + 2) ∧
      t = { u with
        win := t.win
        st := { state := if s.st.state.toNat < 7 then 7#4 else 10#4
                rep0 := d, rep1 := s.st.rep0, rep2 := s.st.rep1, rep3 := s.st.rep2 }
        rem := if s.sizeDefined then s.rem - BitVec.ofNat 64 (n + 2) else s.rem }

/-- EOS: with a clean finish and no declared byte missing it stops the loop, in mode LZMA1 or RAW as
END_MARKER and in mode LZMA2 as CHUNKEND; else BAD_MARKER, then SIZE_NOT_REACHED. A MATCH whose distance
is 0xFFFFFFFF is EOS from the state with the registers rotated (43_state_machine.md R190, R191). -/
def Obligations.EndMarker : Prop :=
  (∀ s : State,
    (s.rc.code = 0#32 → (s.sizeDefined = true → s.rem = 0#64) →
      (s.mode ≠ .lzma2 → exec .eos s = .next { s with
        status := { kind := .endOk, cause := .endMarker, info := 0#32 }, phase := .done }) ∧
      (s.mode = .lzma2 → exec .eos s = exec .chunkEnd s)) ∧
    (s.rc.code ≠ 0#32 → exec .eos s = .next (faulted .resultError .badMarker 0#32 s)) ∧
    (s.rc.code = 0#32 → s.sizeDefined = true → s.rem ≠ 0#64 →
      exec .eos s = .next (faulted .resultError .sizeNotReached 0#32 s))) ∧
  (∀ (s u : State) (n : Nat), n ≤ 271 →
    decides (lenPath .len (posState s) n ++ distPath n 0xFFFFFFFF#32) s = some u →
    exec .simpleMatch s = exec .eos { u with
      st := { state := if s.st.state.toNat < 7 then 7#4 else 10#4
              rep0 := 0xFFFFFFFF#32, rep1 := s.st.rep0, rep2 := s.st.rep1, rep3 := s.st.rep2 } })

/-- REP0 to REP3 with length index `n`: the chosen register comes to the front, the state becomes `afterRep`,
`n + 2` bytes are copied from its distance (43_state_machine.md R183, R195 to R200). -/
def Obligations.RepMatches : Prop :=
  ∀ (s u : State) (n : Nat), Ready s → n ≤ 271 →
    decides (lenPath .repLen (posState s) n) s = some u → (s.sizeDefined = true → n + 2 ≤ s.rem.toNat) →
    let after := if s.st.state.toNat < 7 then 8#4 else 11#4
    let runs := fun (i : Instr) (r0 r1 r2 r3 : Word) => r0.toNat + 1 ≤ winValid s.win →
      ∃ t, exec i s = .next t ∧ copied s.win t.win (r0.toNat + 1) (n + 2) ∧
        t = { u with
          win := t.win, st := { state := after, rep0 := r0, rep1 := r1, rep2 := r2, rep3 := r3 }
          rem := if s.sizeDefined then s.rem - BitVec.ofNat 64 (n + 2) else s.rem }
    runs .rep0 s.st.rep0 s.st.rep1 s.st.rep2 s.st.rep3 ∧
    runs .rep1 s.st.rep1 s.st.rep0 s.st.rep2 s.st.rep3 ∧
    runs .rep2 s.st.rep2 s.st.rep0 s.st.rep1 s.st.rep3 ∧
    runs .rep3 s.st.rep3 s.st.rep0 s.st.rep1 s.st.rep2

/-- Where the operations of the main loop raise instead: LIT on an exhausted size; LIT in matched mode, SREP,
MATCH and the rep matches on a distance the window does not hold, nothing being written to the window; MATCH
and the rep matches when fewer bytes remain than their length, those being copied (43_state_machine.md R188,
R190, R192, R194, R199, R200, R204). And at a pull that fails after `k` of their decisions: LIT has written
nothing but what the decisions write; MATCH has rotated the rep registers, and its state is written once the length is
decoded; the rep matches have promoted theirs, and their state stays (41_bittree_length.md R140, 20_memory.md R59,
70_reset_and_hazards.md R349). -/
def Obligations.OperationsThatRaise : Prop :=
  (∀ s : State, s.sizeDefined = true → s.rem = 0#64 →
    exec .lit s = .next (faulted .resultError .sizeExhausted 0#32 s)) ∧
  (∀ s : State, Ready s → ¬ s.st.rep0.toNat + 1 ≤ winValid s.win →
    exec .srep s = .next (faulted .resultError .badDistance s.st.rep0 s) ∧
    (7#4 ≤ s.st.state → ¬(s.sizeDefined = true ∧ s.rem = 0#64) →
      exec .lit s = .next (faulted .resultError .badDistance s.st.rep0 s))) ∧
  (∀ (s u : State) (n : Nat), Ready s → n ≤ 271 →
    let raises := fun (i : Instr) (fsm : Fsm) =>
      (¬ fsm.rep0.toNat + 1 ≤ winValid s.win →
        exec i s = .next (faulted .resultError .badDistance fsm.rep0 { u with st := fsm })) ∧
      (fsm.rep0.toNat + 1 ≤ winValid s.win → s.sizeDefined = true → s.rem.toNat < n + 2 →
        ∃ t, exec i s = .next t ∧ copied s.win t.win (fsm.rep0.toNat + 1) s.rem.toNat ∧
          t = faulted .resultError .lenOverrun 0#32 { u with st := fsm, win := t.win, rem := 0#64 })
    (∀ d : Word, d ≠ 0xFFFFFFFF#32 →
      decides (lenPath .len (posState s) n ++ distPath n d) s = some u →
      raises .simpleMatch
        { state := if s.st.state.toNat < 7 then 7#4 else 10#4
          rep0 := d, rep1 := s.st.rep0, rep2 := s.st.rep1, rep3 := s.st.rep2 }) ∧
    (decides (lenPath .repLen (posState s) n) s = some u →
      let after := if s.st.state.toNat < 7 then 8#4 else 11#4
      raises .rep0 { s.st with state := after } ∧
      raises .rep1 { s.st with state := after, rep0 := s.st.rep1, rep1 := s.st.rep0 } ∧
      raises .rep2
        { s.st with state := after, rep0 := s.st.rep2, rep1 := s.st.rep0, rep2 := s.st.rep1 } ∧
      raises .rep3
        { state := after, rep0 := s.st.rep3, rep1 := s.st.rep0, rep2 := s.st.rep1, rep3 := s.st.rep2 })) ∧
  ∀ (s t : State) (k : Nat),
    (∀ (b : Byte) (ds : List Decision), Ready s → ¬(s.sizeDefined = true ∧ s.rem = 0#64) →
      litDecisions s b ds → failsAfter k ds s t → exec .lit s = .next t) ∧
    (∀ (n : Nat) (d : Word), n ≤ 271 →
      failsAfter k (lenPath .len (posState s) n ++ distPath n d) s t →
      exec .simpleMatch s = .next { t with st :=
        { state := if k < (lenPath .len (posState s) n).length then s.st.state
            else if s.st.state.toNat < 7 then 7#4 else 10#4
          rep0 := s.st.rep0, rep1 := s.st.rep0, rep2 := s.st.rep1, rep3 := s.st.rep2 } }) ∧
    ∀ n : Nat, n ≤ 271 → failsAfter k (lenPath .repLen (posState s) n) s t →
      exec .rep0 s = .next t ∧
      exec .rep1 s = .next { t with st := { s.st with rep0 := s.st.rep1, rep1 := s.st.rep0 } } ∧
      exec .rep2 s = .next { t with st :=
        { s.st with rep0 := s.st.rep2, rep1 := s.st.rep0, rep2 := s.st.rep1 } } ∧
      exec .rep3 s = .next { t with st :=
        { s.st with rep0 := s.st.rep3, rep1 := s.st.rep0, rep2 := s.st.rep1, rep3 := s.st.rep2 } }

/-! ### The LZMA1 driver and the commands -/

/-- PROP.DEC: `d = lc + 9*(lp + 5*pb)` taken apart, or IncorrectProperties (30_encoding.md R83 to R85). -/
def Obligations.PropDec : Prop :=
  ∀ (d : Byte) (s : State),
    (propsLegal s.par.litBitsCap d → ∃ (lc : BitVec 4) (lp pb : BitVec 3),
      exec (.propDec d) s = .next { s with ret := .props lc lp pb } ∧
      d.toNat = lc.toNat + 9 * (lp.toNat + 5 * pb.toNat) ∧ lc ≤ 8#4 ∧ lp ≤ 4#3 ∧ pb ≤ 4#3) ∧
    (225 ≤ d.toNat →
      exec (.propDec d) s = .next (faulted .incorrectProperties .propsGe225 (d.setWidth 32) s)) ∧
    (d.toNat < 225 → s.par.litBitsCap < d.toNat % 9 + d.toNat / 9 % 5 →
      exec (.propDec d) s = .next (faulted .incorrectProperties .propsUnsupported (d.setWidth 32) s))

/-- HDR1, its bytes pulled: properties, then dictionary size, then CONSTRUCT and phase RCINIT
(45_lzma1_reader.md R242, R243; 30_encoding.md R84 to R87). -/
def Obligations.Hdr1 : Prop :=
  ∀ (p : Byte) (d : Word) (u : BitVec 64) (s : State),
    (propsLegal s.par.litBitsCap p → dictOf d ≤ s.par.winCap →
      exec (.hdr1 p d u) s = .next { s with
        cfg := propsCfg p (dictOf d), win := emptyWin (dictOf d), st := zeroFsm, prob := []
        sizeDefined := decide (u ≠ 0xFFFFFFFFFFFFFFFF#64)
        rem := if u = 0xFFFFFFFFFFFFFFFF#64 then s.rem else u
        phase := .rcinit }) ∧
    (∀ c, propsRefused s.par.litBitsCap p c →
      exec (.hdr1 p d u) s = .next (faulted .incorrectProperties c (p.setWidth 32) s)) ∧
    (propsLegal s.par.litBitsCap p → s.par.winCap < dictOf d →
      exec (.hdr1 p d u) s = .next (faulted .dictSizeOutOfRange .dictTooLarge (dictOf d) s))

/-- CONSTRUCT (45_lzma1_reader.md R243). -/
def Obligations.Construct : Prop :=
  ∀ (lc : BitVec 4) (lp pb : BitVec 3) (ds : Word) (sd : Bool) (u : BitVec 64) (shared : Bool)
    (s : State),
    exec (.construct lc lp pb ds sd u shared) s = .next { s with
      cfg := { lc := lc, lp := lp, pb := pb, dictSize := if shared then s.cfg.dictSize else ds }
      win := if shared then s.win else emptyWin ds
      st := zeroFsm, prob := [], sizeDefined := sd, rem := if sd then u else s.rem }

/-- CMD.RESET: the registers 45_lzma1_reader.md R248 gives, in every phase; what SNK has received stands, the
parameters stay; what an operation held at a pull has pulled is consumed (20_memory.md R60; its record is the
model's, log entry 2). (The values of the registers R248 leaves unspecified are the model's: log entry 5.) -/
def Obligations.CmdReset : Prop :=
  ∀ s : State, ∃ t, exec .cmdReset s = .next t ∧
    t.phase = .idle ∧ t.mode = .none ∧ t.status = clearStatus ∧ t.rc.corrupted = false ∧ t.inCount = 0 ∧
    t.win.pending = 0 ∧ t.c2.haveDecoder = false ∧ t.win.allocated = false ∧ t.wait = none ∧
    t.env.out = s.env.out ∧ t.par = s.par ∧
    (∀ n, s.env.hold = .src n → t.env.src = s.env.src.drop (n + 1)) ∧
    ((∀ n, s.env.hold ≠ .src n) → t.env.src = s.env.src)

/-- CMD.START_LZMA1 and CMD.START_LZMA2 in phases IDLE, DONE and FAULT; a size above WIN_CAP is refused by
DICT_TOO_LARGE (45_lzma1_reader.md R241, R250; 46_lzma2_demux.md R270). -/
def Obligations.StartStreams : Prop :=
  ∀ (d : Word) (s : State), s.phase = .idle ∨ s.phase = .done ∨ s.phase = .fault →
    let begun := { s with
      status := clearStatus, inCount := 0, rc := { s.rc with corrupted := false }
      win := { s.win with pending := 0 }, c2 := { s.c2 with haveDecoder := false }, wait := none
      env := { s.env with hold := .none, indGiven := false } }
    exec .cmdStartLzma1 s = .next { begun with mode := .lzma1, phase := .hdr1 } ∧
    (dictOf d ≤ s.par.winCap →
      exec (.cmdStartLzma2 d) s = .next { begun with
        mode := .lzma2, cfg := { s.cfg with dictSize := dictOf d }, win := emptyWin (dictOf d)
        phase := .c2ctrl }) ∧
    (s.par.winCap < dictOf d →
      exec (.cmdStartLzma2 d) s =
        .next (faulted .dictSizeOutOfRange .dictTooLarge (dictOf d) { begun with mode := .lzma2 }))

/-- CMD.START_RAW in phases IDLE, DONE and FAULT, with a window of its own or the one of the run before;
properties are checked before the dictionary size, which only a window of its own has
(45_lzma1_reader.md R243, R244, R250; 30_encoding.md R84 to R86). -/
def Obligations.StartRaw : Prop :=
  ∀ (p : Byte) (d : Word) (sd : Bool) (u : BitVec 64) (s : State),
    s.phase = .idle ∨ s.phase = .done ∨ s.phase = .fault →
    let begun := { s with
      mode := .raw, status := clearStatus, inCount := 0, rc := { s.rc with corrupted := false }
      win := { s.win with pending := 0 }, c2 := { s.c2 with haveDecoder := false }, wait := none
      env := { s.env with hold := .none, indGiven := false } }
    let started := { begun with
      st := zeroFsm, prob := [], sizeDefined := sd, rem := if sd then u else s.rem, phase := .rcinit }
    (propsLegal s.par.litBitsCap p → dictOf d ≤ s.par.winCap →
      exec (.cmdStartRaw p d sd u false) s = .next { started with
        cfg := propsCfg p (dictOf d), win := emptyWin (dictOf d) }) ∧
    (propsLegal s.par.litBitsCap p → s.par.winCap < dictOf d →
      exec (.cmdStartRaw p d sd u false) s =
        .next (faulted .dictSizeOutOfRange .dictTooLarge (dictOf d) begun)) ∧
    (propsLegal s.par.litBitsCap p → s.win.allocated = true →
      exec (.cmdStartRaw p d sd u true) s = .next { started with cfg := propsCfg p s.cfg.dictSize }) ∧
    (∀ c shared, propsRefused s.par.litBitsCap p c → (shared = true → s.win.allocated = true) →
      exec (.cmdStartRaw p d sd u shared) s =
        .next (faulted .incorrectProperties c (p.setWidth 32) begun)) ∧
    (s.win.allocated = false → exec (.cmdStartRaw p d sd u true) s = .next s)

/-- CMD.REOPEN in phase DONE of modes LZMA1 and RAW: exactly the resets its flags ask for; with a dictionary
reset and bytes still pending all but the last two lines of the rule, and then CORE waits for SNK; a property
byte that is refused raises before any reset (45_lzma1_reader.md R245, R250; 30_encoding.md R84, R85). (The
record of the wait is the model's: log entry 17.) -/
def Obligations.Reopen : Prop :=
  ∀ (sd : Bool) (u : BitVec 64) (rs np : Bool) (p : Byte) (rd : Bool) (s : State),
    s.phase = .done → s.mode = .lzma1 ∨ s.mode = .raw →
    let begun := { s with
      status := clearStatus, inCount := 0, wait := none
      env := { s.env with hold := .none, indGiven := false } }
    let made := { begun with
      cfg := if np then propsCfg p s.cfg.dictSize else s.cfg
      st := if np || rs then zeroFsm else s.st, prob := if np || rs then [] else s.prob }
    ((np = true → propsLegal s.par.litBitsCap p) →
      ((rd = true → s.win.pending = 0) →
        exec (.cmdReopen sd u rs np p rd) s = .next { made with
          win := if rd then rewound s.win else s.win
          sizeDefined := sd, rem := if sd then u else s.rem, phase := .rcinit }) ∧
      (rd = true → s.win.pending ≠ 0 →
        exec (.cmdReopen sd u rs np p rd) s = .next { made with
          wait := some (.reopen sd u), env := { made.env with hold := .snk } })) ∧
    ∀ c, np = true → propsRefused s.par.litBitsCap p c →
      exec (.cmdReopen sd u rs np p rd) s =
        .next (faulted .incorrectProperties c (p.setWidth 32) begun)

/-- A command issued in a phase where it is not accepted changes nothing (45_lzma1_reader.md R250). -/
def Obligations.RefusedCommands : Prop :=
  ∀ s : State,
    (s.phase ≠ .idle → s.phase ≠ .done → s.phase ≠ .fault →
      exec .cmdStartLzma1 s = .next s ∧ (∀ d, exec (.cmdStartLzma2 d) s = .next s) ∧
      ∀ p d sd u sh, exec (.cmdStartRaw p d sd u sh) s = .next s) ∧
    (¬(s.phase = .done ∧ (s.mode = .lzma1 ∨ s.mode = .raw)) →
      ∀ sd u rs np p rd, exec (.cmdReopen sd u rs np p rd) s = .next s)

/-! ### The LZMA2 demultiplexer -/

/-- C2.EOS ends the run cleanly and changes nothing but `phase` and `STATUS`; C2.ILL raises with the control
byte and changes nothing else either (46_lzma2_demux.md R273, R283; 60_exceptions.md R303, R304). -/
def Obligations.EndAndIllegalChunks : Prop :=
  ∀ (c : Byte) (s : State),
    exec .c2Eos s = .next { s with
      status := { kind := .endOk, cause := .endLzma2Eos, info := 0#32 }, phase := .done } ∧
    exec (.c2Ill c) s = .next { s with
      status := { kind := .unexpectedChunkCode, cause := .ctrl03to7F, info := c.setWidth 32 }
      phase := .fault }

/-- C2.RAW and, with nothing pending, C2.RAWD, up to the first byte of RAWCOPY: the size is the stored one
plus 1, and only C2.RAWD resets the window (46_lzma2_demux.md R274 to R276; 30_encoding.md R90). -/
def Obligations.RawChunks : Prop :=
  ∀ (u : BitVec 16) (s : State),
    let opened := { s with
      c2 := { s.c2 with
        uncSize := BitVec.ofNat 22 (u.toNat + 1), rawLeft := BitVec.ofNat 17 (u.toNat + 1) }
      phase := .c2raw }
    exec (.c2Raw u) s = .next opened ∧
    (s.win.pending = 0 → exec (.c2Rawd u) s = .next { opened with win := rewound s.win })

/-- The reset of the dictionary waits until SNK has taken every pending byte, and then the operation goes on:
WIN.RESET, the last writes of its rule, and nothing else
(70_reset_and_hazards.md R347; 44_window.md R228; 46_lzma2_demux.md R274, R281; 45_lzma1_reader.md R245). (The records of the
wait and of whom CORE waits for are the model's: log entries 1, 17.) -/
def Obligations.DictionaryResetWaits : Prop :=
  (∀ (u : BitVec 16) (s : State), s.win.pending ≠ 0 →
    exec (.c2Rawd u) s = .next { s with
      c2 := { s.c2 with uncSize := BitVec.ofNat 22 (u.toNat + 1) }
      wait := some .rawd, env := { s.env with hold := .snk } }) ∧
  (∀ (s : State) (ts : List Turn) (w : Wait), coreMoves ts s → s.wait = some w →
    (s.win.pending ≠ 0 →
      step s = .next { s with env := { s.env with turns := ts, hold := .snk } }) ∧
    (s.win.pending = 0 →
      let reset := { atTurn ts s with win := rewound s.win, wait := none }
      (w = .rawd → step s = .next { reset with
        c2 := { s.c2 with rawLeft := s.c2.uncSize.setWidth 17 }, phase := .c2raw }) ∧
      (w = .lzma3 → step s = .next { reset with
        sizeDefined := true, rem := s.c2.uncSize.setWidth 64
        c2 := { s.c2 with compLeft := s.c2.compSize }, phase := .rcinit }) ∧
      ∀ sd u, w = .reopen sd u → step s = .next { reset with
        sizeDefined := sd, rem := if sd then u else s.rem, phase := .rcinit }))

/-- RAWCOPY: it begins by loading `c2.rawLeft`; then each move copies one byte of the input to the cursor
and counts it, the last one leads to phase C2CTRL; the range decoder, the probabilities and the FSM stay. A pull
that fails ends it in the fault of phase C2RAW, nothing written or counted (46_lzma2_demux.md R276, R287, R290;
20_memory.md R59). (One byte a move, and the record that CORE waits for SNK, are the model's: log
entries 1, 29.) -/
def Obligations.RawCopy : Prop :=
  ∀ s : State,
    (s.phase ≠ .c2raw → exec .rawCopy s = .next { s with
      c2 := { s.c2 with rawLeft := s.c2.uncSize.setWidth 17 }, phase := .c2raw }) ∧
    (s.phase = .c2raw → s.c2.rawLeft ≠ 0#17 → s.win.pos < s.win.size →
      (s.win.size.toNat ≤ s.win.pending →
        exec .rawCopy s = .next { s with env := { s.env with hold := .snk } }) ∧
      (∀ t, s.win.pending < s.win.size.toNat → pullFails s t → exec .rawCopy s = .next t) ∧
      ∀ b rest, s.win.pending < s.win.size.toNat → s.env.src = .byte b :: rest →
        ∃ t, exec .rawCopy s = .next t ∧ advanced s.win t.win 1 ∧
          cellGet t.win.buf s.win.pos.toNat = some b ∧
          t = { s with
            win := t.win, inCount := s.inCount + 1, env := { s.env with src := rest }
            c2 := { s.c2 with rawLeft := s.c2.rawLeft - 1#17 }
            phase := if s.c2.rawLeft = 1#17 then .c2ctrl else .c2raw })

/-- C2.LZMA0 and C2.LZMA1: sizes, `rem`, the chunk limit and phase RCINIT; C2.LZMA1 also resets the state;
without a decoder both raise NO_PROPERTIES (46_lzma2_demux.md R277, R278, R281). -/
def Obligations.LzmaChunksKeepingProperties : Prop :=
  ∀ (u : BitVec 21) (c : BitVec 16) (s : State),
    let sized := { s with
      c2 := { s.c2 with
        uncSize := BitVec.ofNat 22 (u.toNat + 1), compSize := BitVec.ofNat 17 (c.toNat + 1) } }
    let opened := { sized with
      sizeDefined := true, rem := BitVec.ofNat 64 (u.toNat + 1)
      c2 := { sized.c2 with compLeft := BitVec.ofNat 17 (c.toNat + 1) }, phase := .rcinit }
    (s.c2.haveDecoder = true →
      exec (.c2Lzma0 u c) s = .next opened ∧
      exec (.c2Lzma1 u c) s = .next { opened with st := zeroFsm, prob := [] }) ∧
    (s.c2.haveDecoder = false →
      exec (.c2Lzma0 u c) s = .next (faulted .resultError .noProperties 0#32 sized) ∧
      exec (.c2Lzma1 u c) s = .next (faulted .resultError .noProperties 0#32 sized))

/-- C2.LZMA2 and C2.LZMA3: new properties, state reset, a decoder exists from then on; C2.LZMA3 also resets
the window, and waits for that while bytes are pending; an illegal property byte is raised before any
reset (46_lzma2_demux.md R279 to R281, R284; 30_encoding.md R84, R85). (The record of the wait is the model's:
log entry 17.) -/
def Obligations.LzmaChunksWithProperties : Prop :=
  ∀ (u : BitVec 21) (c : BitVec 16) (p : Byte) (s : State),
    let sized := { s with
      c2 := { s.c2 with
        uncSize := BitVec.ofNat 22 (u.toNat + 1), compSize := BitVec.ofNat 17 (c.toNat + 1)
        prop := p } }
    let made := { sized with
      cfg := propsCfg p s.cfg.dictSize, st := zeroFsm, prob := []
      c2 := { sized.c2 with haveDecoder := true } }
    let opened := { made with
      sizeDefined := true, rem := BitVec.ofNat 64 (u.toNat + 1)
      c2 := { made.c2 with compLeft := BitVec.ofNat 17 (c.toNat + 1) }, phase := .rcinit }
    (propsLegal s.par.litBitsCap p →
      exec (.c2Lzma2 u c p) s = .next opened ∧
      (s.win.pending = 0 → exec (.c2Lzma3 u c p) s = .next { opened with win := rewound s.win }) ∧
      (s.win.pending ≠ 0 → exec (.c2Lzma3 u c p) s = .next { made with
        wait := some .lzma3, env := { s.env with hold := .snk } })) ∧
    (∀ e, propsRefused s.par.litBitsCap p e →
      exec (.c2Lzma2 u c p) s = .next (faulted .incorrectProperties e (p.setWidth 32) sized) ∧
      exec (.c2Lzma3 u c p) s = .next (faulted .incorrectProperties e (p.setWidth 32) sized))

/-- CHUNKEND: the next control byte is due, or input of the chunk is left over (46_lzma2_demux.md R282). -/
def Obligations.ChunkEnd : Prop :=
  ∀ s : State,
    (s.c2.compLeft = 0#17 → exec .chunkEnd s = .next { s with phase := .c2ctrl }) ∧
    (s.c2.compLeft ≠ 0#17 →
      exec .chunkEnd s =
        .next (faulted .resultError .chunkInputLeft (s.c2.compLeft.setWidth 32) s))

/-- The reset of a chunk's state leaves the decoder as CONSTRUCT on the shared window makes a fresh one with
the same properties: FSM, every probability, the properties and the window (46_lzma2_demux.md R291). -/
def Obligations.StateResetIsAFreshDecoder : Prop :=
  ∀ (u : BitVec 21) (c : BitVec 16) (ds : Word) (s t t' : State), s.c2.haveDecoder = true →
    exec (.c2Lzma1 u c) s = .next t →
    exec (.construct s.cfg.lc s.cfg.lp s.cfg.pb ds true (BitVec.ofNat 64 (u.toNat + 1)) true) s =
      .next t' →
    t.st = t'.st ∧ t.prob = t'.prob ∧ t.cfg = t'.cfg ∧ t.win = t'.win ∧ t.rem = t'.rem
end

