-- ==== Sys2Proof/Laws/Cells.lean ====
section
/-! SUPPORT. The laws of sparse memories: a read after a write, and that every operation keeps the canonical
form. -/
namespace Sys2Proof.Machine

/-! ### Read after write -/

/-- A read after a write to the same address gives the value written. -/
theorem cellGet_cellPut_same {α : Type} (m : List (Nat × α)) (a : Nat) (v : α) :
    cellGet (cellPut m a v) a = some v := by
  induction m with
  | nil => simp [cellPut, cellGet]
  | cons c r ih =>
    obtain ⟨k, w⟩ := c
    simp only [cellPut]
    split
    · simp [cellGet]
    · split
      · simp [cellGet]
      · have : k ≠ a := fun h => by omega
        simp [cellGet, this, ih]

/-- A write leaves every other address alone. -/
theorem cellGet_cellPut_other {α : Type} (m : List (Nat × α)) (a b : Nat) (v : α) (h : b ≠ a) :
    cellGet (cellPut m a v) b = cellGet m b := by
  induction m with
  | nil => simp [cellPut, cellGet, h.symm]
  | cons c r ih =>
    obtain ⟨k, w⟩ := c
    simp only [cellPut]
    split
    · simp [cellGet, h.symm]
    · split
      · rename_i h1
        have : k ≠ b := by omega
        simp [cellGet, h.symm, this]
      · simp only [cellGet, ih]

/-- A read after a write. -/
theorem cellGet_cellPut {α : Type} (m : List (Nat × α)) (a b : Nat) (v : α) :
    cellGet (cellPut m a v) b = if b = a then some v else cellGet m b := by
  by_cases h : b = a
  · subst h; simp [cellGet_cellPut_same]
  · simp [h, cellGet_cellPut_other]

/-- Unlisting a range of addresses empties it and leaves every other address alone. -/
theorem cellGet_cellDrop {α : Type} (m : List (Nat × α)) (lo n a : Nat) :
    cellGet (cellDrop m lo n) a = if lo ≤ a ∧ a < lo + n then none else cellGet m a := by
  unfold cellDrop
  induction m with
  | nil => simp [cellGet]
  | cons c r ih =>
    obtain ⟨k, w⟩ := c
    by_cases h : k < lo ∨ lo + n ≤ k
    · simp only [List.filter_cons, h, decide_true, if_true, cellGet]
      split
      · subst k
        rw [if_neg]
        omega
      · exact ih
    · simp only [List.filter_cons, h, decide_false, cellGet, Bool.false_eq_true, if_false]
      rw [ih]
      split
      · rfl
      · rw [if_neg]
        omega

/-- A listed cell can be found. -/
theorem mem_of_cellGet {α : Type} {m : List (Nat × α)} {a : Nat} {v : α} (h : cellGet m a = some v) :
    (a, v) ∈ m := by
  induction m with
  | nil => simp [cellGet] at h
  | cons c r ih =>
    obtain ⟨k, w⟩ := c
    simp only [cellGet] at h
    split at h
    · simp_all
    · simp [ih h]

/-- What a write lists: the new cell, or a cell listed before. -/
theorem mem_cellPut {α : Type} {m : List (Nat × α)} {a : Nat} {v : α} {c : Nat × α}
    (h : c ∈ cellPut m a v) : c = (a, v) ∨ c ∈ m := by
  induction m with
  | nil => simpa [cellPut] using h
  | cons d r ih =>
    obtain ⟨k, w⟩ := d
    simp only [cellPut] at h
    split at h
    · simpa using h
    · split at h
      · simp only [List.mem_cons] at h
        rcases h with h | h
        · exact .inl h
        · exact .inr (by simp [h])
      · simp only [List.mem_cons] at h
        rcases h with h | h
        · exact .inr (by simp [h])
        · rcases ih h with h | h
          · exact .inl h
          · exact .inr (by simp [h])

/-! ### The canonical form -/

theorem cellsRising_cons {α : Type} {c : Nat × α} {r : List (Nat × α)} :
    cellsRising (c :: r) = true ↔ (∀ d ∈ r, c.1 < d.1) ∧ cellsRising r = true := by
  induction r generalizing c with
  | nil => simp [cellsRising]
  | cons d r ih =>
    simp only [cellsRising, Bool.and_eq_true, decide_eq_true_eq, List.mem_cons]
    constructor
    · rintro ⟨h1, h2⟩
      refine ⟨?_, h2⟩
      rintro e (rfl | he)
      · exact h1
      · exact Nat.lt_trans h1 ((ih.mp h2).1 e he)
    · rintro ⟨h1, h2⟩
      exact ⟨h1 d (.inl rfl), h2⟩

/-- A write keeps the addresses rising. -/
theorem cellsRising_cellPut {α : Type} {m : List (Nat × α)} (a : Nat) (v : α)
    (h : cellsRising m = true) : cellsRising (cellPut m a v) = true := by
  induction m with
  | nil => simp [cellPut, cellsRising]
  | cons c r ih =>
    obtain ⟨k, w⟩ := c
    have hc := cellsRising_cons.mp h
    simp only [cellPut]
    split
    · rename_i hlt
      rw [cellsRising_cons]
      refine ⟨?_, h⟩
      intro d hd
      simp only [List.mem_cons] at hd
      rcases hd with rfl | hd
      · exact hlt
      · exact Nat.lt_trans hlt (hc.1 d hd)
    · split
      · rename_i heq
        subst heq
        rw [cellsRising_cons]
        exact hc
      · rename_i h1 h2
        rw [cellsRising_cons]
        refine ⟨?_, ih hc.2⟩
        intro d hd
        rcases mem_cellPut hd with rfl | hd
        · show k < a
          omega
        · exact hc.1 d hd

/-- Unlisting keeps the addresses rising. -/
theorem cellsRising_cellDrop {α : Type} {m : List (Nat × α)} (lo n : Nat)
    (h : cellsRising m = true) : cellsRising (cellDrop m lo n) = true := by
  unfold cellDrop
  induction m with
  | nil => rfl
  | cons c r ih =>
    have hc := cellsRising_cons.mp h
    simp only [List.filter_cons]
    split
    · rw [cellsRising_cons]
      refine ⟨?_, ih hc.2⟩
      intro d hd
      exact hc.1 d (List.mem_filter.mp hd).1
    · exact ih hc.2

/-- WIN.PUT's write keeps the window's canonical form. -/
theorem Memory.wf_cellPut {m : Memory} (a : Nat) (b : Byte) (h : Memory.wf m = true) :
    Memory.wf (cellPut m a b) = true := cellsRising_cellPut a b h

/-- Writing a slot keeps the probability store's canonical form. -/
theorem ProbMem.wf_slotPut {m : ProbMem} (a : Nat) (v : BitVec 11) (h : ProbMem.wf m = true) :
    ProbMem.wf (slotPut m a v) = true := by
  simp only [ProbMem.wf, Bool.and_eq_true, List.all_eq_true, decide_eq_true_eq] at h ⊢
  unfold slotPut
  split
  · refine ⟨cellsRising_cellDrop _ _ h.1, ?_⟩
    intro c hc
    exact h.2 c (List.mem_filter.mp hc).1
  · rename_i hv
    refine ⟨cellsRising_cellPut _ _ h.1, ?_⟩
    intro c hc
    rcases mem_cellPut hc with rfl | hc
    · exact hv
    · exact h.2 c hc

/-- Resetting slots keeps the probability store's canonical form. -/
theorem ProbMem.wf_cellDrop {m : ProbMem} (lo n : Nat) (h : ProbMem.wf m = true) :
    ProbMem.wf (cellDrop m lo n) = true := by
  simp only [ProbMem.wf, Bool.and_eq_true, List.all_eq_true, decide_eq_true_eq] at h ⊢
  refine ⟨cellsRising_cellDrop _ _ h.1, ?_⟩
  intro c hc
  exact h.2 c (List.mem_filter.mp hc).1

/-! ### Slots -/

/-- A slot reads back what was written, and no other slot changes. -/
theorem slotGet_slotPut (m : ProbMem) (a b : Nat) (v : BitVec 11) :
    slotGet (slotPut m a v) b = if b = a then v else slotGet m b := by
  unfold slotGet slotPut
  split
  · rename_i hv
    rw [cellGet_cellDrop]
    by_cases h : b = a
    · subst h; simp [hv]
    · rw [if_neg (show ¬(a ≤ b ∧ b < a + 1) by omega), if_neg h]
  · rw [cellGet_cellPut]
    split <;> simp

/-- A reset range holds 1024, and no slot outside it changes. -/
theorem slotGet_cellDrop (m : ProbMem) (lo n a : Nat) :
    slotGet (cellDrop m lo n) a = if lo ≤ a ∧ a < lo + n then Config.probInit else slotGet m a := by
  unfold slotGet
  rw [cellGet_cellDrop]
  split <;> simp

/-- A slot of a store whose listed values lie in `[31, 2017]` lies there too (10_state.md R22). -/
theorem slotGet_mem_range {m : ProbMem} (h : ∀ c ∈ m, 31#11 ≤ c.2 ∧ c.2 ≤ 2017#11) (a : Nat) :
    31#11 ≤ slotGet m a ∧ slotGet m a ≤ 2017#11 := by
  unfold slotGet
  cases hc : cellGet m a with
  | none => simp [Config.probInit]
  | some v => exact h _ (mem_of_cellGet hc)

end Sys2Proof.Machine
end

