-- ==== Sys2Proof/Laws/Rules.lean ====
section
/-! SUPPORT. How a rule goes: one lemma per way for `Res.bind`, `settle` and `pull`, so that later proofs
peel a rule apart without unfolding these. -/
namespace Sys2Proof.Machine

/-! ### Sequencing -/

@[simp] theorem Res.bind_ok {α β : Type} (a : α) (s : State) (f : α → State → Res β) :
    (Res.ok a s).bind f = f a s := rfl

@[simp] theorem Res.bind_raised {α β : Type} (s : State) (f : α → State → Res β) :
    (Res.raised s : Res α).bind f = .raised s := rfl

@[simp] theorem Res.bind_held {α β : Type} (f : α → State → Res β) :
    (Res.held : Res α).bind f = .held := rfl

@[simp] theorem Res.bind_bad {α β : Type} (e : Fault) (f : α → State → Res β) :
    (Res.bad e : Res α).bind f = .bad e := rfl

@[simp] theorem raise_bind {α β : Type} (c : Cause) (x : Word) (s : State) (f : α → State → Res β) :
    (raise c x s : Res α).bind f = raise c x s := rfl

/-- A sequence completes exactly when both parts do. -/
theorem Res.bind_eq_ok {α β : Type} {r : Res α} {f : α → State → Res β} {b : β} {t : State} :
    r.bind f = .ok b t ↔ ∃ a s, r = .ok a s ∧ f a s = .ok b t := by
  cases r <;> simp [Res.bind]

/-- A sequence raises in its first part or in its second. -/
theorem Res.bind_eq_raised {α β : Type} {r : Res α} {f : α → State → Res β} {t : State} :
    r.bind f = .raised t ↔ r = .raised t ∨ ∃ a s, r = .ok a s ∧ f a s = .raised t := by
  cases r <;> simp [Res.bind]

/-- A sequence stops in its first part or in its second. -/
theorem Res.bind_eq_bad {α β : Type} {r : Res α} {f : α → State → Res β} {e : Fault} :
    r.bind f = .bad e ↔ r = .bad e ∨ ∃ a s, r = .ok a s ∧ f a s = .bad e := by
  cases r <;> simp [Res.bind]

/-- A sequence is held in its first part or in its second. -/
theorem Res.bind_eq_held {α β : Type} {r : Res α} {f : α → State → Res β} :
    r.bind f = .held ↔ r = .held ∨ ∃ a s, r = .ok a s ∧ f a s = .held := by
  cases r <;> simp [Res.bind]

theorem Res.bind_assoc {α β γ : Type} (r : Res α) (f : α → State → Res β) (g : β → State → Res γ) :
    (r.bind f).bind g = r.bind fun a s => (f a s).bind g := by
  cases r <;> rfl

/-! ### Outcomes -/

@[simp] theorem settle_ok (s0 s : State) : settle s0 (.ok () s) = .next s := rfl

@[simp] theorem settle_raised (s0 s : State) : settle s0 (.raised s) = .next s := rfl

@[simp] theorem settle_raise (s0 s : State) (c : Cause) (x : Word) :
    settle s0 (raise c x s) = .next (raiseState c x s) := rfl

@[simp] theorem settle_held (s0 : State) : settle s0 .held = .next (holdAtPull s0) := rfl

@[simp] theorem settle_bad (s0 : State) (f : Fault) : settle s0 (.bad f) = .fault f := rfl

@[simp] theorem settleRet_ok {α : Type} (s0 s : State) (ret : α → Ret) (a : α) :
    settleRet s0 ret (.ok a s) = .next (s.withRet (ret a)) := rfl

/-- An instruction leads to a next state by completing, by raising, or by being held. -/
theorem settle_eq_next {s0 t : State} {r : Res Unit} :
    settle s0 r = .next t ↔ r = .ok () t ∨ r = .raised t ∨ (r = .held ∧ t = holdAtPull s0) := by
  cases r <;> simp [settle, eq_comm]

/-- An instruction stops only where a rule does what no rule does. -/
theorem settle_ne_fault {s0 : State} {r : Res Unit} (h : ∀ f, r ≠ .bad f) : ∃ t, settle s0 r = .next t := by
  cases r <;> simp_all [settle]

/-! ### Pulls -/

/-- A pull inside a limit that has room takes a byte that SRC offers. -/
theorem pull_byte {s : State} {b : Byte} {rest : List SrcAnswer} (h : s.env.src = .byte b :: rest)
    (hl : limitActive s = true → s.c2.compLeft ≠ 0#17) :
    pull s = .ok b ((takeAnswer rest (countPull s)).withInCount (s.inCount + 1)) := by
  cases hs : limitActive s <;> simp_all [pull]

/-- What a completed pull did. -/
theorem pull_eq_ok {s t : State} {b : Byte} (h : pull s = .ok b t) :
    ∃ rest, s.env.src = .byte b :: rest ∧ (limitActive s = true → s.c2.compLeft ≠ 0#17) ∧
      t = (takeAnswer rest (countPull s)).withInCount (s.inCount + 1) := by
  unfold pull at h
  split at h
  · cases h
  · rename_i hl
    split at h
    · cases h
    · rename_i rest heq
      cases h
      refine ⟨_, heq, ?_, rfl⟩
      intro h1 h2
      simp [h1, h2] at hl
    · cases h
    · cases h

/-- A pull never stops the machine. -/
theorem pull_ne_bad (s : State) (f : Fault) : pull s ≠ .bad f := by
  unfold pull raise
  split
  · simp
  · split <;> simp

/-- A pull that raises leaves phase FAULT. -/
theorem pull_eq_raised {s t : State} (h : pull s = .raised t) : t.phase = .fault := by
  unfold pull raise at h
  split at h
  · cases h; rfl
  · split at h <;> cases h <;> rfl

end Sys2Proof.Machine
end

