-- ==== Sys2Proof/Laws/State.lean ====
section
/-! SUPPORT. One lemma per field and per update of `State`: what each `with...` writes and that it writes
nothing else. All hold by `rfl`; later proofs cite them instead of unfolding a record update. -/
namespace Sys2Proof.Machine

@[simp] theorem State.withPhase_par (s : State) (x : Phase) : (s.withPhase x).par = s.par := rfl
@[simp] theorem State.withPhase_phase (s : State) (x : Phase) : (s.withPhase x).phase = x := rfl
@[simp] theorem State.withPhase_mode (s : State) (x : Phase) : (s.withPhase x).mode = s.mode := rfl
@[simp] theorem State.withPhase_status (s : State) (x : Phase) : (s.withPhase x).status = s.status := rfl
@[simp] theorem State.withPhase_inCount (s : State) (x : Phase) : (s.withPhase x).inCount = s.inCount := rfl
@[simp] theorem State.withPhase_rc (s : State) (x : Phase) : (s.withPhase x).rc = s.rc := rfl
@[simp] theorem State.withPhase_st (s : State) (x : Phase) : (s.withPhase x).st = s.st := rfl
@[simp] theorem State.withPhase_sizeDefined (s : State) (x : Phase) : (s.withPhase x).sizeDefined = s.sizeDefined := rfl
@[simp] theorem State.withPhase_rem (s : State) (x : Phase) : (s.withPhase x).rem = s.rem := rfl
@[simp] theorem State.withPhase_cfg (s : State) (x : Phase) : (s.withPhase x).cfg = s.cfg := rfl
@[simp] theorem State.withPhase_c2 (s : State) (x : Phase) : (s.withPhase x).c2 = s.c2 := rfl
@[simp] theorem State.withPhase_prob (s : State) (x : Phase) : (s.withPhase x).prob = s.prob := rfl
@[simp] theorem State.withPhase_win (s : State) (x : Phase) : (s.withPhase x).win = s.win := rfl
@[simp] theorem State.withPhase_wait (s : State) (x : Phase) : (s.withPhase x).wait = s.wait := rfl
@[simp] theorem State.withPhase_env (s : State) (x : Phase) : (s.withPhase x).env = s.env := rfl
@[simp] theorem State.withPhase_ret (s : State) (x : Phase) : (s.withPhase x).ret = s.ret := rfl
@[simp] theorem State.withPhase_free (s : State) (x : Phase) : (s.withPhase x).free = s.free := rfl

@[simp] theorem State.withMode_par (s : State) (x : Mode) : (s.withMode x).par = s.par := rfl
@[simp] theorem State.withMode_phase (s : State) (x : Mode) : (s.withMode x).phase = s.phase := rfl
@[simp] theorem State.withMode_mode (s : State) (x : Mode) : (s.withMode x).mode = x := rfl
@[simp] theorem State.withMode_status (s : State) (x : Mode) : (s.withMode x).status = s.status := rfl
@[simp] theorem State.withMode_inCount (s : State) (x : Mode) : (s.withMode x).inCount = s.inCount := rfl
@[simp] theorem State.withMode_rc (s : State) (x : Mode) : (s.withMode x).rc = s.rc := rfl
@[simp] theorem State.withMode_st (s : State) (x : Mode) : (s.withMode x).st = s.st := rfl
@[simp] theorem State.withMode_sizeDefined (s : State) (x : Mode) : (s.withMode x).sizeDefined = s.sizeDefined := rfl
@[simp] theorem State.withMode_rem (s : State) (x : Mode) : (s.withMode x).rem = s.rem := rfl
@[simp] theorem State.withMode_cfg (s : State) (x : Mode) : (s.withMode x).cfg = s.cfg := rfl
@[simp] theorem State.withMode_c2 (s : State) (x : Mode) : (s.withMode x).c2 = s.c2 := rfl
@[simp] theorem State.withMode_prob (s : State) (x : Mode) : (s.withMode x).prob = s.prob := rfl
@[simp] theorem State.withMode_win (s : State) (x : Mode) : (s.withMode x).win = s.win := rfl
@[simp] theorem State.withMode_wait (s : State) (x : Mode) : (s.withMode x).wait = s.wait := rfl
@[simp] theorem State.withMode_env (s : State) (x : Mode) : (s.withMode x).env = s.env := rfl
@[simp] theorem State.withMode_ret (s : State) (x : Mode) : (s.withMode x).ret = s.ret := rfl
@[simp] theorem State.withMode_free (s : State) (x : Mode) : (s.withMode x).free = s.free := rfl

@[simp] theorem State.withStatus_par (s : State) (x : Status) : (s.withStatus x).par = s.par := rfl
@[simp] theorem State.withStatus_phase (s : State) (x : Status) : (s.withStatus x).phase = s.phase := rfl
@[simp] theorem State.withStatus_mode (s : State) (x : Status) : (s.withStatus x).mode = s.mode := rfl
@[simp] theorem State.withStatus_status (s : State) (x : Status) : (s.withStatus x).status = x := rfl
@[simp] theorem State.withStatus_inCount (s : State) (x : Status) : (s.withStatus x).inCount = s.inCount := rfl
@[simp] theorem State.withStatus_rc (s : State) (x : Status) : (s.withStatus x).rc = s.rc := rfl
@[simp] theorem State.withStatus_st (s : State) (x : Status) : (s.withStatus x).st = s.st := rfl
@[simp] theorem State.withStatus_sizeDefined (s : State) (x : Status) : (s.withStatus x).sizeDefined = s.sizeDefined := rfl
@[simp] theorem State.withStatus_rem (s : State) (x : Status) : (s.withStatus x).rem = s.rem := rfl
@[simp] theorem State.withStatus_cfg (s : State) (x : Status) : (s.withStatus x).cfg = s.cfg := rfl
@[simp] theorem State.withStatus_c2 (s : State) (x : Status) : (s.withStatus x).c2 = s.c2 := rfl
@[simp] theorem State.withStatus_prob (s : State) (x : Status) : (s.withStatus x).prob = s.prob := rfl
@[simp] theorem State.withStatus_win (s : State) (x : Status) : (s.withStatus x).win = s.win := rfl
@[simp] theorem State.withStatus_wait (s : State) (x : Status) : (s.withStatus x).wait = s.wait := rfl
@[simp] theorem State.withStatus_env (s : State) (x : Status) : (s.withStatus x).env = s.env := rfl
@[simp] theorem State.withStatus_ret (s : State) (x : Status) : (s.withStatus x).ret = s.ret := rfl
@[simp] theorem State.withStatus_free (s : State) (x : Status) : (s.withStatus x).free = s.free := rfl

@[simp] theorem State.withInCount_par (s : State) (x : Nat) : (s.withInCount x).par = s.par := rfl
@[simp] theorem State.withInCount_phase (s : State) (x : Nat) : (s.withInCount x).phase = s.phase := rfl
@[simp] theorem State.withInCount_mode (s : State) (x : Nat) : (s.withInCount x).mode = s.mode := rfl
@[simp] theorem State.withInCount_status (s : State) (x : Nat) : (s.withInCount x).status = s.status := rfl
@[simp] theorem State.withInCount_inCount (s : State) (x : Nat) : (s.withInCount x).inCount = x := rfl
@[simp] theorem State.withInCount_rc (s : State) (x : Nat) : (s.withInCount x).rc = s.rc := rfl
@[simp] theorem State.withInCount_st (s : State) (x : Nat) : (s.withInCount x).st = s.st := rfl
@[simp] theorem State.withInCount_sizeDefined (s : State) (x : Nat) : (s.withInCount x).sizeDefined = s.sizeDefined := rfl
@[simp] theorem State.withInCount_rem (s : State) (x : Nat) : (s.withInCount x).rem = s.rem := rfl
@[simp] theorem State.withInCount_cfg (s : State) (x : Nat) : (s.withInCount x).cfg = s.cfg := rfl
@[simp] theorem State.withInCount_c2 (s : State) (x : Nat) : (s.withInCount x).c2 = s.c2 := rfl
@[simp] theorem State.withInCount_prob (s : State) (x : Nat) : (s.withInCount x).prob = s.prob := rfl
@[simp] theorem State.withInCount_win (s : State) (x : Nat) : (s.withInCount x).win = s.win := rfl
@[simp] theorem State.withInCount_wait (s : State) (x : Nat) : (s.withInCount x).wait = s.wait := rfl
@[simp] theorem State.withInCount_env (s : State) (x : Nat) : (s.withInCount x).env = s.env := rfl
@[simp] theorem State.withInCount_ret (s : State) (x : Nat) : (s.withInCount x).ret = s.ret := rfl
@[simp] theorem State.withInCount_free (s : State) (x : Nat) : (s.withInCount x).free = s.free := rfl

@[simp] theorem State.withRc_par (s : State) (x : Rc) : (s.withRc x).par = s.par := rfl
@[simp] theorem State.withRc_phase (s : State) (x : Rc) : (s.withRc x).phase = s.phase := rfl
@[simp] theorem State.withRc_mode (s : State) (x : Rc) : (s.withRc x).mode = s.mode := rfl
@[simp] theorem State.withRc_status (s : State) (x : Rc) : (s.withRc x).status = s.status := rfl
@[simp] theorem State.withRc_inCount (s : State) (x : Rc) : (s.withRc x).inCount = s.inCount := rfl
@[simp] theorem State.withRc_rc (s : State) (x : Rc) : (s.withRc x).rc = x := rfl
@[simp] theorem State.withRc_st (s : State) (x : Rc) : (s.withRc x).st = s.st := rfl
@[simp] theorem State.withRc_sizeDefined (s : State) (x : Rc) : (s.withRc x).sizeDefined = s.sizeDefined := rfl
@[simp] theorem State.withRc_rem (s : State) (x : Rc) : (s.withRc x).rem = s.rem := rfl
@[simp] theorem State.withRc_cfg (s : State) (x : Rc) : (s.withRc x).cfg = s.cfg := rfl
@[simp] theorem State.withRc_c2 (s : State) (x : Rc) : (s.withRc x).c2 = s.c2 := rfl
@[simp] theorem State.withRc_prob (s : State) (x : Rc) : (s.withRc x).prob = s.prob := rfl
@[simp] theorem State.withRc_win (s : State) (x : Rc) : (s.withRc x).win = s.win := rfl
@[simp] theorem State.withRc_wait (s : State) (x : Rc) : (s.withRc x).wait = s.wait := rfl
@[simp] theorem State.withRc_env (s : State) (x : Rc) : (s.withRc x).env = s.env := rfl
@[simp] theorem State.withRc_ret (s : State) (x : Rc) : (s.withRc x).ret = s.ret := rfl
@[simp] theorem State.withRc_free (s : State) (x : Rc) : (s.withRc x).free = s.free := rfl

@[simp] theorem State.withSt_par (s : State) (x : Fsm) : (s.withSt x).par = s.par := rfl
@[simp] theorem State.withSt_phase (s : State) (x : Fsm) : (s.withSt x).phase = s.phase := rfl
@[simp] theorem State.withSt_mode (s : State) (x : Fsm) : (s.withSt x).mode = s.mode := rfl
@[simp] theorem State.withSt_status (s : State) (x : Fsm) : (s.withSt x).status = s.status := rfl
@[simp] theorem State.withSt_inCount (s : State) (x : Fsm) : (s.withSt x).inCount = s.inCount := rfl
@[simp] theorem State.withSt_rc (s : State) (x : Fsm) : (s.withSt x).rc = s.rc := rfl
@[simp] theorem State.withSt_st (s : State) (x : Fsm) : (s.withSt x).st = x := rfl
@[simp] theorem State.withSt_sizeDefined (s : State) (x : Fsm) : (s.withSt x).sizeDefined = s.sizeDefined := rfl
@[simp] theorem State.withSt_rem (s : State) (x : Fsm) : (s.withSt x).rem = s.rem := rfl
@[simp] theorem State.withSt_cfg (s : State) (x : Fsm) : (s.withSt x).cfg = s.cfg := rfl
@[simp] theorem State.withSt_c2 (s : State) (x : Fsm) : (s.withSt x).c2 = s.c2 := rfl
@[simp] theorem State.withSt_prob (s : State) (x : Fsm) : (s.withSt x).prob = s.prob := rfl
@[simp] theorem State.withSt_win (s : State) (x : Fsm) : (s.withSt x).win = s.win := rfl
@[simp] theorem State.withSt_wait (s : State) (x : Fsm) : (s.withSt x).wait = s.wait := rfl
@[simp] theorem State.withSt_env (s : State) (x : Fsm) : (s.withSt x).env = s.env := rfl
@[simp] theorem State.withSt_ret (s : State) (x : Fsm) : (s.withSt x).ret = s.ret := rfl
@[simp] theorem State.withSt_free (s : State) (x : Fsm) : (s.withSt x).free = s.free := rfl

@[simp] theorem State.withSizeDefined_par (s : State) (x : Bool) : (s.withSizeDefined x).par = s.par := rfl
@[simp] theorem State.withSizeDefined_phase (s : State) (x : Bool) : (s.withSizeDefined x).phase = s.phase := rfl
@[simp] theorem State.withSizeDefined_mode (s : State) (x : Bool) : (s.withSizeDefined x).mode = s.mode := rfl
@[simp] theorem State.withSizeDefined_status (s : State) (x : Bool) : (s.withSizeDefined x).status = s.status := rfl
@[simp] theorem State.withSizeDefined_inCount (s : State) (x : Bool) : (s.withSizeDefined x).inCount = s.inCount := rfl
@[simp] theorem State.withSizeDefined_rc (s : State) (x : Bool) : (s.withSizeDefined x).rc = s.rc := rfl
@[simp] theorem State.withSizeDefined_st (s : State) (x : Bool) : (s.withSizeDefined x).st = s.st := rfl
@[simp] theorem State.withSizeDefined_sizeDefined (s : State) (x : Bool) : (s.withSizeDefined x).sizeDefined = x := rfl
@[simp] theorem State.withSizeDefined_rem (s : State) (x : Bool) : (s.withSizeDefined x).rem = s.rem := rfl
@[simp] theorem State.withSizeDefined_cfg (s : State) (x : Bool) : (s.withSizeDefined x).cfg = s.cfg := rfl
@[simp] theorem State.withSizeDefined_c2 (s : State) (x : Bool) : (s.withSizeDefined x).c2 = s.c2 := rfl
@[simp] theorem State.withSizeDefined_prob (s : State) (x : Bool) : (s.withSizeDefined x).prob = s.prob := rfl
@[simp] theorem State.withSizeDefined_win (s : State) (x : Bool) : (s.withSizeDefined x).win = s.win := rfl
@[simp] theorem State.withSizeDefined_wait (s : State) (x : Bool) : (s.withSizeDefined x).wait = s.wait := rfl
@[simp] theorem State.withSizeDefined_env (s : State) (x : Bool) : (s.withSizeDefined x).env = s.env := rfl
@[simp] theorem State.withSizeDefined_ret (s : State) (x : Bool) : (s.withSizeDefined x).ret = s.ret := rfl
@[simp] theorem State.withSizeDefined_free (s : State) (x : Bool) : (s.withSizeDefined x).free = s.free := rfl

@[simp] theorem State.withRem_par (s : State) (x : BitVec 64) : (s.withRem x).par = s.par := rfl
@[simp] theorem State.withRem_phase (s : State) (x : BitVec 64) : (s.withRem x).phase = s.phase := rfl
@[simp] theorem State.withRem_mode (s : State) (x : BitVec 64) : (s.withRem x).mode = s.mode := rfl
@[simp] theorem State.withRem_status (s : State) (x : BitVec 64) : (s.withRem x).status = s.status := rfl
@[simp] theorem State.withRem_inCount (s : State) (x : BitVec 64) : (s.withRem x).inCount = s.inCount := rfl
@[simp] theorem State.withRem_rc (s : State) (x : BitVec 64) : (s.withRem x).rc = s.rc := rfl
@[simp] theorem State.withRem_st (s : State) (x : BitVec 64) : (s.withRem x).st = s.st := rfl
@[simp] theorem State.withRem_sizeDefined (s : State) (x : BitVec 64) : (s.withRem x).sizeDefined = s.sizeDefined := rfl
@[simp] theorem State.withRem_rem (s : State) (x : BitVec 64) : (s.withRem x).rem = x := rfl
@[simp] theorem State.withRem_cfg (s : State) (x : BitVec 64) : (s.withRem x).cfg = s.cfg := rfl
@[simp] theorem State.withRem_c2 (s : State) (x : BitVec 64) : (s.withRem x).c2 = s.c2 := rfl
@[simp] theorem State.withRem_prob (s : State) (x : BitVec 64) : (s.withRem x).prob = s.prob := rfl
@[simp] theorem State.withRem_win (s : State) (x : BitVec 64) : (s.withRem x).win = s.win := rfl
@[simp] theorem State.withRem_wait (s : State) (x : BitVec 64) : (s.withRem x).wait = s.wait := rfl
@[simp] theorem State.withRem_env (s : State) (x : BitVec 64) : (s.withRem x).env = s.env := rfl
@[simp] theorem State.withRem_ret (s : State) (x : BitVec 64) : (s.withRem x).ret = s.ret := rfl
@[simp] theorem State.withRem_free (s : State) (x : BitVec 64) : (s.withRem x).free = s.free := rfl

@[simp] theorem State.withCfg_par (s : State) (x : Cfg) : (s.withCfg x).par = s.par := rfl
@[simp] theorem State.withCfg_phase (s : State) (x : Cfg) : (s.withCfg x).phase = s.phase := rfl
@[simp] theorem State.withCfg_mode (s : State) (x : Cfg) : (s.withCfg x).mode = s.mode := rfl
@[simp] theorem State.withCfg_status (s : State) (x : Cfg) : (s.withCfg x).status = s.status := rfl
@[simp] theorem State.withCfg_inCount (s : State) (x : Cfg) : (s.withCfg x).inCount = s.inCount := rfl
@[simp] theorem State.withCfg_rc (s : State) (x : Cfg) : (s.withCfg x).rc = s.rc := rfl
@[simp] theorem State.withCfg_st (s : State) (x : Cfg) : (s.withCfg x).st = s.st := rfl
@[simp] theorem State.withCfg_sizeDefined (s : State) (x : Cfg) : (s.withCfg x).sizeDefined = s.sizeDefined := rfl
@[simp] theorem State.withCfg_rem (s : State) (x : Cfg) : (s.withCfg x).rem = s.rem := rfl
@[simp] theorem State.withCfg_cfg (s : State) (x : Cfg) : (s.withCfg x).cfg = x := rfl
@[simp] theorem State.withCfg_c2 (s : State) (x : Cfg) : (s.withCfg x).c2 = s.c2 := rfl
@[simp] theorem State.withCfg_prob (s : State) (x : Cfg) : (s.withCfg x).prob = s.prob := rfl
@[simp] theorem State.withCfg_win (s : State) (x : Cfg) : (s.withCfg x).win = s.win := rfl
@[simp] theorem State.withCfg_wait (s : State) (x : Cfg) : (s.withCfg x).wait = s.wait := rfl
@[simp] theorem State.withCfg_env (s : State) (x : Cfg) : (s.withCfg x).env = s.env := rfl
@[simp] theorem State.withCfg_ret (s : State) (x : Cfg) : (s.withCfg x).ret = s.ret := rfl
@[simp] theorem State.withCfg_free (s : State) (x : Cfg) : (s.withCfg x).free = s.free := rfl

@[simp] theorem State.withC2_par (s : State) (x : C2) : (s.withC2 x).par = s.par := rfl
@[simp] theorem State.withC2_phase (s : State) (x : C2) : (s.withC2 x).phase = s.phase := rfl
@[simp] theorem State.withC2_mode (s : State) (x : C2) : (s.withC2 x).mode = s.mode := rfl
@[simp] theorem State.withC2_status (s : State) (x : C2) : (s.withC2 x).status = s.status := rfl
@[simp] theorem State.withC2_inCount (s : State) (x : C2) : (s.withC2 x).inCount = s.inCount := rfl
@[simp] theorem State.withC2_rc (s : State) (x : C2) : (s.withC2 x).rc = s.rc := rfl
@[simp] theorem State.withC2_st (s : State) (x : C2) : (s.withC2 x).st = s.st := rfl
@[simp] theorem State.withC2_sizeDefined (s : State) (x : C2) : (s.withC2 x).sizeDefined = s.sizeDefined := rfl
@[simp] theorem State.withC2_rem (s : State) (x : C2) : (s.withC2 x).rem = s.rem := rfl
@[simp] theorem State.withC2_cfg (s : State) (x : C2) : (s.withC2 x).cfg = s.cfg := rfl
@[simp] theorem State.withC2_c2 (s : State) (x : C2) : (s.withC2 x).c2 = x := rfl
@[simp] theorem State.withC2_prob (s : State) (x : C2) : (s.withC2 x).prob = s.prob := rfl
@[simp] theorem State.withC2_win (s : State) (x : C2) : (s.withC2 x).win = s.win := rfl
@[simp] theorem State.withC2_wait (s : State) (x : C2) : (s.withC2 x).wait = s.wait := rfl
@[simp] theorem State.withC2_env (s : State) (x : C2) : (s.withC2 x).env = s.env := rfl
@[simp] theorem State.withC2_ret (s : State) (x : C2) : (s.withC2 x).ret = s.ret := rfl
@[simp] theorem State.withC2_free (s : State) (x : C2) : (s.withC2 x).free = s.free := rfl

@[simp] theorem State.withProb_par (s : State) (x : ProbMem) : (s.withProb x).par = s.par := rfl
@[simp] theorem State.withProb_phase (s : State) (x : ProbMem) : (s.withProb x).phase = s.phase := rfl
@[simp] theorem State.withProb_mode (s : State) (x : ProbMem) : (s.withProb x).mode = s.mode := rfl
@[simp] theorem State.withProb_status (s : State) (x : ProbMem) : (s.withProb x).status = s.status := rfl
@[simp] theorem State.withProb_inCount (s : State) (x : ProbMem) : (s.withProb x).inCount = s.inCount := rfl
@[simp] theorem State.withProb_rc (s : State) (x : ProbMem) : (s.withProb x).rc = s.rc := rfl
@[simp] theorem State.withProb_st (s : State) (x : ProbMem) : (s.withProb x).st = s.st := rfl
@[simp] theorem State.withProb_sizeDefined (s : State) (x : ProbMem) : (s.withProb x).sizeDefined = s.sizeDefined := rfl
@[simp] theorem State.withProb_rem (s : State) (x : ProbMem) : (s.withProb x).rem = s.rem := rfl
@[simp] theorem State.withProb_cfg (s : State) (x : ProbMem) : (s.withProb x).cfg = s.cfg := rfl
@[simp] theorem State.withProb_c2 (s : State) (x : ProbMem) : (s.withProb x).c2 = s.c2 := rfl
@[simp] theorem State.withProb_prob (s : State) (x : ProbMem) : (s.withProb x).prob = x := rfl
@[simp] theorem State.withProb_win (s : State) (x : ProbMem) : (s.withProb x).win = s.win := rfl
@[simp] theorem State.withProb_wait (s : State) (x : ProbMem) : (s.withProb x).wait = s.wait := rfl
@[simp] theorem State.withProb_env (s : State) (x : ProbMem) : (s.withProb x).env = s.env := rfl
@[simp] theorem State.withProb_ret (s : State) (x : ProbMem) : (s.withProb x).ret = s.ret := rfl
@[simp] theorem State.withProb_free (s : State) (x : ProbMem) : (s.withProb x).free = s.free := rfl

@[simp] theorem State.withWin_par (s : State) (x : Win) : (s.withWin x).par = s.par := rfl
@[simp] theorem State.withWin_phase (s : State) (x : Win) : (s.withWin x).phase = s.phase := rfl
@[simp] theorem State.withWin_mode (s : State) (x : Win) : (s.withWin x).mode = s.mode := rfl
@[simp] theorem State.withWin_status (s : State) (x : Win) : (s.withWin x).status = s.status := rfl
@[simp] theorem State.withWin_inCount (s : State) (x : Win) : (s.withWin x).inCount = s.inCount := rfl
@[simp] theorem State.withWin_rc (s : State) (x : Win) : (s.withWin x).rc = s.rc := rfl
@[simp] theorem State.withWin_st (s : State) (x : Win) : (s.withWin x).st = s.st := rfl
@[simp] theorem State.withWin_sizeDefined (s : State) (x : Win) : (s.withWin x).sizeDefined = s.sizeDefined := rfl
@[simp] theorem State.withWin_rem (s : State) (x : Win) : (s.withWin x).rem = s.rem := rfl
@[simp] theorem State.withWin_cfg (s : State) (x : Win) : (s.withWin x).cfg = s.cfg := rfl
@[simp] theorem State.withWin_c2 (s : State) (x : Win) : (s.withWin x).c2 = s.c2 := rfl
@[simp] theorem State.withWin_prob (s : State) (x : Win) : (s.withWin x).prob = s.prob := rfl
@[simp] theorem State.withWin_win (s : State) (x : Win) : (s.withWin x).win = x := rfl
@[simp] theorem State.withWin_wait (s : State) (x : Win) : (s.withWin x).wait = s.wait := rfl
@[simp] theorem State.withWin_env (s : State) (x : Win) : (s.withWin x).env = s.env := rfl
@[simp] theorem State.withWin_ret (s : State) (x : Win) : (s.withWin x).ret = s.ret := rfl
@[simp] theorem State.withWin_free (s : State) (x : Win) : (s.withWin x).free = s.free := rfl

@[simp] theorem State.withWait_par (s : State) (x : Option Wait) : (s.withWait x).par = s.par := rfl
@[simp] theorem State.withWait_phase (s : State) (x : Option Wait) : (s.withWait x).phase = s.phase := rfl
@[simp] theorem State.withWait_mode (s : State) (x : Option Wait) : (s.withWait x).mode = s.mode := rfl
@[simp] theorem State.withWait_status (s : State) (x : Option Wait) : (s.withWait x).status = s.status := rfl
@[simp] theorem State.withWait_inCount (s : State) (x : Option Wait) : (s.withWait x).inCount = s.inCount := rfl
@[simp] theorem State.withWait_rc (s : State) (x : Option Wait) : (s.withWait x).rc = s.rc := rfl
@[simp] theorem State.withWait_st (s : State) (x : Option Wait) : (s.withWait x).st = s.st := rfl
@[simp] theorem State.withWait_sizeDefined (s : State) (x : Option Wait) : (s.withWait x).sizeDefined = s.sizeDefined := rfl
@[simp] theorem State.withWait_rem (s : State) (x : Option Wait) : (s.withWait x).rem = s.rem := rfl
@[simp] theorem State.withWait_cfg (s : State) (x : Option Wait) : (s.withWait x).cfg = s.cfg := rfl
@[simp] theorem State.withWait_c2 (s : State) (x : Option Wait) : (s.withWait x).c2 = s.c2 := rfl
@[simp] theorem State.withWait_prob (s : State) (x : Option Wait) : (s.withWait x).prob = s.prob := rfl
@[simp] theorem State.withWait_win (s : State) (x : Option Wait) : (s.withWait x).win = s.win := rfl
@[simp] theorem State.withWait_wait (s : State) (x : Option Wait) : (s.withWait x).wait = x := rfl
@[simp] theorem State.withWait_env (s : State) (x : Option Wait) : (s.withWait x).env = s.env := rfl
@[simp] theorem State.withWait_ret (s : State) (x : Option Wait) : (s.withWait x).ret = s.ret := rfl
@[simp] theorem State.withWait_free (s : State) (x : Option Wait) : (s.withWait x).free = s.free := rfl

@[simp] theorem State.withEnv_par (s : State) (x : Env) : (s.withEnv x).par = s.par := rfl
@[simp] theorem State.withEnv_phase (s : State) (x : Env) : (s.withEnv x).phase = s.phase := rfl
@[simp] theorem State.withEnv_mode (s : State) (x : Env) : (s.withEnv x).mode = s.mode := rfl
@[simp] theorem State.withEnv_status (s : State) (x : Env) : (s.withEnv x).status = s.status := rfl
@[simp] theorem State.withEnv_inCount (s : State) (x : Env) : (s.withEnv x).inCount = s.inCount := rfl
@[simp] theorem State.withEnv_rc (s : State) (x : Env) : (s.withEnv x).rc = s.rc := rfl
@[simp] theorem State.withEnv_st (s : State) (x : Env) : (s.withEnv x).st = s.st := rfl
@[simp] theorem State.withEnv_sizeDefined (s : State) (x : Env) : (s.withEnv x).sizeDefined = s.sizeDefined := rfl
@[simp] theorem State.withEnv_rem (s : State) (x : Env) : (s.withEnv x).rem = s.rem := rfl
@[simp] theorem State.withEnv_cfg (s : State) (x : Env) : (s.withEnv x).cfg = s.cfg := rfl
@[simp] theorem State.withEnv_c2 (s : State) (x : Env) : (s.withEnv x).c2 = s.c2 := rfl
@[simp] theorem State.withEnv_prob (s : State) (x : Env) : (s.withEnv x).prob = s.prob := rfl
@[simp] theorem State.withEnv_win (s : State) (x : Env) : (s.withEnv x).win = s.win := rfl
@[simp] theorem State.withEnv_wait (s : State) (x : Env) : (s.withEnv x).wait = s.wait := rfl
@[simp] theorem State.withEnv_env (s : State) (x : Env) : (s.withEnv x).env = x := rfl
@[simp] theorem State.withEnv_ret (s : State) (x : Env) : (s.withEnv x).ret = s.ret := rfl
@[simp] theorem State.withEnv_free (s : State) (x : Env) : (s.withEnv x).free = s.free := rfl

@[simp] theorem State.withRet_par (s : State) (x : Ret) : (s.withRet x).par = s.par := rfl
@[simp] theorem State.withRet_phase (s : State) (x : Ret) : (s.withRet x).phase = s.phase := rfl
@[simp] theorem State.withRet_mode (s : State) (x : Ret) : (s.withRet x).mode = s.mode := rfl
@[simp] theorem State.withRet_status (s : State) (x : Ret) : (s.withRet x).status = s.status := rfl
@[simp] theorem State.withRet_inCount (s : State) (x : Ret) : (s.withRet x).inCount = s.inCount := rfl
@[simp] theorem State.withRet_rc (s : State) (x : Ret) : (s.withRet x).rc = s.rc := rfl
@[simp] theorem State.withRet_st (s : State) (x : Ret) : (s.withRet x).st = s.st := rfl
@[simp] theorem State.withRet_sizeDefined (s : State) (x : Ret) : (s.withRet x).sizeDefined = s.sizeDefined := rfl
@[simp] theorem State.withRet_rem (s : State) (x : Ret) : (s.withRet x).rem = s.rem := rfl
@[simp] theorem State.withRet_cfg (s : State) (x : Ret) : (s.withRet x).cfg = s.cfg := rfl
@[simp] theorem State.withRet_c2 (s : State) (x : Ret) : (s.withRet x).c2 = s.c2 := rfl
@[simp] theorem State.withRet_prob (s : State) (x : Ret) : (s.withRet x).prob = s.prob := rfl
@[simp] theorem State.withRet_win (s : State) (x : Ret) : (s.withRet x).win = s.win := rfl
@[simp] theorem State.withRet_wait (s : State) (x : Ret) : (s.withRet x).wait = s.wait := rfl
@[simp] theorem State.withRet_env (s : State) (x : Ret) : (s.withRet x).env = s.env := rfl
@[simp] theorem State.withRet_ret (s : State) (x : Ret) : (s.withRet x).ret = x := rfl
@[simp] theorem State.withRet_free (s : State) (x : Ret) : (s.withRet x).free = s.free := rfl

@[simp] theorem State.withFree_par (s : State) (x : Nat) : (s.withFree x).par = s.par := rfl
@[simp] theorem State.withFree_phase (s : State) (x : Nat) : (s.withFree x).phase = s.phase := rfl
@[simp] theorem State.withFree_mode (s : State) (x : Nat) : (s.withFree x).mode = s.mode := rfl
@[simp] theorem State.withFree_status (s : State) (x : Nat) : (s.withFree x).status = s.status := rfl
@[simp] theorem State.withFree_inCount (s : State) (x : Nat) : (s.withFree x).inCount = s.inCount := rfl
@[simp] theorem State.withFree_rc (s : State) (x : Nat) : (s.withFree x).rc = s.rc := rfl
@[simp] theorem State.withFree_st (s : State) (x : Nat) : (s.withFree x).st = s.st := rfl
@[simp] theorem State.withFree_sizeDefined (s : State) (x : Nat) : (s.withFree x).sizeDefined = s.sizeDefined := rfl
@[simp] theorem State.withFree_rem (s : State) (x : Nat) : (s.withFree x).rem = s.rem := rfl
@[simp] theorem State.withFree_cfg (s : State) (x : Nat) : (s.withFree x).cfg = s.cfg := rfl
@[simp] theorem State.withFree_c2 (s : State) (x : Nat) : (s.withFree x).c2 = s.c2 := rfl
@[simp] theorem State.withFree_prob (s : State) (x : Nat) : (s.withFree x).prob = s.prob := rfl
@[simp] theorem State.withFree_win (s : State) (x : Nat) : (s.withFree x).win = s.win := rfl
@[simp] theorem State.withFree_wait (s : State) (x : Nat) : (s.withFree x).wait = s.wait := rfl
@[simp] theorem State.withFree_env (s : State) (x : Nat) : (s.withFree x).env = s.env := rfl
@[simp] theorem State.withFree_ret (s : State) (x : Nat) : (s.withFree x).ret = s.ret := rfl
@[simp] theorem State.withFree_free (s : State) (x : Nat) : (s.withFree x).free = x := rfl

end Sys2Proof.Machine
end

