-- ==== Sys2Proof/Laws/Decoder.lean ====
section
/-! SUPPORT. What one decision of the range decoder can do: its frame, the input it takes, that it does not
depend on the FSM registers, and that it completes when it is fed. -/
namespace Sys2Proof.Machine

/-! ### The frame, and the frame as equations -/

/-- What the range decoder and its pulls may write, and nothing else. -/
def decodeFrame (s t : State) : Prop :=
  t = { s with
    rc := t.rc, prob := t.prob, inCount := t.inCount
    c2 := { s.c2 with compLeft := t.c2.compLeft }
    env := { s.env with src := t.env.src } }

theorem decodeFrame_iff {s t : State} : decodeFrame s t ↔
    t.par = s.par ∧ t.phase = s.phase ∧ t.mode = s.mode ∧ t.status = s.status ∧ t.st = s.st ∧
    t.sizeDefined = s.sizeDefined ∧ t.rem = s.rem ∧ t.cfg = s.cfg ∧
    t.c2 = { s.c2 with compLeft := t.c2.compLeft } ∧ t.win = s.win ∧ t.wait = s.wait ∧
    t.env = { s.env with src := t.env.src } ∧ t.ret = s.ret ∧ t.free = s.free := by
  cases s; cases t
  simp only [decodeFrame, State.mk.injEq]
  constructor
  · rintro ⟨h1, h2, h3, h4, -, -, h7, h8, h9, h10, h11, -, h13, h14, h15, h16, h17⟩
    exact ⟨h1, h2, h3, h4, h7, h8, h9, h10, h11, h13, h14, h15, h16, h17⟩
  · rintro ⟨h1, h2, h3, h4, h7, h8, h9, h10, h11, h13, h14, h15, h16, h17⟩
    exact ⟨h1, h2, h3, h4, trivial, trivial, h7, h8, h9, h10, h11, trivial, h13, h14, h15, h16, h17⟩

theorem decodeFrame.refl (s : State) : decodeFrame s s := rfl

theorem decodeFrame.trans {s t u : State} (h1 : decodeFrame s t) (h2 : decodeFrame t u) :
    decodeFrame s u := by
  rw [decodeFrame_iff] at *
  obtain ⟨a1, a2, a3, a4, a5, a6, a7, a8, a9, a10, a11, a12, a13, a14⟩ := h1
  obtain ⟨b1, b2, b3, b4, b5, b6, b7, b8, b9, b10, b11, b12, b13, b14⟩ := h2
  refine ⟨by rw [b1, a1], by rw [b2, a2], by rw [b3, a3], by rw [b4, a4], by rw [b5, a5], by rw [b6, a6],
    by rw [b7, a7], by rw [b8, a8], ?_, by rw [b10, a10], by rw [b11, a11], ?_, by rw [b13, a13],
    by rw [b14, a14]⟩
  · rw [b9, a9]
  · rw [b12, a12]

/-! ### Pulls that fail -/

theorem endCause_endFault (s : State) : endFault s = (causeKind (endCause s), endCause s) := by
  unfold endFault endCause sizeDone
  cases s.phase <;> simp [causeKind]
  split <;> rfl

/-- A pull raises exactly as `pullFails` says. -/
theorem pull_raised_iff {s t : State} : pull s = .raised t ↔ pullFails s t := by
  have ea : ∀ rest, takeAnswer rest (countPull s) = afterAnswer rest s := by
    intro rest
    cases h : limitActive s <;> simp [countPull, h, takeAnswer, afterAnswer, afterPulls] <;> rfl
  have ef : ∀ c x u, raiseState c x u = faulted (causeKind c) c x u := fun _ _ _ => rfl
  unfold pull pullFails raise
  by_cases hl : limitActive s = true ∧ s.c2.compLeft = 0#17
  · have hc : (limitActive s && s.c2.compLeft == 0#17) = true := by simp [hl]
    simp only [limitCause, hl.1, hl.2, ef]
    by_cases hp : s.phase = .rcinit <;> simp [hp, causeKind, eq_comm (a := t)]
  · have hc : (limitActive s && s.c2.compLeft == 0#17) = false := by
      simpa [Bool.and_eq_false_iff] using fun h => by simpa [h] using hl
    have hn : limitActive s = true → s.c2.compLeft ≠ 0#17 := fun h => by simpa [h] using hl
    simp only [hc, Bool.false_eq_true, if_false, ea, ef]
    cases hs : s.env.src with
    | nil => simp; tauto
    | cons a rest =>
      cases a with
      | byte b => simp; tauto
      | eof =>
        simp only [Res.raised.injEq, List.cons.injEq, endCause_endFault]
        constructor
        · rintro rfl
          exact .inr ⟨hn, rest, .inl ⟨⟨trivial, rfl⟩, rfl⟩⟩
        · rintro (⟨h1, h2, -⟩ | ⟨-, r, ⟨⟨-, rfl⟩, rfl⟩ | ⟨e, ⟨h, -⟩, -⟩⟩)
          · exact absurd ⟨h1, h2⟩ hl
          · rfl
          · cases h
      | err e =>
        simp only [Res.raised.injEq, List.cons.injEq]
        constructor
        · rintro rfl
          exact .inr ⟨hn, rest, .inr ⟨e, ⟨rfl, rfl⟩, rfl⟩⟩
        · rintro (⟨h1, h2, -⟩ | ⟨-, r, ⟨⟨h, -⟩, -⟩ | ⟨e', ⟨h, rfl⟩, rfl⟩⟩)
          · exact absurd ⟨h1, h2⟩ hl
          · cases h
          · cases h; rfl

/-! ### What a completed decision did -/

/-- The bytes decisions pulled: the front of what SRC answers, counted, also by the chunk limit, which has
room for them. -/
def tookBytes (s t : State) (bs : List Byte) : Prop :=
  s.env.src = bs.map .byte ++ t.env.src ∧ t.inCount = s.inCount + bs.length ∧
    (limitActive s = true → bs.length ≤ s.c2.compLeft.toNat) ∧
    t.c2 = (afterPulls bs.length t.env.src s).c2

@[simp] theorem afterPulls_c2 (n : Nat) (rest : List SrcAnswer) (s : State) :
    (afterPulls n rest s).c2 =
      if limitActive s then { s.c2 with compLeft := s.c2.compLeft - BitVec.ofNat 17 n } else s.c2 := rfl

@[simp] theorem afterPulls_env (n : Nat) (rest : List SrcAnswer) (s : State) :
    (afterPulls n rest s).env = { s.env with src := rest } := rfl

@[simp] theorem afterPulls_inCount (n : Nat) (rest : List SrcAnswer) (s : State) :
    (afterPulls n rest s).inCount = s.inCount + n := rfl

theorem limitActive_decodeFrame {s t : State} (h : decodeFrame s t) : limitActive t = limitActive s := by
  obtain ⟨-, h2, h3, -⟩ := decodeFrame_iff.mp h
  simp [limitActive, h2, h3]

theorem tookBytes.refl (s : State) : tookBytes s s [] := by
  cases h : limitActive s <;> simp [tookBytes, h]

/-- Bytes pulled one after the other. -/
theorem tookBytes.trans {s t u : State} {as bs : List Byte} (hf : decodeFrame s t)
    (h1 : tookBytes s t as) (h2 : tookBytes t u bs) : tookBytes s u (as ++ bs) := by
  obtain ⟨a1, a2, a3, a4⟩ := h1
  obtain ⟨b1, b2, b3, b4⟩ := h2
  have hl := limitActive_decodeFrame hf
  refine ⟨by rw [a1, b1]; simp, by rw [b2, a2]; simp; omega, ?_, ?_⟩
  · intro h
    have ha := a3 h
    have hb := b3 (by rw [hl, h])
    have hk := as.length.lt_two_pow_self
    have ec : t.c2.compLeft.toNat = s.c2.compLeft.toNat - as.length := by
      rw [a4]
      simp only [afterPulls_c2, h, if_true]
      have := s.c2.compLeft.isLt
      rw [BitVec.toNat_sub_of_le (by simp [BitVec.le_def]; omega)]
      simp
      omega
    rw [List.length_append]
    omega
  · rw [b4]
    simp only [afterPulls_c2, hl, a4]
    cases h : limitActive s
    · simp
    · simp only [if_true, List.length_append, BitVec.ofNat_add]
      rw [sub_add_eq_sub_sub]

/-- The whole effect, as a state. -/
theorem eq_of_tookBytes {s t : State} {bs : List Byte} (hf : decodeFrame s t) (h : tookBytes s t bs) :
    t = { afterPulls bs.length t.env.src s with rc := t.rc, prob := t.prob } := by
  obtain ⟨-, h2, -, h4⟩ := h
  obtain ⟨a1, a2, a3, a4, a5, a6, a7, a8, -, a10, a11, a12, a13, a14⟩ := decodeFrame_iff.mp hf
  cases t
  simp only [afterPulls_c2] at h4
  simp only [afterPulls, State.mk.injEq]
  exact ⟨a1, a2, a3, a4, h2, trivial, a5, a6, a7, a8, h4, trivial, a10, a11, a12, a13, a14⟩

/-- RC.NORM that completes either leaves everything, or pulls one byte and shifts. -/
theorem rcNorm_eq_ok {s t : State} (h : rcNorm s = .ok () t) :
    (Config.top ≤ s.rc.range ∧ t = s) ∨
    (s.rc.range < Config.top ∧ ∃ b rest, s.env.src = .byte b :: rest ∧
      (limitActive s = true → s.c2.compLeft ≠ 0#17) ∧
      t = ((takeAnswer rest (countPull s)).withInCount (s.inCount + 1)).withRc (rcShift b s.rc)) := by
  unfold rcNorm at h
  split at h
  · rename_i hr
    obtain ⟨b, s1, hp, h⟩ := Res.bind_eq_ok.mp h
    obtain ⟨rest, hs, hl, rfl⟩ := pull_eq_ok hp
    cases h
    refine .inr ⟨hr, b, rest, hs, hl, ?_⟩
    cases hc : limitActive s <;> simp [countPull, hc, takeAnswer]
  · rename_i hr
    cases h
    exact .inl ⟨by simpa [BitVec.not_lt] using hr, rfl⟩

theorem rcNorm_frame {s t : State} (h : rcNorm s = .ok () t) :
    decodeFrame s t ∧ t.prob = s.prob ∧ ∃ bs : List Byte, bs.length ≤ 1 ∧ tookBytes s t bs := by
  rcases rcNorm_eq_ok h with ⟨-, rfl⟩ | ⟨-, b, rest, hs, hl, rfl⟩
  · exact ⟨rfl, rfl, [], by simp, tookBytes.refl _⟩
  · refine ⟨?_, ?_, [b], by simp, ?_⟩
    · rw [decodeFrame_iff]
      cases hc : limitActive s <;> simp [countPull, hc, takeAnswer]
    · cases hc : limitActive s <;> simp [countPull, hc, takeAnswer]
    · cases hc : limitActive s <;> simp [tookBytes, countPull, hc, takeAnswer, hs]
      exact Nat.pos_of_ne_zero fun h0 => hl hc (BitVec.eq_of_toNat_eq h0)

/-- A decision on a slot: the bit, and RC.NORM of the state in which range, code and slot are updated. -/
theorem rcBit_eq_ok {T : Table} {i : Nat} {s t : State} {b : Bool} (h : rcBit T i s = .ok b t) :
    i < tableSize s.cfg T ∧ b = rcBitOf s.rc (probAt s T i) ∧ rcNorm (rcDecide T i s) = .ok () t := by
  unfold rcBit at h
  split at h
  · rename_i hi
    obtain ⟨_, s1, hn, h⟩ := Res.bind_eq_ok.mp h
    cases h
    exact ⟨hi, rfl, hn⟩
  · cases h

theorem rcDecide_frame (T : Table) (i : Nat) (s : State) : decodeFrame s (rcDecide T i s) := by
  rw [decodeFrame_iff]
  simp [rcDecide, probPut]

theorem rcBit_frame {T : Table} {i : Nat} {s t : State} {b : Bool} (h : rcBit T i s = .ok b t) :
    decodeFrame s t ∧
    t.prob = slotPut s.prob (tableBase T + i) (probAfter s.rc (probAt s T i)) ∧
    ∃ bs : List Byte, bs.length ≤ 1 ∧ tookBytes s t bs := by
  obtain ⟨-, -, hn⟩ := rcBit_eq_ok h
  obtain ⟨hf, hp, bs, hl, hb⟩ := rcNorm_frame hn
  refine ⟨(rcDecide_frame T i s).trans hf, ?_, bs, hl, ?_⟩
  · rw [hp]; simp [rcDecide, probPut]
  · exact hb

theorem rcDirectBit_eq_ok {s t : State} {b : Bool} (h : rcDirectBit s = .ok b t) :
    b = directBitOf s.rc ∧ rcNorm (s.withRc (directAfter s.rc)) = .ok () t := by
  obtain ⟨_, s1, hn, h⟩ := Res.bind_eq_ok.mp h
  cases h
  exact ⟨rfl, hn⟩

theorem rcDirectBit_frame {s t : State} {b : Bool} (h : rcDirectBit s = .ok b t) :
    decodeFrame s t ∧ t.prob = s.prob ∧ ∃ bs : List Byte, bs.length ≤ 1 ∧ tookBytes s t bs := by
  obtain ⟨-, hn⟩ := rcDirectBit_eq_ok h
  obtain ⟨hf, hp, bs, hl, hb⟩ := rcNorm_frame hn
  have h0 : decodeFrame s (s.withRc (directAfter s.rc)) := by rw [decodeFrame_iff]; simp
  exact ⟨h0.trans hf, by simpa using hp, bs, hl, hb⟩

/-! ### The decoder does not look at the FSM registers -/

/-- A result with other FSM registers. -/
def Res.setSt {α : Type} (x : Fsm) : Res α → Res α
  | .ok a s => .ok a (s.withSt x)
  | .raised s => .raised (s.withSt x)
  | .held => .held
  | .bad f => .bad f

theorem pull_withSt (x : Fsm) (s : State) : pull (s.withSt x) = (pull s).setSt x := by
  have e1 : limitActive (s.withSt x) = limitActive s := rfl
  have e2 : countPull (s.withSt x) = (countPull s).withSt x := by
    cases h : limitActive s <;> simp only [countPull, e1, h] <;> rfl
  simp only [pull, e1, e2, State.withSt_c2, State.withSt_env]
  split
  · rfl
  · split <;> rfl

theorem rcNorm_withSt (x : Fsm) (s : State) : rcNorm (s.withSt x) = (rcNorm s).setSt x := by
  simp only [rcNorm, State.withSt_rc, pull_withSt]
  split
  · cases h : pull s <;> simp only [Res.setSt, Res.bind]
    simp [State.withSt, State.withRc]
  · rfl

theorem rcBit_withSt (x : Fsm) (T : Table) (i : Nat) (s : State) :
    rcBit T i (s.withSt x) = (rcBit T i s).setSt x := by
  have e : rcDecide T i (s.withSt x) = (rcDecide T i s).withSt x := rfl
  simp only [rcBit, State.withSt_cfg, e, rcNorm_withSt, State.withSt_rc]
  split
  · cases rcNorm (rcDecide T i s) <;> rfl
  · rfl

theorem rcDirectBit_withSt (x : Fsm) (s : State) :
    rcDirectBit (s.withSt x) = (rcDirectBit s).setSt x := by
  have e : (s.withSt x).withRc (directAfter (s.withSt x).rc) =
    (s.withRc (directAfter s.rc)).withSt x := rfl
  simp only [rcDirectBit, e, rcNorm_withSt]
  cases rcNorm (s.withRc (directAfter s.rc)) <;> rfl

/-! ### Fed, a decision completes -/

theorem feeds_mono {n m : Nat} {s : State} (h : feeds n s = true) (hm : m ≤ n) : feeds m s = true := by
  simp only [feeds, Bool.and_eq_true, decide_eq_true_eq, Bool.or_eq_true, Bool.not_eq_true',
    List.all_eq_true] at h ⊢
  obtain ⟨⟨h1, h2⟩, h3⟩ := h
  refine ⟨⟨by omega, ?_⟩, ?_⟩
  · intro a ha
    exact h2 a (List.take_subset_take_left _ hm ha)
  · rcases h3 with h3 | h3
    · exact .inl h3
    · exact .inr (by omega)

/-- A fed machine has a byte at the front of what SRC answers, and room for it. -/
theorem feeds_succ {n : Nat} {s : State} (h : feeds (n + 1) s = true) :
    ∃ b rest, s.env.src = .byte b :: rest ∧ (limitActive s = true → s.c2.compLeft ≠ 0#17) ∧
      feeds n ((takeAnswer rest (countPull s)).withInCount (s.inCount + 1)) = true := by
  simp only [feeds, Bool.and_eq_true, decide_eq_true_eq, Bool.or_eq_true, Bool.not_eq_true',
    List.all_eq_true] at h ⊢
  obtain ⟨⟨h1, h2⟩, h3⟩ := h
  cases hs : s.env.src with
  | nil => simp [hs] at h1
  | cons a rest =>
    have ha := h2 a (by simp [hs])
    cases a with
    | byte b =>
      refine ⟨b, rest, rfl, ?_, ⟨?_, ?_⟩, ?_⟩
      · intro hl hc
        simp [hl, hc] at h3
      · simp [hs] at h1
        cases hc : limitActive s <;> simp [countPull, hc, takeAnswer] <;> omega
      · intro x hx
        refine h2 x ?_
        have hx' : x ∈ rest.take n := by
          cases hc : limitActive s <;> simpa [countPull, hc, takeAnswer] using hx
        simp [hs, hx']
      · cases hc : limitActive s with
        | false =>
          have e : countPull s = s := by simp [countPull, hc]
          rw [e]
          exact .inl hc
        | true =>
          refine .inr ?_
          simp only [hc, Bool.true_eq_false, false_or] at h3
          simp only [countPull, hc, takeAnswer]
          simp
          omega
    | eof => simp at ha
    | err e => simp at ha

end Sys2Proof.Machine
end

