-- ==== Sys2Proof/Laws/Decisions.lean ====
section
/-! SUPPORT. Runs of decisions: how they compose, how long the paths are, and the walk of a tree along its
path. -/
namespace Sys2Proof.Machine

/-! ### Composition -/

theorem decides_append (a b : List Decision) (s : State) :
    decides (a ++ b) s = (decides a s).bind (decides b) := by
  induction a generalizing s with
  | nil => rfl
  | cons d a ih =>
    cases d with
    | slot t i x =>
      simp only [List.cons_append, decides]
      cases rcBit t i s <;> simp
      split <;> simp [ih]
    | direct x =>
      simp only [List.cons_append, decides]
      cases rcDirectBit s <;> simp
      split <;> simp [ih]

theorem decides_slot {T : Table} {i : Nat} {b : Bool} {ds : List Decision} {s t : State} :
    decides (.slot T i b :: ds) s = some t ↔ ∃ u, rcBit T i s = .ok b u ∧ decides ds u = some t := by
  simp only [decides]
  cases h : rcBit T i s <;> simp

theorem decides_direct {b : Bool} {ds : List Decision} {s t : State} :
    decides (.direct b :: ds) s = some t ↔ ∃ u, rcDirectBit s = .ok b u ∧ decides ds u = some t := by
  simp only [decides]
  cases h : rcDirectBit s <;> simp

/-! ### Lengths -/

@[simp] theorem length_treePath (T : Table) (base m : Nat) (bs : List Bool) :
    (treePath T base m bs).length = bs.length := by
  induction bs generalizing m with
  | nil => rfl
  | cons b bs ih => simp [treePath, ih]

@[simp] theorem length_msbBits (n v : Nat) : (msbBits n v).length = n := by
  induction n <;> simp [msbBits, *]

@[simp] theorem length_lsbBits (n v : Nat) : (lsbBits n v).length = n := by
  induction n generalizing v <;> simp [lsbBits, *]

/-- A distance has one of 64 position slots. -/
theorem slotOf_lt (d : Word) : slotOf d.toNat < 64 := by
  unfold slotOf
  split
  · omega
  · have : d.toNat.log2 < 32 := (Nat.log2_lt (by omega)).mpr d.isLt
    omega

/-! ### Numbers and their bits -/

theorem foldl_bits (bs : List Bool) (m : Nat) :
    bs.foldl (fun v b => 2 * v + b.toNat) m = m * 2 ^ bs.length + msbValue bs := by
  unfold msbValue
  induction bs generalizing m with
  | nil => simp
  | cons b bs ih =>
    simp only [List.foldl_cons, List.length_cons, pow_succ]
    rw [ih, ih (2 * 0 + b.toNat)]
    ring

/-! ### Trees -/

/-- BT.DEC's walk along its path ends at the node the bits spell. -/
theorem btWalk_path {T : Table} {base : Nat} (bs : List Bool) {m : Nat} {s t : State}
    (h : decides (treePath T base m bs) s = some t) :
    btWalk T base bs.length m s = .ok (m * 2 ^ bs.length + msbValue bs) t := by
  rw [← foldl_bits]
  induction bs generalizing m s with
  | nil => cases h; rfl
  | cons b bs ih =>
    obtain ⟨u, h1, h2⟩ := decides_slot.mp h
    simp only [List.length_cons, btWalk, h1, Res.bind_ok, treeChild, List.foldl_cons]
    exact ih h2

/-- BT.RDEC's walk along its path adds each bit at its place. -/
theorem btRwalk_path {T : Table} {base : Nat} (bs : List Bool) {m i v : Nat} {s t : State}
    (h : decides (treePath T base m bs) s = some t) :
    btRwalk T base bs.length i m v s = .ok (v + 2 ^ i * lsbValue bs) t := by
  induction bs generalizing m i v s with
  | nil => cases h; simp [btRwalk, lsbValue]
  | cons b bs ih =>
    obtain ⟨u, h1, h2⟩ := decides_slot.mp h
    simp only [List.length_cons, btRwalk, h1, Res.bind_ok, treeChild]
    rw [ih h2]
    congr 1
    simp only [lsbValue, pow_succ]
    ring


/-! ### Decisions that fail -/

@[simp] theorem failsAfter_slot_zero {T : Table} {i : Nat} {b : Bool} {ds : List Decision} {s t : State} :
    failsAfter 0 (.slot T i b :: ds) s t ↔ rcBit T i s = .raised t := by
  simp [failsAfter, decides, decisionFails]

@[simp] theorem failsAfter_direct_zero {b : Bool} {ds : List Decision} {s t : State} :
    failsAfter 0 (.direct b :: ds) s t ↔ rcDirectBit s = .raised t := by
  simp [failsAfter, decides, decisionFails]

@[simp] theorem not_failsAfter_nil (k : Nat) (s t : State) : ¬ failsAfter k [] s t := by simp [failsAfter]

theorem failsAfter_slot_succ {k : Nat} {T : Table} {i : Nat} {b : Bool} {ds : List Decision} {s t : State} :
    failsAfter (k + 1) (.slot T i b :: ds) s t ↔ ∃ u, rcBit T i s = .ok b u ∧ failsAfter k ds u t := by
  simp only [failsAfter, List.getElem?_cons_succ, List.take_succ_cons, decides_slot]
  constructor
  · rintro ⟨d, v, h1, ⟨u, h2, h3⟩, h4⟩
    exact ⟨u, h2, d, v, h1, h3, h4⟩
  · rintro ⟨u, h2, d, v, h1, h3, h4⟩
    exact ⟨d, v, h1, ⟨u, h2, h3⟩, h4⟩

theorem failsAfter_direct_succ {k : Nat} {b : Bool} {ds : List Decision} {s t : State} :
    failsAfter (k + 1) (.direct b :: ds) s t ↔ ∃ u, rcDirectBit s = .ok b u ∧ failsAfter k ds u t := by
  simp only [failsAfter, List.getElem?_cons_succ, List.take_succ_cons, decides_direct]
  constructor
  · rintro ⟨d, v, h1, ⟨u, h2, h3⟩, h4⟩
    exact ⟨u, h2, d, v, h1, h3, h4⟩
  · rintro ⟨u, h2, d, v, h1, h3, h4⟩
    exact ⟨d, v, h1, ⟨u, h2, h3⟩, h4⟩

/-- The first decision fails, or it is made and a later one fails. -/
theorem failsAfter_slot {k : Nat} {T : Table} {i : Nat} {b : Bool} {ds : List Decision} {s t : State}
    (h : failsAfter k (.slot T i b :: ds) s t) :
    rcBit T i s = .raised t ∨ ∃ j u, k = j + 1 ∧ rcBit T i s = .ok b u ∧ failsAfter j ds u t := by
  cases k with
  | zero => exact .inl (failsAfter_slot_zero.mp h)
  | succ j =>
    obtain ⟨u, h1, h2⟩ := failsAfter_slot_succ.mp h
    exact .inr ⟨j, u, rfl, h1, h2⟩

/-- A run of decisions in two parts fails in the first, or is through with it and fails in the second. -/
theorem failsAfter_append {k : Nat} {a b : List Decision} {s t : State} :
    failsAfter k (a ++ b) s t ↔ (k < a.length ∧ failsAfter k a s t) ∨
      (a.length ≤ k ∧ ∃ u, decides a s = some u ∧ failsAfter (k - a.length) b u t) := by
  by_cases hk : k < a.length
  · have e : (a ++ b).take k = a.take k := List.take_append_of_le_length (by omega)
    have : ¬ a.length ≤ k := by omega
    simp only [hk, this, true_and, false_and, or_false, failsAfter, List.getElem?_append_left hk, e]
  · have e : (a ++ b).take k = a ++ b.take (k - a.length) := by
      rw [List.take_append, List.take_of_length_le (by omega)]
    have hk' : a.length ≤ k := by omega
    simp only [hk, hk', true_and, false_and, false_or, failsAfter, List.getElem?_append_right hk', e,
      decides_append, Option.bind_eq_some_iff]
    constructor
    · rintro ⟨d, v, h1, ⟨u, h2, h3⟩, h4⟩
      exact ⟨u, h2, d, v, h1, h3, h4⟩
    · rintro ⟨u, h2, d, v, h1, h3, h4⟩
      exact ⟨d, v, h1, ⟨u, h2, h3⟩, h4⟩

/-- BT.DEC's walk raises where a decision of its path does. -/
theorem btWalk_fails {T : Table} {base : Nat} (bs : List Bool) {k m : Nat} {s t : State}
    (h : failsAfter k (treePath T base m bs) s t) : btWalk T base bs.length m s = .raised t := by
  induction bs generalizing k m s with
  | nil => exact (not_failsAfter_nil _ _ _ h).elim
  | cons b bs ih =>
    rcases failsAfter_slot h with h1 | ⟨j, u, -, h1, h2⟩
    · simp [btWalk, h1]
    · simp only [List.length_cons, btWalk, h1, Res.bind_ok]
      exact ih h2

/-- BT.RDEC's walk raises where a decision of its path does. -/
theorem btRwalk_fails {T : Table} {base : Nat} (bs : List Bool) {k m i v : Nat} {s t : State}
    (h : failsAfter k (treePath T base m bs) s t) : btRwalk T base bs.length i m v s = .raised t := by
  induction bs generalizing k m i v s with
  | nil => exact (not_failsAfter_nil _ _ _ h).elim
  | cons b bs ih =>
    rcases failsAfter_slot h with h1 | ⟨j, u, -, h1, h2⟩
    · simp [btRwalk, h1]
    · simp only [List.length_cons, btRwalk, h1, Res.bind_ok]
      exact ih h2

/-- RC.DIRECT raises where one of its iterations does. -/
theorem rcDirect_fails (bs : List Bool) {k : Nat} {v : Word} {s t : State}
    (h : failsAfter k (bs.map .direct) s t) : rcDirect bs.length v s = .raised t := by
  induction bs generalizing k v s with
  | nil => exact (not_failsAfter_nil _ _ _ h).elim
  | cons b bs ih =>
    cases k with
    | zero => simp [rcDirect, failsAfter_direct_zero.mp h]
    | succ j =>
      obtain ⟨u, h1, h2⟩ := failsAfter_direct_succ.mp h
      simp only [List.length_cons, rcDirect, h1, Res.bind_ok]
      exact ih h2

/-- LEN.DEC raises where a decision of the path of some length index does. -/
theorem lenDec_fails {l : LenInst} {ps : BitVec 4} {n k : Nat} {s t : State}
    (h : failsAfter k (lenPath l ps n) s t) : lenDec l ps s = .raised t := by
  have tree : ∀ {T j bs u}, failsAfter j (treePath T 0 1 bs) u t →
      btDec T 0 bs.length u = .raised t := fun h => by simp [btDec, btWalk_fails _ h]
  unfold lenPath at h
  split at h
  · rcases failsAfter_slot h with h1 | ⟨j, u, -, h1, h2⟩
    · simp [lenDec, h1]
    · have := tree h2
      rw [length_msbBits] at this
      simp [lenDec, h1, this]
  · split at h <;>
      (rcases failsAfter_slot h with h1 | ⟨j, u, -, h1, h2⟩
       · simp [lenDec, h1]
       · rcases failsAfter_slot h2 with h3 | ⟨j, w, -, h3, h4⟩
         · simp [lenDec, h1, h3]
         · have := tree h4
           rw [length_msbBits] at this
           simp [lenDec, h1, h3, this])

/-- LIT.DEC raises where a decision of the path of some byte does. -/
theorem litDec_fails {ls k : Nat} {b : Byte} {s t : State} (h : failsAfter k (litPath ls b) s t) :
    litDec ls s = .raised t := by
  have := btWalk_fails _ h
  rw [length_msbBits] at this
  simp [litDec, litTable, Config.litSubtable, this]

/-- LIT.DECM's loop raises where a decision of its path does. -/
theorem litMatched_fails {base : Nat} {mb : Byte} (n v : Nat) {same : Bool} {k m : Nat} {s t : State}
    (h : failsAfter k (matchedPath base same m ((msbBits n mb.toNat).zip (msbBits n v))) s t) :
    litMatched base mb n same m s = .raised t := by
  induction n generalizing same k m s with
  | zero => cases same <;> simp [msbBits, matchedPath] at h
  | succ n ih =>
    have e : base + (1 + (mb.getLsbD n).toNat) * 2 ^ 8 + m = base + 0x100 * (1 + (mb.toNat.testBit n).toNat) + m := by
      rw [Nat.mul_comm]; rfl
    cases same <;> simp only [msbBits, List.zip_cons_cons, matchedPath] at h <;>
      rcases failsAfter_slot h with h1 | ⟨j, u, -, h1, h2⟩ <;> simp only [litMatched, e, h1]
    · rfl
    · exact ih h2
    · rfl
    · exact ih h2

/-- LIT.DECM raises where a decision of the path of some byte does. -/
theorem litDecm_fails {ls k : Nat} {mb b : Byte} {s t : State} (h : failsAfter k (litmPath ls mb b) s t) :
    litDecm ls mb s = .raised t := by
  simp [litDecm, litTable, Config.litSubtable, litMatched_fails 8 _ h]


/-! ### Decisions do not look at the FSM registers -/

theorem decides_withSt (x : Fsm) (ds : List Decision) {s t : State} (h : decides ds s = some t) :
    decides ds (s.withSt x) = some (t.withSt x) := by
  induction ds generalizing s with
  | nil => cases h; rfl
  | cons d ds ih =>
    cases d with
    | slot T i b =>
      obtain ⟨u, h1, h2⟩ := decides_slot.mp h
      exact decides_slot.mpr ⟨u.withSt x, by rw [rcBit_withSt, h1]; rfl, ih h2⟩
    | direct b =>
      obtain ⟨u, h1, h2⟩ := decides_direct.mp h
      exact decides_direct.mpr ⟨u.withSt x, by rw [rcDirectBit_withSt, h1]; rfl, ih h2⟩

theorem failsAfter_withSt (x : Fsm) {k : Nat} {ds : List Decision} {s t : State} (h : failsAfter k ds s t) :
    failsAfter k ds (s.withSt x) (t.withSt x) := by
  obtain ⟨d, u, h1, h2, h3⟩ := h
  refine ⟨d, u.withSt x, h1, decides_withSt x _ h2, ?_⟩
  cases d <;> simp only [decisionFails, rcBit_withSt, rcDirectBit_withSt] at h3 ⊢ <;> rw [h3] <;> rfl

end Sys2Proof.Machine
end

