-- ==== Sys2Proof/Laws/Window.lean ====
section
/-! SUPPORT. The window: where WIN.PUT moves the cursor, which cell a distance names before and after it, and
that WIN.PUT keeps the window's invariant. -/
namespace Sys2Proof.Machine

/-! ### The cursor -/

theorem putWin_pos (w : Win) (h : w.pos < w.size) (b : Byte) :
    (putWin b w).pos.toNat = (w.pos.toNat + 1) % w.size.toNat := by
  rw [BitVec.lt_def] at h
  have hs := w.size.isLt
  have e : (w.pos + 1#32).toNat = w.pos.toNat + 1 := by simp; omega
  simp only [putWin]
  by_cases hh : w.pos + 1#32 = w.size
  · have : w.pos.toNat + 1 = w.size.toNat := by rw [← hh, e]
    rw [if_pos (by simpa using hh)]
    simp [this]
  · have : w.pos.toNat + 1 ≠ w.size.toNat := fun hc => hh (BitVec.eq_of_toNat_eq (by rw [e, hc]))
    rw [if_neg (by simpa using hh), e, Nat.mod_eq_of_lt]
    omega

theorem putWin_isFull (w : Win) (h : w.pos < w.size) (b : Byte) :
    (putWin b w).isFull = (w.isFull || decide (w.size.toNat ≤ w.pos.toNat + 1)) := by
  rw [BitVec.lt_def] at h
  have hs := w.size.isLt
  have e : (w.pos + 1#32).toNat = w.pos.toNat + 1 := by simp; omega
  simp only [putWin, fullAfterPut]
  congr 1
  by_cases hh : w.pos + 1#32 = w.size
  · have : w.pos.toNat + 1 = w.size.toNat := by rw [← hh, e]
    simp [hh, this]
  · have h1 : w.pos.toNat + 1 ≠ w.size.toNat := fun hc => hh (BitVec.eq_of_toNat_eq (by rw [e, hc]))
    have h2 : ¬ (w.size.toNat ≤ w.pos.toNat + 1) := by omega
    simp only [h2, decide_false]
    simpa using hh

@[simp] theorem putWin_size (w : Win) (b : Byte) : (putWin b w).size = w.size := rfl
@[simp] theorem putWin_allocated (w : Win) (b : Byte) : (putWin b w).allocated = w.allocated := rfl
@[simp] theorem putWin_pending (w : Win) (b : Byte) : (putWin b w).pending = w.pending + 1 := rfl
@[simp] theorem putWin_totalPos (w : Win) (b : Byte) : (putWin b w).totalPos = w.totalPos + 1 := rfl
@[simp] theorem putWin_buf (w : Win) (b : Byte) : (putWin b w).buf = cellPut w.buf w.pos.toNat b := rfl

/-- How many cells a distance can reach after WIN.PUT: one more, until the window is full. -/
theorem winValid_putWin (w : Win) (h : w.pos < w.size) (b : Byte) :
    winValid (putWin b w) = if w.isFull then w.size.toNat else w.pos.toNat + 1 := by
  have hc := BitVec.lt_def.mp h
  unfold winValid
  rw [putWin_isFull w h, putWin_pos w h, putWin_size]
  by_cases hf : w.isFull = true
  · simp [hf]
  · by_cases hh : w.size.toNat ≤ w.pos.toNat + 1
    · simp [hf, hh]; omega
    · rw [Nat.mod_eq_of_lt (by omega)]
      simp [hf, hh]

/-! ### The cell a distance names -/

theorem winValid_le {w : Win} (h : w.pos < w.size) : winValid w ≤ w.size.toNat := by
  have := BitVec.lt_def.mp h
  unfold winValid
  split <;> omega

/-- Circular addressing as one remainder. -/
theorem winCell_eq {w : Win} (h : w.pos < w.size) {d : Nat} (h1 : 1 ≤ d) (h2 : d ≤ w.size.toNat) :
    winCell w d = (w.pos.toNat + w.size.toNat - d) % w.size.toNat := by
  have := BitVec.lt_def.mp h
  unfold winCell
  split
  · rw [show w.pos.toNat + w.size.toNat - d = (w.pos.toNat - d) + w.size.toNat by omega,
      Nat.add_mod_right, Nat.mod_eq_of_lt (by omega)]
  · rw [Nat.mod_eq_of_lt (by omega)]
    omega

theorem winCell_lt {w : Win} (h : w.pos < w.size) {d : Nat} (h1 : 1 ≤ d) (h2 : d ≤ w.size.toNat) :
    winCell w d < w.size.toNat := by
  have := BitVec.lt_def.mp h
  rw [winCell_eq h h1 h2]
  exact Nat.mod_lt _ (by omega)

/-- A distance shorter than the window never names the cell at the cursor. -/
theorem winCell_ne_pos {w : Win} (h : w.pos < w.size) {d : Nat} (h1 : 1 ≤ d) (h2 : d < w.size.toNat) :
    winCell w d ≠ w.pos.toNat := by
  have := BitVec.lt_def.mp h
  unfold winCell
  split <;> omega

/-- After WIN.PUT the cell at distance 1 is the one just written. -/
theorem winCell_putWin_one {w : Win} (h : w.pos < w.size) (b : Byte) :
    winCell (putWin b w) 1 = w.pos.toNat := by
  have := BitVec.lt_def.mp h
  unfold winCell
  rw [putWin_pos w h, putWin_size]
  by_cases hh : w.pos.toNat + 1 = w.size.toNat
  · rw [hh, Nat.mod_self, if_neg (by omega)]
    omega
  · rw [Nat.mod_eq_of_lt (by omega), if_pos (by omega)]
    omega

/-- After WIN.PUT every other distance is one more. -/
theorem winCell_putWin_succ {w : Win} (h : w.pos < w.size) (b : Byte) {d : Nat} (h1 : 1 ≤ d)
    (h2 : d < w.size.toNat) : winCell (putWin b w) (d + 1) = winCell w d := by
  have := BitVec.lt_def.mp h
  unfold winCell
  rw [putWin_pos w h, putWin_size]
  by_cases hh : w.pos.toNat + 1 = w.size.toNat
  · rw [hh, Nat.mod_self, if_neg (by omega)]
    split <;> omega
  · rw [Nat.mod_eq_of_lt (by omega)]
    split <;> split <;> omega

/-! ### WIN.GET and WIN.PUT -/

/-- WIN.GET reads what a distance can reach, and writes nothing. -/
theorem winGet_ok {s : State} (hw : WinOk s.win) {d : Nat} (h1 : 1 ≤ d) (h2 : d ≤ winValid s.win) :
    ∃ b, cellGet s.win.buf (winCell s.win d) = some b ∧ winGet d s = .ok b s := by
  obtain ⟨b, hb⟩ := Option.isSome_iff_exists.mp (hw.written d h1 h2)
  have := winCell_lt hw.cursor h1 (Nat.le_trans h2 (winValid_le hw.cursor))
  exact ⟨b, hb, by simp [winGet, h1, h2, memRead, this, hb]⟩

/-- What a WIN.GET that completes answers. -/
theorem winGet_eq_ok {d : Nat} {s t : State} {b : Byte} (h : winGet d s = .ok b t) :
    t = s ∧ 1 ≤ d ∧ d ≤ winValid s.win ∧ cellGet s.win.buf (winCell s.win d) = some b := by
  unfold winGet memRead at h
  split at h
  · rename_i hd
    split at h
    · split at h
      · rename_i hb
        cases h
        exact ⟨rfl, hd.1, hd.2, hb⟩
      · cases h
    · cases h
  · cases h

theorem winPut_ok {s : State} (h : s.win.pos < s.win.size) (b : Byte) :
    winPut b s = .ok () (s.withWin (putWin b s.win)) := by
  simp [winPut, h]

/-- One WIN.PUT, as `advanced` says it. -/
theorem advanced_putWin {w : Win} (h : w.pos < w.size) (b : Byte) : advanced w (putWin b w) 1 := by
  refine ⟨rfl, rfl, putWin_pos w h b, putWin_isFull w h b, rfl, rfl, ?_⟩
  intro a ha
  have hl := BitVec.lt_def.mp h
  have := ha 0 (by omega)
  simp only [cellAfter, Nat.add_zero, Nat.mod_eq_of_lt hl] at this
  exact cellGet_cellPut_other _ _ _ _ this

/-- The window's invariant says nothing more of fewer pending bytes. -/
theorem WinOk.lessPending {w : Win} (h : WinOk w) {n : Nat} (hn : n ≤ winValid w) :
    WinOk { w with pending := n } :=
  ⟨h.allocated, h.size, h.cursor, h.cells, h.inside, h.written, hn⟩

/-- WIN.PUT keeps the window's invariant while the pending bytes do not fill the window. -/
theorem WinOk.putWin {w : Win} (hw : WinOk w) (hp : w.pending < w.size.toNat) (b : Byte) :
    WinOk (putWin b w) := by
  have hc := BitVec.lt_def.mp hw.cursor
  have hv := winValid_putWin w hw.cursor b
  refine ⟨hw.allocated, hw.size, ?_, Memory.wf_cellPut _ _ hw.cells, ?_, ?_, ?_⟩
  · rw [BitVec.lt_def, putWin_pos w hw.cursor]
    exact Nat.mod_lt _ (by omega)
  · intro c hcm
    rcases mem_cellPut hcm with rfl | h
    · exact hc
    · exact hw.inside c h
  · intro d h1 h2
    obtain ⟨e, rfl⟩ : ∃ e, d = e + 1 := ⟨d - 1, by omega⟩
    rw [putWin_buf, cellGet_cellPut]
    split
    · rfl
    · rename_i hne
      rcases Nat.eq_zero_or_pos e with rfl | he
      · exact absurd (winCell_putWin_one hw.cursor b) hne
      · have he2 : e ≤ winValid w ∧ e < w.size.toNat := by
          rw [hv] at h2
          unfold winValid
          split at h2 <;> simp_all <;> omega
        rw [winCell_putWin_succ hw.cursor b he he2.2]
        exact hw.written e he he2.1
  · have := hw.pending
    rw [hv, putWin_pending]
    unfold winValid at this
    split at this <;> simp_all

end Sys2Proof.Machine
end

