-- ==== Sys2Proof/Laws/Ops.lean ====
section
/-! SUPPORT. One lemma for each way a shared operation can go: what it answers and what it writes. -/
namespace Sys2Proof.Machine

/-! ### Raise, and the checks of a header -/

/-- Every raise of a cause is `faulted` with the cause's kind. -/
theorem raiseState_eq (c : Cause) (x : Word) (s : State) :
    raiseState c x s = faulted (causeKind c) c x s := rfl

/-- A property byte the hardware takes. -/
theorem propCheck_legal {d : Byte} {s : State} (h : propsLegal s.par.litBitsCap d) :
    propCheck d s = .ok () s := by
  obtain ⟨h1, h2⟩ := h
  have e1 : ¬ Config.propLimit ≤ d := by simp [Config.propLimit, BitVec.le_def]; omega
  have e2 : ¬ s.par.litBitsCap < (propLc d).toNat + (propLp d).toNat := by
    simp [propLc, propLp]
    omega
  simp [propCheck, e1, e2]

/-- A property byte of 225 or more. -/
theorem propCheck_illegal {d : Byte} {s : State} (h : 225 ≤ d.toNat) :
    propCheck d s = raise .propsGe225 (d.setWidth 32) s := by
  have e1 : Config.propLimit ≤ d := by simp [Config.propLimit, BitVec.le_def]; omega
  simp [propCheck, e1]

/-- A property byte beyond the capacity of the literal table. -/
theorem propCheck_unsupported {d : Byte} {s : State} (h : d.toNat < 225)
    (h2 : s.par.litBitsCap < d.toNat % 9 + d.toNat / 9 % 5) :
    propCheck d s = raise .propsUnsupported (d.setWidth 32) s := by
  have e1 : ¬ Config.propLimit ≤ d := by simp [Config.propLimit, BitVec.le_def]; omega
  have e2 : s.par.litBitsCap < (propLc d).toNat + (propLp d).toNat := by
    simp [propLc, propLp]
    omega
  simp [propCheck, e1, e2]

theorem dictCheck_fits {d : Word} {s : State} (h : dictOf d ≤ s.par.winCap) :
    dictCheck d s = .ok (dictOf d) s := by
  have : ¬ s.par.winCap < clampDict d := BitVec.not_lt.mpr h
  simp only [dictCheck, this, if_false]
  rfl

theorem dictCheck_tooLarge {d : Word} {s : State} (h : s.par.winCap < dictOf d) :
    dictCheck d s = raise .dictTooLarge (dictOf d) s := by
  have : s.par.winCap < clampDict d := h
  simp only [dictCheck, this, if_true]
  rfl

/-! ### Sizes -/

/-- A stored size is the size minus 1 (30_encoding.md R90, R91). -/
theorem uncSizeOf_eq {w : Nat} (u : BitVec w) (h : w ≤ 21) : uncSizeOf u = BitVec.ofNat 22 (u.toNat + 1) := by
  have := u.isLt
  have h2 : 2 ^ w ≤ 2 ^ 21 := Nat.pow_le_pow_right (by omega) h
  apply BitVec.eq_of_toNat_eq
  simp [uncSizeOf]

theorem compSizeOf_eq (u : BitVec 16) : compSizeOf u = BitVec.ofNat 17 (u.toNat + 1) := by
  apply BitVec.eq_of_toNat_eq
  simp [compSizeOf]

/-! ### "decrement remaining count" -/

theorem useRem_eq (k : BitVec 64) (s : State) :
    useRem k s = s.withRem (if s.sizeDefined then s.rem - k else s.rem) := by
  unfold useRem
  split <;> rfl

/-! ### CHK_BACK -/

/-- With a window that fits the dictionary size CHK_BACK passes exactly for the distances the window
holds (43_state_machine.md R204, 10_state.md R26). -/
theorem backOk_iff {s : State} (hw : s.win.pos < s.win.size) (hd : s.cfg.dictSize = s.win.size) :
    backOk s = true ↔ s.st.rep0.toNat + 1 ≤ winValid s.win := by
  have hc := BitVec.lt_def.mp hw
  simp only [backOk, winReaches, winValid, Bool.and_eq_true, decide_eq_true_eq, Bool.or_eq_true, hd,
    BitVec.lt_def]
  split
  · rename_i hf
    simp only [hf, or_true, and_true]
    omega
  · rename_i hf
    simp only [hf, Bool.false_eq_true, or_false]
    omega

/-- A CHK_BACK that completes wrote nothing. -/
theorem chkBack_eq_ok {s t : State} (h : chkBack s = .ok () t) : backOk s = true ∧ t = s := by
  unfold chkBack at h
  split at h
  · rename_i hb
    cases h
    exact ⟨hb, rfl⟩
  · cases h

end Sys2Proof.Machine
end

