-- ==== Sys2Proof/Laws/PerInstr.lean ====
section
/-! SUPPORT. Per instruction: the format it is encoded in and how many words it has there (30_encoding.md R80
to R103): a primitive has no encoding, a host command is one transaction. -/
namespace Sys2Proof.Laws.EncodedLength

/-- The format of an operation, and its number of words: bytes, decoded bits, or one transaction. -/
def formatOf : Instr → Option (Format × Nat)
  | .c2Eos => some (.c2, 1)
  | .c2Rawd _ => some (.c2, 3)
  | .c2Raw _ => some (.c2, 3)
  | .c2Lzma0 _ _ => some (.c2, 5)
  | .c2Lzma1 _ _ => some (.c2, 5)
  | .c2Lzma2 _ _ _ => some (.c2, 6)
  | .c2Lzma3 _ _ _ => some (.c2, 6)
  | .c2Ill _ => some (.c2, 1)
  | .hdr1 _ _ _ => some (.hdr1, 13)
  | .rcInit _ _ => some (.prologue, 5)
  | .propDec _ => some (.prop, 1)
  | .lit => some (.sym, 1)
  | .simpleMatch => some (.sym, 2)
  | .eos => some (.sym, 42)
  | .srep => some (.sym, 4)
  | .rep0 => some (.sym, 4)
  | .rep1 => some (.sym, 4)
  | .rep2 => some (.sym, 5)
  | .rep3 => some (.sym, 5)
  | .cmdReset => some (.host, 1)
  | .cmdStartLzma1 => some (.host, 1)
  | .cmdStartRaw _ _ _ _ _ => some (.host, 1)
  | .cmdStartLzma2 _ => some (.host, 1)
  | .cmdReopen _ _ _ _ _ _ => some (.host, 1)
  | .rcNorm => none
  | .rcBit _ _ => none
  | .rcDirect _ => none
  | .rcFinok => none
  | .btDec _ _ _ => none
  | .btRdec _ _ _ => none
  | .btReset _ => none
  | .lenDec _ _ => none
  | .lenReset _ => none
  | .litDec _ => none
  | .litDecm _ _ => none
  | .distDec _ => none
  | .smReset => none
  | .chkBack => none
  | .copy _ => none
  | .winInit _ => none
  | .winPut _ => none
  | .winGet _ => none
  | .winChk _ => none
  | .winCopy _ _ => none
  | .winEmpty => none
  | .winHasPending => none
  | .winDrain => none
  | .winReset => none
  | .rawCopy => none
  | .chunkEnd => none
  | .construct _ _ _ _ _ _ _ => none

/-- How many words. -/
def count : Words → Nat
  | .bytes bs => bs.length
  | .bits bs => bs.length
  | .port _ => 1

/-- An operation is encoded in its format, with as many words as the format has for it. -/
def Statement (i : Instr) : Prop := (encode i).map (fun p => (p.1, count p.2)) = formatOf i

theorem c2Eos : Statement (.c2Eos) := rfl
theorem c2Rawd : ∀ a, Statement (.c2Rawd a) := fun _ => rfl
theorem c2Raw : ∀ a, Statement (.c2Raw a) := fun _ => rfl
theorem c2Lzma0 : ∀ a b, Statement (.c2Lzma0 a b) := fun _ _ => rfl
theorem c2Lzma1 : ∀ a b, Statement (.c2Lzma1 a b) := fun _ _ => rfl
theorem c2Lzma2 : ∀ a b c, Statement (.c2Lzma2 a b c) := fun _ _ _ => rfl
theorem c2Lzma3 : ∀ a b c, Statement (.c2Lzma3 a b c) := fun _ _ _ => rfl
theorem c2Ill : ∀ a, Statement (.c2Ill a) := fun _ => rfl
theorem hdr1 : ∀ a b c, Statement (.hdr1 a b c) := fun _ _ _ => rfl
theorem rcInit : ∀ a b, Statement (.rcInit a b) := fun _ _ => rfl
theorem propDec : ∀ a, Statement (.propDec a) := fun _ => rfl
theorem lit : Statement (.lit) := rfl
theorem simpleMatch : Statement (.simpleMatch) := rfl
theorem eos : Statement (.eos) := rfl
theorem srep : Statement (.srep) := rfl
theorem rep0 : Statement (.rep0) := rfl
theorem rep1 : Statement (.rep1) := rfl
theorem rep2 : Statement (.rep2) := rfl
theorem rep3 : Statement (.rep3) := rfl
theorem cmdReset : Statement (.cmdReset) := rfl
theorem cmdStartLzma1 : Statement (.cmdStartLzma1) := rfl
theorem cmdStartRaw : ∀ a b c d e, Statement (.cmdStartRaw a b c d e) := fun _ _ _ _ _ => rfl
theorem cmdStartLzma2 : ∀ a, Statement (.cmdStartLzma2 a) := fun _ => rfl
theorem cmdReopen : ∀ a b c d e f, Statement (.cmdReopen a b c d e f) := fun _ _ _ _ _ _ => rfl
theorem rcNorm : Statement (.rcNorm) := rfl
theorem rcBit : ∀ a b, Statement (.rcBit a b) := fun _ _ => rfl
theorem rcDirect : ∀ a, Statement (.rcDirect a) := fun _ => rfl
theorem rcFinok : Statement (.rcFinok) := rfl
theorem btDec : ∀ a b c, Statement (.btDec a b c) := fun _ _ _ => rfl
theorem btRdec : ∀ a b c, Statement (.btRdec a b c) := fun _ _ _ => rfl
theorem btReset : ∀ a, Statement (.btReset a) := fun _ => rfl
theorem lenDec : ∀ a b, Statement (.lenDec a b) := fun _ _ => rfl
theorem lenReset : ∀ a, Statement (.lenReset a) := fun _ => rfl
theorem litDec : ∀ a, Statement (.litDec a) := fun _ => rfl
theorem litDecm : ∀ a b, Statement (.litDecm a b) := fun _ _ => rfl
theorem distDec : ∀ a, Statement (.distDec a) := fun _ => rfl
theorem smReset : Statement (.smReset) := rfl
theorem chkBack : Statement (.chkBack) := rfl
theorem copy : ∀ a, Statement (.copy a) := fun _ => rfl
theorem winInit : ∀ a, Statement (.winInit a) := fun _ => rfl
theorem winPut : ∀ a, Statement (.winPut a) := fun _ => rfl
theorem winGet : ∀ a, Statement (.winGet a) := fun _ => rfl
theorem winChk : ∀ a, Statement (.winChk a) := fun _ => rfl
theorem winCopy : ∀ a b, Statement (.winCopy a b) := fun _ _ => rfl
theorem winEmpty : Statement (.winEmpty) := rfl
theorem winHasPending : Statement (.winHasPending) := rfl
theorem winDrain : Statement (.winDrain) := rfl
theorem winReset : Statement (.winReset) := rfl
theorem rawCopy : Statement (.rawCopy) := rfl
theorem chunkEnd : Statement (.chunkEnd) := rfl
theorem construct : ∀ a b c d e f g, Statement (.construct a b c d e f g) := fun _ _ _ _ _ _ _ => rfl

end Sys2Proof.Laws.EncodedLength
end

