-- ==== Sys2Proof/Laws/Slots.lean ====
section
/-! SUPPORT. Slots of PROB: two names of slots never share a key, so writing one slot leaves every other alone;
and decisions that are fed complete. -/
namespace Sys2Proof.Machine

/-! ### Keys -/

/-- Slots of different tables have different keys (20_memory.md R54: the tables do not overlap). -/
theorem slotKey_ne {cfg : Cfg} {T T' : Table} {i j : Nat} (h : T ≠ T') (hi : i < tableSize cfg T)
    (hj : j < tableSize cfg T') : tableBase T + i ≠ tableBase T' + j := by
  have inj4 : ∀ a b : BitVec 4, a.toNat = b.toNat → a = b := fun _ _ => BitVec.eq_of_toNat_eq
  have inj2 : ∀ a b : BitVec 2, a.toNat = b.toNat → a = b := fun _ _ => BitVec.eq_of_toNat_eq
  intro e
  cases T <;> cases T' <;> (try casesm* LenInst) <;>
    simp only [tableBase, tableSize, Table.maxSize, lenBase] at e hi hj <;>
    first
    | exact h rfl
    | omega
    | (apply h; congr 1; (first | apply inj4 | apply inj2); omega)

/-- A written slot holds what was written; every other slot of a table holds what it held. -/
theorem probAt_probPut {s : State} {T T' : Table} {i j : Nat} (p : BitVec 11)
    (hi : i < tableSize s.cfg T) (hj : j < tableSize s.cfg T') :
    probAt (probPut T i p s) T' j = if T' = T ∧ j = i then p else probAt s T' j := by
  simp only [probAt, probPut, State.withProb_prob, slotGet_slotPut]
  by_cases hT : T' = T
  · subst hT
    by_cases h : j = i
    · simp [h]
    · rw [if_neg (by omega), if_neg (fun hh => h hh.2)]
  · rw [if_neg (slotKey_ne hT hj hi), if_neg (fun hh => hT hh.1)]

/-! ### Fed, a decision completes -/

/-- Whether a state is fed depends on the port and the chunk limit only. -/
theorem feeds_congr {s t : State} (h1 : t.env.src = s.env.src) (h2 : t.c2.compLeft = s.c2.compLeft)
    (h3 : limitActive t = limitActive s) (n : Nat) : feeds n t = feeds n s := by
  simp [feeds, h1, h2, h3]

theorem rcNorm_fed {n : Nat} {s : State} (h : feeds (n + 1) s = true) :
    ∃ t, rcNorm s = .ok () t ∧ feeds n t = true := by
  obtain ⟨b, rest, h1, h2, h3⟩ := feeds_succ h
  unfold rcNorm
  split
  · rw [pull_byte h1 h2]
    exact ⟨_, rfl, by rw [← h3]; exact feeds_congr rfl rfl rfl n⟩
  · exact ⟨s, rfl, feeds_mono h (by omega)⟩

theorem rcBit_fed {n : Nat} {s : State} (h : feeds (n + 1) s = true) {T : Table} {i : Nat}
    (hi : i < tableSize s.cfg T) :
    ∃ b t, rcBit T i s = .ok b t ∧ feeds n t = true ∧ t.cfg = s.cfg := by
  obtain ⟨t, h1, h2⟩ := rcNorm_fed (s := rcDecide T i s) (by rw [← h]; exact feeds_congr rfl rfl rfl _)
  have hb : rcBit T i s = .ok (rcBitOf s.rc (probAt s T i)) t := by simp [rcBit, hi, h1]
  exact ⟨_, t, hb, h2, (decodeFrame_iff.mp (rcBit_frame hb).1).2.2.2.2.2.2.2.1⟩

theorem rcDirectBit_fed {n : Nat} {s : State} (h : feeds (n + 1) s = true) :
    ∃ b t, rcDirectBit s = .ok b t ∧ feeds n t = true ∧ t.cfg = s.cfg := by
  obtain ⟨t, h1, h2⟩ := rcNorm_fed (s := s.withRc (directAfter s.rc))
    (by rw [← h]; exact feeds_congr rfl rfl rfl _)
  have hb : rcDirectBit s = .ok (directBitOf s.rc) t := by simp [rcDirectBit, h1]
  exact ⟨_, t, hb, h2, (decodeFrame_iff.mp (rcDirectBit_frame hb).1).2.2.2.2.2.2.2.1⟩

end Sys2Proof.Machine
end

