-- ==== Sys2Proof/Laws/Step.lean ====
section
/-! SUPPORT. What a step is: whose move it is and which rule runs; the shared operations that write a memory keep
its canonical form; the memories at power-on have it. -/
namespace Sys2Proof.Machine

/-! ### Whose move it is -/

theorem step_listed {s : State} {t : Turn} {ts : List Turn} (h : s.env.turns = t :: ts) :
    step s = takeTurn t (s.withEnv { s.env with turns := ts }) := by
  simp [step, stepTurn, nextTurn, h]

theorem step_unlisted {s : State} (h : s.env.turns = []) : step s = takeTurn (freeTurn s) s := by
  simp [step, stepTurn, nextTurn, h]

theorem withEnv_no_turns {s : State} (h : s.env.turns = []) : s.withEnv { s.env with turns := [] } = s := by
  rw [← h]; rfl

/-- CORE's move, listed or free. -/
theorem step_of_coreMoves {s : State} {ts : List Turn} (h : coreMoves ts s) :
    step s = coreTurn (s.withEnv { s.env with turns := ts }) := by
  rcases h with h | ⟨h, rfl, hf⟩
  · exact step_listed h
  · rw [step_unlisted h, freeTurn, hf, withEnv_no_turns h]
    rfl

/-- SNK's move, listed or free. -/
theorem step_of_snkMoves {s : State} {ts : List Turn} (h : snkMoves ts s) :
    step s = snkTurn (s.withEnv { s.env with turns := ts }) := by
  rcases h with h | ⟨h, rfl, hf⟩
  · exact step_listed h
  · rw [step_unlisted h, freeTurn, hf, withEnv_no_turns h]
    rfl

theorem step_core {s : State} {ts : List Turn} (h : coreMoves ts s) (hw : s.wait = none) :
    step s = corePhase (atTurn ts s) := by
  rw [step_of_coreMoves h]
  simp only [coreTurn, onHold, State.withEnv_wait, hw]
  rfl

theorem step_waiting {s : State} {ts : List Turn} {w : Wait} (h : coreMoves ts s)
    (hw : s.wait = some w) :
    step s = if s.win.pending = 0 then .next (resume w (atTurn ts s))
      else .next (onHold .snk (atTurn ts s)) := by
  rw [step_of_coreMoves h]
  simp only [coreTurn, onHold, State.withEnv_wait, hw]
  rfl

/-- A move of CORE is one of these: it resumes, it waits for another agent, it ends the pass, or it runs
what it fetched. -/
theorem coreTurn_cases (s : State) :
    (∃ w, s.wait = some w ∧ s.win.pending = 0 ∧ coreTurn s = .next (resume w (onHold .none s))) ∨
    (∃ h, coreTurn s = .next (onHold h (onHold .none s))) ∨
    (s.wait = none ∧ s.phase = .run ∧
      coreTurn s = settle (onHold .none s) (stop .endSize (onHold .none s))) ∨
    (s.wait = none ∧ s.phase = .c2raw ∧
      coreTurn s = afterExec (onHold .none s) (exec .rawCopy (onHold .none s))) ∨
    (s.wait = none ∧ ∃ r, coreTurn s = execFetched (onHold .none s) r ∧
      (s.phase = .hdr1 ∧ r = fetchHdr1 (onHold .none s) ∨
       s.phase = .rcinit ∧ r = fetchPrologue (onHold .none s) ∨
       s.phase = .run ∧ r = fetchSymbol (onHold .none s) ∨
       s.phase = .c2ctrl ∧ r = fetchChunk (onHold .none s) ∨
       s.phase = .c2hdr ∧ r = fetchC2Rest s.c2.ctrl (onHold .none s))) := by
  have e1 : (onHold .none s).wait = s.wait := rfl
  have e2 : (onHold .none s).phase = s.phase := rfl
  have e3 : (onHold .none s).win = s.win := rfl
  have e4 : (onHold .none s).c2 = s.c2 := rfl
  unfold coreTurn
  simp only [e1, e3]
  cases hw : s.wait with
  | some w =>
    by_cases hp : s.win.pending = 0
    · exact .inl ⟨w, rfl, hp, by simp [hp]⟩
    · exact .inr (.inl ⟨.snk, by simp [hp]⟩)
  | none =>
    unfold corePhase
    simp only [e2, e3, e4]
    cases hp : s.phase with
    | idle => exact .inr (.inl ⟨.host, rfl⟩)
    | done => exact .inr (.inl ⟨.host, rfl⟩)
    | fault => exact .inr (.inl ⟨.host, rfl⟩)
    | hdr1 => exact .inr (.inr (.inr (.inr ⟨trivial, _, rfl, .inl ⟨rfl, rfl⟩⟩)))
    | rcinit => exact .inr (.inr (.inr (.inr ⟨trivial, _, rfl, .inr (.inl ⟨rfl, rfl⟩)⟩)))
    | c2ctrl => exact .inr (.inr (.inr (.inr ⟨trivial, _, rfl, .inr (.inr (.inr (.inl ⟨rfl, rfl⟩)))⟩)))
    | c2hdr => exact .inr (.inr (.inr (.inr ⟨trivial, _, rfl, .inr (.inr (.inr (.inr ⟨rfl, rfl⟩)))⟩)))
    | c2raw => exact .inr (.inr (.inr (.inl ⟨trivial, rfl, rfl⟩)))
    | run =>
      by_cases hq : s.win.pending = 0
      · simp only [hq, if_true, runPass]
        split
        · exact .inr (.inr (.inl ⟨trivial, trivial, rfl⟩))
        · exact .inr (.inr (.inr (.inr ⟨trivial, _, rfl, .inr (.inr (.inl ⟨trivial, rfl⟩))⟩)))
      · exact .inr (.inl ⟨.snk, by simp [hq]⟩)

/-! ### The memories keep their canonical form -/

theorem State.reset_memories : Memory.wf State.reset.win.buf = true ∧ ProbMem.wf State.reset.prob = true :=
  ⟨rfl, rfl⟩

theorem winPut_wf {b : Byte} {s t : State} (h : winPut b s = .ok () t)
    (hm : Memory.wf s.win.buf = true) : Memory.wf t.win.buf = true := by
  unfold winPut at h
  split at h
  · cases h
    exact Memory.wf_cellPut _ _ hm
  · cases h

theorem winCopy_wf {dist : Nat} (n : Nat) {s t : State} (h : winCopy dist n s = .ok () t)
    (hm : Memory.wf s.win.buf = true) : Memory.wf t.win.buf = true := by
  induction n generalizing s with
  | zero => cases h; exact hm
  | succ n ih =>
    obtain ⟨b, s1, h1, h⟩ := Res.bind_eq_ok.mp h
    obtain ⟨u, s2, h2, h⟩ := Res.bind_eq_ok.mp h
    cases u
    rw [(winGet_eq_ok h1).1] at h2
    exact ih h (winPut_wf h2 hm)

theorem winInit_wf (size : Word) (s : State) : Memory.wf (winInit size s).win.buf = true := rfl

theorem winReset_wf {s : State} (hm : Memory.wf s.win.buf = true) :
    Memory.wf (winReset s).win.buf = true := hm

theorem probPut_wf {s : State} (T : Table) (i : Nat) (p : BitVec 11) (hm : ProbMem.wf s.prob = true) :
    ProbMem.wf (probPut T i p s).prob = true := ProbMem.wf_slotPut _ _ hm

theorem tableReset_wf {s : State} (T : Table) (hm : ProbMem.wf s.prob = true) :
    ProbMem.wf (tableReset T s).prob = true := ProbMem.wf_cellDrop _ _ hm

theorem lenReset_wf {s : State} (l : LenInst) (hm : ProbMem.wf s.prob = true) :
    ProbMem.wf (lenReset l s).prob = true := ProbMem.wf_cellDrop _ _ hm

theorem smReset_wf (s : State) : ProbMem.wf (smReset s).prob = true := rfl

theorem rcBit_wf {T : Table} {i : Nat} {s t : State} {b : Bool} (h : rcBit T i s = .ok b t)
    (hm : ProbMem.wf s.prob = true) : ProbMem.wf t.prob = true := by
  rw [(rcBit_frame h).2.1]
  exact ProbMem.wf_slotPut _ _ hm

end Sys2Proof.Machine
end

