-- ==== Sys2Proof/Tests/Slice0.lean ====
section
/-! SUPPORT. The model's own tests. Part 1: ill-formed terms are refused. Part 2: words written out from
30_encoding.md decode to what they stand for. Part 3: single steps; every expected value is one the spec
prints (worked examples of the rules, traces P1 to P4 of 95_test_vectors.md). Part 4: for every obligation
with hypotheses, a state that meets them. -/
namespace Sys2Proof.Tests

set_option Elab.async false

open Sys2Proof.Machine

/-! ### Part 1. Ill-formed terms -/

theorem test_wf_c2Ill_low : (Instr.c2Ill 2#8).wf = false := by decide
theorem test_wf_c2Ill_high : (Instr.c2Ill 0x80#8).wf = false := by decide
theorem test_wf_rcBit : (Instr.rcBit .isRep 12).wf = false := by decide
theorem test_wf_rcDirect : (Instr.rcDirect 33).wf = false := by decide
theorem test_wf_btDec_width : (Instr.btDec .align 0 4).wf = false := by decide
theorem test_wf_btDec_table : (Instr.btDec (.posSlot 0#2) 1 6).wf = false := by decide
theorem test_wf_btRdec_width : (Instr.btRdec .posDec 0 6).wf = false := by decide
theorem test_wf_btRdec_table : (Instr.btRdec .align 1 4).wf = false := by decide
theorem test_wf_litDec : (Instr.litDec 4096).wf = false := by decide
theorem test_wf_litDecm : (Instr.litDecm 4096 0#8).wf = false := by decide
theorem test_wf_distDec : (Instr.distDec 272).wf = false := by decide
theorem test_wf_copy : (Instr.copy 272).wf = false := by decide
theorem test_wf_winInit : (Instr.winInit 4095#32).wf = false := by decide
theorem test_wf_winGet : (Instr.winGet 0).wf = false := by decide
theorem test_wf_winChk : (Instr.winChk 0).wf = false := by decide
theorem test_wf_winCopy_dist : (Instr.winCopy 0 5).wf = false := by decide
theorem test_wf_winCopy_length : (Instr.winCopy 1 274).wf = false := by decide
theorem test_wf_construct : (Instr.construct 9#4 0#3 0#3 4096#32 false 0#64 false).wf = false := by decide
theorem test_wf_construct_dict : (Instr.construct 3#4 0#3 2#3 4095#32 false 0#64 false).wf = false := by
  decide
theorem test_wf_newMatch : (SymCode.newMatch 272 0#32).wf = false := by decide
theorem test_wf_rep : (SymCode.rep 0#2 272).wf = false := by decide

/-! ### Part 2. Words -/

/-- R88: control `00000000`. -/
theorem test_decode_c2Eos : decode .c2 (.bytes [0b00000000#8]) = .ok .c2Eos := by decide
/-- R89, R90: control `00000001`, size minus 1 big-endian. -/
theorem test_decode_c2Rawd :
    decode .c2 (.bytes [0b00000001#8, 0b00010010#8, 0b00110100#8]) = .ok (.c2Rawd 0x1234#16) := by decide
/-- R89: control `00000010`. -/
theorem test_decode_c2Raw :
    decode .c2 (.bytes [0b00000010#8, 0b00000000#8, 0b00000000#8]) = .ok (.c2Raw 0#16) := by decide
/-- R88, R90, R91: control `100sssss` with s = 00001. -/
theorem test_decode_c2Lzma0 :
    decode .c2 (.bytes [0b10000001#8, 0x02#8, 0x03#8, 0x04#8, 0x05#8]) =
      .ok (.c2Lzma0 0x010203#21 0x0405#16) := by decide
/-- R88: control `101sssss`. -/
theorem test_decode_c2Lzma1 :
    decode .c2 (.bytes [0b10100000#8, 0x00#8, 0x03#8, 0x00#8, 0x06#8]) = .ok (.c2Lzma1 3#21 6#16) := by
  decide
/-- 95_test_vectors.md P4, second chunk. -/
theorem test_decode_c2Lzma2 :
    decode .c2 (.bytes [0b11000000#8, 0x00#8, 0x04#8, 0x00#8, 0x06#8, 0x5D#8]) =
      .ok (.c2Lzma2 4#21 6#16 0x5D#8) := by decide
/-- R88: control `111sssss` with s = 11111. -/
theorem test_decode_c2Lzma3 :
    decode .c2 (.bytes [0b11111111#8, 0x00#8, 0x00#8, 0xFF#8, 0xFF#8, 0x00#8]) =
      .ok (.c2Lzma3 0x1F0000#21 0xFFFF#16 0#8) := by decide
/-- R93: 0x03 and 0x7F are illegal, with no header bytes. -/
theorem test_decode_c2Ill :
    decode .c2 (.bytes [0b00000011#8]) = .ok (.c2Ill 3#8) ∧
    decode .c2 (.bytes [0b01111111#8]) = .ok (.c2Ill 0x7F#8) := by decide
/-- The header of P2: dictionary size 4096 and declared size 3, little-endian (R81). -/
theorem test_decode_hdr1 :
    decode .hdr1 (.bytes [0x5D#8, 0x00#8, 0x10#8, 0x00#8, 0x00#8, 0x03#8, 0x00#8, 0x00#8, 0x00#8, 0x00#8,
      0x00#8, 0x00#8, 0x00#8]) = .ok (.hdr1 0x5D#8 0x1000#32 3#64) := by decide
/-- The prologue of P2, big-endian (R82). -/
theorem test_decode_rcInit :
    decode .prologue (.bytes [0x00#8, 0x30#8, 0x98#8, 0x88#8, 0x90#8]) = .ok (.rcInit 0#8 0x30988890#32) := by
  decide
theorem test_decode_propDec : decode .prop (.bytes [0x5D#8]) = .ok (.propDec 0x5D#8) := by decide
/-- R94: the seven prefixes. -/
theorem test_decode_prefixes :
    decode .sym (.bits [false]) = .ok .lit ∧
    decode .sym (.bits [true, false]) = .ok .simpleMatch ∧
    decode .sym (.bits [true, true, false, false]) = .ok .srep ∧
    decode .sym (.bits [true, true, false, true]) = .ok .rep0 ∧
    decode .sym (.bits [true, true, true, false]) = .ok .rep1 ∧
    decode .sym (.bits [true, true, true, true, false]) = .ok .rep2 ∧
    decode .sym (.bits [true, true, true, true, true]) = .ok .rep3 := by decide
/-- P1: `1 0`, length code `0 000`, slot 63, 26 direct bits, align 15: 38 bits after the prefix and length
prefix; distance 0xFFFFFFFF is EOS (R98). -/
theorem test_decode_eos :
    decode .sym (.bits ([true, false] ++ [false, false, false, false] ++ List.replicate 36 true)) =
      .ok .eos := by decide
/-- 42_literal_distance.md R168: slot 6 = `000110`, reverse bits 1 then 0: distance 9. R169: slot 14 =
`001110`, direct bits 1, 0, align bits 1, 0, 0, 1: distance 0xA9. -/
theorem test_decode_distances :
    takeDist [false, false, false, true, true, false, true, false] = some (9#32, []) ∧
    takeDist [false, false, true, true, true, false, true, false, true, false, false, true] =
      some (0xA9#32, []) := by decide
/-- 41_bittree_length.md R144: `1 1` and eight ones give 271. -/
theorem test_decode_length : takeLen (List.replicate 10 true) = some (271, []) := by decide
theorem test_decode_host :
    decode .host (.port { code := 0 }) = .ok .cmdReset ∧
    decode .host (.port { code := 1 }) = .ok .cmdStartLzma1 ∧
    decode .host (.port { code := 2, prop := 0x5D#8, dict := 0x100000#32 }) =
      .ok (.cmdStartRaw 0x5D#8 0x100000#32 false 0#64 false) ∧
    decode .host (.port { code := 3, dict := 4096#32 }) = .ok (.cmdStartLzma2 4096#32) ∧
    decode .host
      (.port { code := 4, sizeDefined := true, size := 3#64, resetState := true, resetDict := true }) =
      .ok (.cmdReopen true 3#64 true false 0#8 true) := by decide
/-- The decoder rejects by name. -/
theorem test_decode_rejects :
    decode .c2 (.bytes [0x01#8, 0x00#8]) = .error .truncated ∧
    decode .c2 (.bytes [0x00#8, 0x00#8]) = .error .trailing ∧
    decode .hdr1 (.bits [true]) = .error .wrongWords ∧
    decode .host (.port { code := 5 }) = .error (.hostCode 5) := by decide
/-- The words of spec/opcode_table.json: byte 0 in the low bits. -/
theorem test_decode_table :
    decodeTableWord 8 0x00 = some .c2Eos ∧ decodeTableWord 24 0x010001 = some (.c2Rawd 1#16) ∧
    decodeTableWord 48 0x5D06000400C0 = some (.c2Lzma2 4#21 6#16 0x5D#8) ∧
    decodeTableWord 40 0xFFFBFF8300 = some (.rcInit 0#8 0x83FFFBFF#32) := by decide +kernel

/-! ### Helpers -/

/-- Cells `k, k+1, ...` holding the bytes. -/
def cellsFrom : Nat → List Byte → Memory
  | _, [] => []
  | k, b :: bs => (k, b) :: cellsFrom (k + 1) bs

/-- A window of 4096 cells into which the bytes have been written. -/
def winWith (bs : List Byte) (pending : Nat) : Win :=
  { buf := cellsFrom 0 bs, size := 4096#32, pos := BitVec.ofNat 32 bs.length, isFull := false
    pending := pending, totalPos := bs.length, allocated := true }

/-- Mode LZMA1 in phase RUN, size undefined, all properties 0, CORE to move. -/
def running (bs : List Byte) : State :=
  { State.reset with
    phase := .run, mode := .lzma1, win := winWith bs 0
    cfg := { lc := 0#4, lp := 0#3, pb := 0#3, dictSize := 4096#32 }
    rc := { range := 0xFFFFFFFF#32, code := 0#32, corrupted := false }
    env := { State.reset.env with turns := [.core] } }

/-- Three bytes to write. -/
def abc : List Byte := [0x41#8, 0x42#8, 0x43#8]

/-- A point of program P3 of 95_test_vectors.md. -/
def p3 (bs : List Byte) (range code : Word) (st : BitVec 4) (r0 r1 r2 r3 : Word) (rem : BitVec 64)
    (prob : ProbMem) (src : List Byte) : State :=
  { running bs with
    rc := { range := range, code := code, corrupted := false }
    st := { state := st, rep0 := r0, rep1 := r1, rep2 := r2, rep3 := r3 }
    sizeDefined := true, rem := rem, prob := prob
    env := { State.reset.env with turns := [.core], src := src.map .byte } }

/-- Part of the next state. -/
def after {α : Type} (o : Outcome) (f : State → α) : Option α :=
  match o with
  | .next t => some (f t)
  | _ => none

/-- What P3's table lists after an operation: bytes appended after the first `n`, FSM registers, `rem`,
`range`, `code`. -/
def p3View (n : Nat) (t : State) : List Byte × Fsm × BitVec 64 × Word × Word :=
  ((t.win.buf.drop n).map (fun c => c.2), t.st, t.rem, t.rc.range, t.rc.code)

/-- STATUS and phase. -/
def statusOf (t : State) : Status × Phase := (t.status, t.phase)

/-! ### Part 3. Single steps -/

/-- P2, rows 1 to 9. -/
theorem test_lit :
    after (step { p3 [] 0xFFFFFFFF#32 0x30988890#32 0#4 0#32 0#32 0#32 0#32 3#64 [] [0x77#8] with
      cfg := { lc := 3#4, lp := 0#3, pb := 2#3, dictSize := 4096#32 } }) (p3View 0) =
      some ([0x61#8], ⟨0#4, 0#32, 0#32, 0#32, 0#32⟩, 2#64, 0x80000000#32, 0x188C9077#32) := by
  decide +kernel

/-- P3, operation 3, rows 14 to 22: a matched literal. -/
theorem test_lit_matched :
    after (step (p3 [0x41#8, 0x41#8] 0x07C00000#32 0x0101CF46#32 9#4 0#32 0#32 0#32 0#32 21#64 []
      [0x4C#8])) (p3View 2) =
      some ([0x42#8], ⟨6#4, 0#32, 0#32, 0#32, 0#32⟩, 20#64, 0x03E00000#32, 0x020F464C#32) := by
  decide +kernel

/-- P3, operation 2, rows 10 to 13. -/
theorem test_srep :
    after (step (p3 [0x41#8] 0x80000000#32 0x6201CF46#32 0#4 0#32 0#32 0#32 0#32 22#64 [(0, 1056#11)] []))
      (p3View 1) =
      some ([0x41#8], ⟨9#4, 0#32, 0#32, 0#32, 0#32⟩, 21#64, 0x07C00000#32, 0x0101CF46#32) := by
  decide +kernel

/-- P3, operation 4, rows 23 to 34: the copy overlaps its own output. -/
theorem test_match :
    after (step (p3 [0x41#8, 0x41#8, 0x42#8] 0x03E00000#32 0x020F464C#32 6#4 0#32 0#32 0#32 0#32 20#64 []
      [0x48#8, 0x52#8])) (p3View 3) =
      some ([0x41#8, 0x42#8, 0x41#8, 0x42#8], ⟨7#4, 1#32, 0#32, 0#32, 0#32⟩, 16#64, 0x3E000000#32,
        0x084C4852#32) := by
  decide +kernel

/-- P3, operation 6, rows 44 to 51. -/
theorem test_rep0 :
    after (step (p3 [0x41#8, 0x41#8, 0x42#8, 0x41#8, 0x42#8, 0x41#8, 0x42#8, 0x43#8] 0x253EE7C0#32
      0x1E565A07#32 4#4 1#32 0#32 0#32 0#32 15#64 [] [0x0A#8])) (p3View 8) =
      some ([0x42#8, 0x43#8], ⟨8#4, 1#32, 0#32, 0#32, 0#32⟩, 13#64, 0x253F0000#32, 0x1346070A#32) := by
  decide +kernel

/-- P3, operation 8, rows 65 to 72. -/
theorem test_rep1 :
    after (step (p3 [0x41#8, 0x41#8, 0x42#8, 0x41#8, 0x42#8, 0x41#8, 0x42#8, 0x43#8, 0x42#8, 0x43#8, 0x41#8,
      0x42#8, 0x41#8] 0x0132F800#32 0x010D46AA#32 10#4 6#32 1#32 0#32 0#32 10#64
      [(1333, 1056#11), (1336, 1056#11), (1337, 1056#11), (1339, 1056#11)] [0x3F#8])) (p3View 13) =
      some ([0x42#8, 0x41#8], ⟨11#4, 1#32, 6#32, 0#32, 0#32⟩, 8#64, 0x015B2920#32, 0x00ADAA3F#32) := by
  decide +kernel

/-- P3, operation 10, rows 85 to 93. -/
theorem test_rep2 :
    after (step (p3 [0x41#8, 0x41#8, 0x42#8, 0x41#8, 0x42#8, 0x41#8, 0x42#8, 0x43#8, 0x42#8, 0x43#8, 0x41#8,
      0x42#8, 0x41#8, 0x42#8, 0x41#8, 0x41#8, 0x41#8] 0x17B50000#32 0x163FAD68#32 10#4 0#32 1#32 6#32 0#32
      6#64
      [(160, 992#11), (202, 992#11), (214, 992#11), (226, 1056#11), (1333, 1087#11), (1336, 1087#11),
        (1337, 1087#11), (1339, 1087#11)] [0xFE#8])) (p3View 17) =
      some ([0x41#8, 0x42#8, 0x41#8], ⟨11#4, 6#32, 0#32, 1#32, 0#32⟩, 3#64, 0x0E232A26#32,
        0x0DB35E98#32) := by
  decide +kernel

/-- P3, operation 11, rows 94 to 102. -/
theorem test_rep3 :
    after (step (p3 [0x41#8, 0x41#8, 0x42#8, 0x41#8, 0x42#8, 0x41#8, 0x42#8, 0x43#8, 0x42#8, 0x43#8, 0x41#8,
      0x42#8, 0x41#8, 0x42#8, 0x41#8, 0x41#8, 0x41#8, 0x41#8, 0x42#8, 0x41#8] 0x0E232A26#32 0x0DB35E98#32
      11#4 6#32 0#32 1#32 0#32 3#64
      [(176, 992#11), (203, 1056#11), (1333, 1117#11), (1336, 1117#11), (1337, 1117#11), (1339, 1054#11)]
      [0xD1#8])) (p3View 20) =
      some ([0x41#8, 0x41#8], ⟨11#4, 0#32, 6#32, 0#32, 1#32⟩, 1#64, 0x096F5FB0#32, 0x013398D1#32) := by
  decide +kernel

/-- P1: the end marker after rows 1 to 17. -/
theorem test_eos :
    after (step { p3 [] 0xFFFFFFFF#32 0x83FFFBFF#32 0#4 0#32 0#32 0#32 0#32 0#64 []
        [0xFF#8, 0xC0#8, 0x00#8, 0x00#8, 0x00#8] with sizeDefined := false })
      (fun t => (statusOf t, t.st, t.rc, t.env.src)) =
      some ((⟨.endOk, .endMarker, 0#32⟩, .done), ⟨7#4, 0xFFFFFFFF#32, 0#32, 0#32, 0#32⟩,
        ⟨0x40000000#32, 0#32, false⟩, []) := by
  decide +kernel

/-- P1, the prologue: R120's example. -/
theorem test_rcInit :
    after (exec (.rcInit 0#8 0x83FFFBFF#32) (running [])) (fun t => t.rc) =
      some ⟨0xFFFFFFFF#32, 0x83FFFBFF#32, false⟩ := by decide +kernel

/-- R120: `b0 != 0`, and `b1..b4 = FF`, set `rc.corrupted` and go on. -/
theorem test_rcInit_corrupted :
    after (exec (.rcInit 1#8 5#32) (running [])) (fun t => (t.rc.corrupted, t.phase)) = some (true, .run) ∧
    after (exec (.rcInit 0#8 0xFFFFFFFF#32) (running [])) (fun t => t.rc.corrupted) = some true := by
  decide +kernel

/-- A state with these range-decoder registers and these bytes to come. -/
def rcState (range code : Word) (src : List Byte) : State := p3 [] range code 0#4 0#32 0#32 0#32 0#32 0#64 [] src

/-- R121's example, and that `range == 2^24` does not normalise. -/
theorem test_rcNorm :
    after (exec .rcNorm (rcState 0x00800000#32 0x007FFFFF#32 [0xFF#8])) (fun t => t.rc) =
      some ⟨0x80000000#32, 0x7FFFFFFF#32, false⟩ ∧
    after (exec .rcNorm (rcState 0x01000000#32 5#32 [0xFF#8])) (fun t => t.inCount) = some 0 := by
  decide +kernel

/-- R122's two examples. -/
theorem test_rcBit :
    after (exec (.rcBit .isMatch 0) (rcState 0xFFFFFFFF#32 0x83FFFBFF#32 []))
        (fun t => (t.ret, t.rc.range, t.rc.code, probAt t .isMatch 0)) =
      some (.bit true, 0x800003FF#32, 0x03FFFFFF#32, 992#11) ∧
    after (exec (.rcBit .isRep 0) (rcState 0x800003FF#32 0x03FFFFFF#32 []))
        (fun t => (t.ret, t.rc.range, t.rc.code, probAt t .isRep 0)) =
      some (.bit false, 0x40000000#32, 0x03FFFFFF#32, 1056#11) := by
  decide +kernel

/-- R123's two examples: the second fires the corruption test and normalises. -/
theorem test_rcDirect :
    after (exec (.rcDirect 2) (rcState 0x80000000#32 0x3FFFFFFF#32 [])) (fun t => (t.ret, t.rc)) =
      some (.word 1#32, ⟨0x20000000#32, 0x1FFFFFFF#32, false⟩) ∧
    after (exec (.rcDirect 1) (rcState 0x01000001#32 0x01000000#32 [0x12#8])) (fun t => (t.ret, t.rc)) =
      some (.word 1#32, ⟨0x80000000#32, 0x80000012#32, true⟩) := by
  decide +kernel

/-- R124: reads `rc.code` only. -/
theorem test_rcFinok :
    after (exec .rcFinok (rcState 1#32 0#32 [])) (fun t => t.ret) = some (.truth true) ∧
    after (exec .rcFinok (rcState 1#32 1#32 [])) (fun t => t.ret) = some (.truth false) := by
  decide +kernel

/-- Bytes of a bit string, eight at a time. -/
def toBytes : Nat → List Bool → List SrcAnswer
  | 0, _ => []
  | n + 1, bs => .byte (BitVec.ofNat 8 (msbValue (bs.take 8))) :: toBytes n (bs.drop 8)

/-- With `range = 2^31` and every slot 1024 each decision halves the range exactly, so the range decoder decodes
the bits of `code` below bit 31 and then those of the bytes to come. -/
def withBits (bits : List Bool) (s : State) : State :=
  let b := bits ++ List.replicate 400 false
  { s with
    rc := { range := 0x80000000#32, code := BitVec.ofNat 32 (msbValue (b.take 31)), corrupted := false }
    prob := [], env := { s.env with src := toBytes 40 (b.drop 31) } }

/-- R140: bits 1, 0, 1 answer 5 and visit slots 1, 3, 6. -/
theorem test_btDec :
    after (exec (.btDec (.low .len 0#4) 0 3) (withBits [true, false, true] (running [])))
        (fun t => (t.ret, (List.range 8).map (probAt t (.low .len 0#4)))) =
      some (.num 5, [1024#11, 992#11, 1024#11, 1056#11, 1024#11, 1024#11, 992#11, 1024#11]) := by
  decide +kernel

/-- R141: bits 1, 0, 1, 1 answer 13. -/
theorem test_btRdec :
    after (exec (.btRdec .align 0 4) (withBits [true, false, true, true] (running [])))
      (fun t => (t.ret, probAt t .align 13)) = some (.num 13, 992#11) := by decide +kernel

/-- R142: `align[0..15] = 1024`, and slots beside the table stay. -/
theorem test_btReset :
    after (exec (.btReset .align) { running [] with prob := [(802, 5#11), (803, 5#11), (818, 5#11), (819, 7#11)] })
      (fun t => t.prob) = some [(802, 5#11), (819, 7#11)] := by decide +kernel

/-- R144's examples. -/
theorem test_lenDec :
    after (exec (.lenDec .len 0#4) (withBits [false, false, false, false] (running []))) (fun t => t.ret) =
      some (.num 0) ∧
    after (exec (.lenDec .len 0#4) (withBits (List.replicate 10 true) (running []))) (fun t => t.ret) =
      some (.num 271) := by decide +kernel

/-- R145: one instance only. -/
theorem test_lenReset :
    after (exec (.lenReset .repLen) { running [] with prob := [(819, 992#11), (1333, 992#11), (1846, 992#11)] })
      (fun t => t.prob) = some [(819, 992#11)] := by decide +kernel

/-- R162: the first literal of P2. -/
theorem test_litDec :
    after (exec (.litDec 0) (withBits [false, true, true, false, false, false, false, true] (running [])))
      (fun t => (t.ret, [1, 2, 5, 11, 22, 44, 88, 176].map (probAt t .lit))) =
      some (.byte 0x61#8, [1056#11, 992#11, 992#11, 1056#11, 1056#11, 1056#11, 1056#11, 992#11]) := by
  decide +kernel

/-- R163's first example: match byte 0x42, decoded byte 0x43. -/
theorem test_litDecm :
    after (exec (.litDecm 0 0x42#8) (withBits [false, true, false, false, false, false, true, true] (running [])))
      (fun t => (t.ret, [0x101, 0x202, 0x105, 0x10A, 0x114, 0x128, 0x250, 0x1A1].map (probAt t .lit))) =
      some (.byte 0x43#8, [1056#11, 992#11, 1056#11, 1056#11, 1056#11, 1056#11, 992#11, 992#11]) := by
  decide +kernel

/-- R163's second example: match byte 0x80, decoded byte 0x41, diverging at once. -/
theorem test_litDecm_diverges :
    after (exec (.litDecm 0 0x80#8) (withBits [false, true, false, false, false, false, false, true] (running [])))
      (fun t => (t.ret, [0x201, 0x02, 0x05, 0x0A, 0x14, 0x28, 0x50, 0xA0].map (probAt t .lit))) =
      some (.byte 0x41#8, [1056#11, 992#11, 1056#11, 1056#11, 1056#11, 1056#11, 1056#11, 992#11]) := by
  decide +kernel

/-- R168's example: slot 6, `posDec[3]`, `posDec[5]`, distance 9. -/
theorem test_distDec_mid :
    after (exec (.distDec 0) (withBits [false, false, false, true, true, false, true, false] (running [])))
      (fun t => (t.ret, probAt t .posDec 3, probAt t .posDec 5)) = some (.word 9#32, 992#11, 1056#11) := by
  decide +kernel

/-- R169's example: slot 14, distance 0xA9. -/
theorem test_distDec_far :
    after (exec (.distDec 3) (withBits [false, false, true, true, true, false, true, false, true, false, false,
      true] (running []))) (fun t => t.ret) = some (.word 0xA9#32) := by decide +kernel

/-- R202. -/
theorem test_smReset :
    after (exec .smReset { running [] with prob := [(5, 1#11)], st := ⟨9#4, 1#32, 2#32, 3#32, 4#32⟩ })
      (fun t => (t.prob, t.st)) = some ([], ⟨0#4, 0#32, 0#32, 0#32, 0#32⟩) := by decide +kernel

/-- R204 with three bytes written: rep0 = 2 passes, rep0 = 3 is BAD_DISTANCE with the distance in `info`. -/
theorem test_chkBack :
    after (exec .chkBack { running [1#8, 2#8, 3#8] with st := ⟨0#4, 2#32, 0#32, 0#32, 0#32⟩ }) statusOf =
      some (⟨.none, .none, 0#32⟩, .run) ∧
    after (exec .chkBack { running [1#8, 2#8, 3#8] with st := ⟨0#4, 3#32, 0#32, 0#32, 0#32⟩ }) statusOf =
      some (⟨.resultError, .badDistance, 3#32⟩, .fault) := by decide +kernel

/-- V-LEN-OVERRUN: encoded length 4 with `rem = 2`. -/
theorem test_copy_overrun :
    after (exec (.copy 2) { running [0x41#8] with sizeDefined := true, rem := 2#64 })
      (fun t => (statusOf t, t.rem, t.win.buf)) =
      some ((⟨.resultError, .lenOverrun, 0#32⟩, .fault), 0#64, [(0, 0x41#8), (1, 0x41#8), (2, 0x41#8)]) := by
  decide +kernel

/-- R200 with the size undefined: `rem` stays. -/
theorem test_copy :
    after (exec (.copy 0) { running [0x41#8, 0x42#8] with st := ⟨0#4, 1#32, 0#32, 0#32, 0#32⟩, rem := 9#64 })
      (fun t => (t.rem, t.win.buf)) =
      some (9#64, [(0, 0x41#8), (1, 0x42#8), (2, 0x41#8), (3, 0x42#8)]) := by decide +kernel

/-- R220's example. -/
theorem test_winInit :
    after (exec (.winInit 4096#32) (running [1#8])) (fun t => (t.win.size, t.win.pos, winIsEmpty t.win)) =
      some (4096#32, 0#32, true) := by decide +kernel

/-- R221's example: the write to cell 4095 wraps. -/
theorem test_winPut :
    after (exec (.winPut 0x41#8) { running [] with win := { winWith [] 0 with pos := 4095#32 } })
      (fun t => (t.win.buf, t.win.pos, t.win.isFull)) = some ([(4095, 0x41#8)], 0#32, true) := by
  decide +kernel

/-- R222's example: full, `pos = 2`: distance 5 reads cell 4093. -/
theorem test_winGet :
    after (exec (.winGet 5)
        { running [] with win := { winWith [] 0 with buf := [(4093, 0x77#8)], pos := 2#32, isFull := true } })
      (fun t => t.ret) = some (.byte 0x77#8) := by decide +kernel

/-- R223's examples. -/
theorem test_winChk :
    after (exec (.winChk 3) (running [1#8, 2#8, 3#8])) (fun t => t.ret) = some (.truth true) ∧
    after (exec (.winChk 4) (running [1#8, 2#8, 3#8])) (fun t => t.ret) = some (.truth false) ∧
    after (exec (.winChk 4096) { running [] with win := { winWith [] 0 with pos := 10#32, isFull := true } })
      (fun t => t.ret) = some (.truth true) := by decide +kernel

/-- R224's examples. -/
theorem test_winCopy :
    after (exec (.winCopy 2 5) (running [0x41#8, 0x42#8])) (fun t => (t.win.buf.drop 2).map (fun c => c.2)) =
      some [0x41#8, 0x42#8, 0x41#8, 0x42#8, 0x41#8] ∧
    after (exec (.winCopy 1 5) (running [0x41#8])) (fun t => (t.win.buf.drop 1).map (fun c => c.2)) =
      some [0x41#8, 0x41#8, 0x41#8, 0x41#8, 0x41#8] := by decide +kernel

/-- R225: `pos = 0` and not full. -/
theorem test_winEmpty :
    after (exec .winEmpty (running [])) (fun t => t.ret) = some (.truth true) ∧
    after (exec .winEmpty { running [] with win := { winWith [] 0 with isFull := true } }) (fun t => t.ret) =
      some (.truth false) := by decide +kernel

theorem test_winHasPending :
    after (exec .winHasPending { running [1#8] with win := winWith [1#8] 1 }) (fun t => t.ret) =
      some (.truth true) := by decide +kernel

/-- R227: the oldest pending byte goes first. -/
theorem test_winDrain :
    after (exec .winDrain { running [] with win := winWith [0x41#8, 0x42#8, 0x43#8] 2 })
      (fun t => (t.env.out, t.win.pending)) = some ([.byte 0x42#8], 1) := by decide +kernel

/-- R228: cells and size are kept. -/
theorem test_winReset :
    after (exec .winReset (running [0x41#8])) (fun t => (t.win.buf, t.win.pos, t.win.totalPos)) =
      some ([(0, 0x41#8)], 0#32, 0) := by decide +kernel

/-- P1's header. -/
theorem test_hdr1 :
    after (exec (.hdr1 0x5D#8 0x100000#32 0xFFFFFFFFFFFFFFFF#64) { running [] with phase := .hdr1 })
      (fun t => (t.cfg, t.sizeDefined, t.win.size, t.phase)) =
      some (⟨3#4, 0#3, 2#3, 0x100000#32⟩, false, 0x100000#32, .rcinit) := by decide +kernel

/-- R242's examples: property byte 0xE1; dictionary size 0 gives 4096. -/
theorem test_hdr1_limits :
    after (exec (.hdr1 0xE1#8 0x100000#32 0#64) (running [])) statusOf =
      some (⟨.incorrectProperties, .propsGe225, 0xE1#32⟩, .fault) ∧
    after (exec (.hdr1 0x5D#8 0#32 0#64) (running [])) (fun t => t.cfg.dictSize) = some 4096#32 := by
  decide +kernel

/-- 30_encoding.md section 3: 0x5D and 0xE0. -/
theorem test_propDec :
    after (exec (.propDec 0x5D#8) (running [])) (fun t => t.ret) = some (.props 3#4 0#3 2#3) ∧
    after (exec (.propDec 0xE0#8) (running [])) (fun t => t.ret) = some (.props 8#4 4#3 4#3) := by
  decide +kernel

theorem test_construct :
    after (exec (.construct 3#4 0#3 2#3 8192#32 true 7#64 false) (running [1#8]))
      (fun t => (t.cfg, t.win.buf, t.win.size, t.sizeDefined, t.rem)) =
      some (⟨3#4, 0#3, 2#3, 8192#32⟩, [], 8192#32, true, 7#64) := by decide +kernel

/-- R248: IDLE, and the byte SNK had received stands. -/
theorem test_cmdReset :
    after (exec .cmdReset { running [1#8] with env := { State.reset.env with out := [.byte 1#8] } })
      (fun t => (t.phase, t.mode, t.win.allocated, t.env.out)) = some (.idle, .none, false, [.byte 1#8]) := by
  decide +kernel

theorem test_cmdStartLzma1 :
    after (exec .cmdStartLzma1 State.reset) (fun t => (t.phase, t.mode)) = some (.hdr1, .lzma1) ∧
    after (exec .cmdStartLzma1 (running [])) (fun t => t.phase) = some .run := by decide +kernel

/-- R244's example. -/
theorem test_cmdStartRaw :
    after (exec (.cmdStartRaw 0x5D#8 0x100000#32 false 0#64 false) State.reset)
      (fun t => (t.phase, t.mode, t.cfg)) =
      some (.rcinit, .raw, ⟨3#4, 0#3, 2#3, 0x100000#32⟩) := by decide +kernel

theorem test_cmdStartLzma2 :
    after (exec (.cmdStartLzma2 0#32) State.reset) (fun t => (t.phase, t.mode, t.win.size)) =
      some (.c2ctrl, .lzma2, 4096#32) := by decide +kernel

/-- R245's example: after P2 ended. -/
theorem test_cmdReopen :
    after (exec (.cmdReopen true 3#64 true false 0#8 true)
        { running [0x61#8, 0x62#8, 0x63#8] with
          phase := .done, status := ⟨.endOk, .endSize, 0#32⟩, prob := [(0, 1056#11)] })
      (fun t => (statusOf t, t.rem, t.prob, t.win.pos)) =
      some ((⟨.none, .none, 0#32⟩, .rcinit), 3#64, [], 0#32) := by decide +kernel

/-- Mode LZMA2, a chunk header just read, bytes to come. -/
def chunked (bs src : List Byte) : State :=
  { running bs with phase := .c2ctrl, mode := .lzma2
                    env := { State.reset.env with turns := [.core], src := src.map .byte } }

/-- R273's example. -/
theorem test_c2Eos :
    after (step (chunked [] [0x00#8])) (fun t => (statusOf t, t.inCount)) =
      some ((⟨.endOk, .endLzma2Eos, 0#32⟩, .done), 1) := by decide +kernel

/-- P4, first chunk: the window is reset, two raw bytes follow. -/
theorem test_c2Rawd :
    after (step (chunked [9#8] [0x01#8, 0x00#8, 0x01#8])) (fun t => (t.phase, t.c2.rawLeft, t.win.pos)) =
      some (.c2raw, 2#17, 0#32) := by decide +kernel

/-- R275's example. -/
theorem test_c2Raw :
    after (step (chunked [9#8] [0x02#8, 0x00#8, 0x00#8])) (fun t => (t.phase, t.c2.rawLeft, t.win.pos)) =
      some (.c2raw, 1#17, 1#32) := by decide +kernel

/-- P4, third chunk; without a decoder it is NO_PROPERTIES (R281). -/
theorem test_c2Lzma0 :
    after (step { chunked [] [0x80#8, 0x00#8, 0x03#8, 0x00#8, 0x06#8] with
        c2 := { State.reset.c2 with haveDecoder := true } })
      (fun t => (t.phase, t.rem, t.c2.compLeft)) = some (.rcinit, 4#64, 7#17) ∧
    after (step (chunked [] [0x80#8, 0x00#8, 0x03#8, 0x00#8, 0x06#8])) statusOf =
      some (⟨.resultError, .noProperties, 0#32⟩, .fault) := by decide +kernel

theorem test_c2Lzma1 :
    after (step { chunked [] [0xA0#8, 0x00#8, 0x03#8, 0x00#8, 0x06#8] with
        c2 := { State.reset.c2 with haveDecoder := true }, prob := [(0, 1056#11)] })
      (fun t => (t.phase, t.prob)) = some (.rcinit, []) := by decide +kernel

/-- P4, second chunk: the window is kept. -/
theorem test_c2Lzma2 :
    after (step (chunked [0x41#8, 0x42#8] [0xC0#8, 0x00#8, 0x04#8, 0x00#8, 0x06#8, 0x5D#8]))
      (fun t => (t.phase, t.rem, t.cfg.lc, t.c2.haveDecoder, t.win.pos)) =
      some (.rcinit, 5#64, 3#4, true, 2#32) := by decide +kernel

theorem test_c2Lzma3 :
    after (step (chunked [0x41#8, 0x42#8] [0xE0#8, 0x00#8, 0x04#8, 0x00#8, 0x06#8, 0x5D#8]))
      (fun t => (t.phase, t.rem, t.win.pos)) = some (.rcinit, 5#64, 0#32) := by decide +kernel

/-- R283's example. -/
theorem test_c2Ill :
    after (step (chunked [0x55#8] [0x7F#8])) (fun t => (statusOf t, t.inCount)) =
      some ((⟨.unexpectedChunkCode, .ctrl03to7F, 0x7F#32⟩, .fault), 1) := by decide +kernel

/-- P4, first chunk, its last raw byte. -/
theorem test_rawCopy :
    after (step { chunked [0x41#8] [0x42#8] with phase := .c2raw, c2 := { State.reset.c2 with rawLeft := 1#17 } })
      (fun t => (t.phase, t.win.buf, t.c2.rawLeft)) =
      some (.c2ctrl, [(0, 0x41#8), (1, 0x42#8)], 0#17) := by decide +kernel

/-- R282: input left over is reported. -/
theorem test_chunkEnd :
    after (exec .chunkEnd { running [] with c2 := { State.reset.c2 with compLeft := 2#17 } }) statusOf =
      some (⟨.resultError, .chunkInputLeft, 2#32⟩, .fault) ∧
    after (exec .chunkEnd (running [])) (fun t => t.phase) = some .c2ctrl := by decide +kernel

/-- R60, R248: HDR1 held with 12 bytes, SRC answers the outstanding pull, one byte more stands ready: CMD.RESET
leaves the next run that byte only. -/
def heldHeader : State :=
  { rcState 0#32 0#32 (List.replicate 12 7#8 ++ [8#8, 9#8]) with
    phase := .hdr1
    env := { State.reset.env with
      turns := [.command { code := 0 }], hold := .src 12
      src := (List.replicate 12 (7#8 : Byte) ++ [8#8, 9#8]).map .byte } }

theorem test_cmdReset_held :
    after (step { rcState 0#32 0#32 (List.replicate 12 7#8) with phase := .hdr1 }) (fun t => t.env.hold) =
      some (.src 12) ∧
    after (step heldHeader) (fun t => (t.phase, t.env.src, t.env.hold)) =
      some (.idle, [.byte 9#8], .none) := by decide +kernel

/-- R352: HOST rebinds SRC after a run, and not while an accepted CMD.REOPEN waits. -/
theorem test_attach :
    (attachTurn [.eof] { running abc with phase := .done }).env.src = [.eof] ∧
    (attachTurn [.eof] { running abc with phase := .done, wait := some (.reopen false 0#64) }).env.src = [] := by
  decide +kernel

/-- The word of the table is what the next step runs. -/
theorem test_withFetchWord :
    after (step (State.reset.withFetchWord 8 0x00)) (fun t => t.status.cause) = some .endLzma2Eos ∧
    after (step (State.reset.withFetchWord 40 0xFFFBFF8300)) (fun t => t.rc.code) = some 0x83FFFBFF#32 := by
  decide +kernel

/-! ### Part 4. The hypotheses of the obligations can be met -/

theorem cellGet_cellsFrom (bs : List Byte) (k a : Nat) :
    cellGet (cellsFrom k bs) a = if k ≤ a then bs[a - k]? else none := by
  induction bs generalizing k with
  | nil => simp [cellsFrom, cellGet]
  | cons b bs ih =>
    simp only [cellsFrom, cellGet, ih]
    by_cases h : k = a
    · subst h; simp
    · by_cases h2 : k + 1 ≤ a
      · rw [if_neg h, if_pos h2, if_pos (by omega), show a - k = (a - (k + 1)) + 1 by omega]
        simp
      · rw [if_neg h, if_neg h2, if_neg (by omega)]

theorem cellsFrom_keys (bs : List Byte) (k : Nat) : ∀ c ∈ cellsFrom k bs, k ≤ c.1 ∧ c.1 < k + bs.length := by
  induction bs generalizing k with
  | nil => intro c h; cases h
  | cons b bs ih =>
    intro c h
    simp only [cellsFrom, List.mem_cons, List.length_cons] at h ⊢
    rcases h with rfl | h
    · exact ⟨le_refl _, by simp⟩
    · have := ih (k + 1) c h
      omega

theorem cellsFrom_rising (bs : List Byte) (k : Nat) : cellsRising (cellsFrom k bs) = true := by
  induction bs generalizing k with
  | nil => rfl
  | cons b bs ih =>
    simp only [cellsFrom]
    rw [cellsRising_cons]
    exact ⟨fun d hd => (cellsFrom_keys bs (k + 1) d hd).1, ih (k + 1)⟩

/-- A window that is not full. -/
theorem winOk_winWith (bs : List Byte) (p : Nat) (h : bs.length < 4096) (hp : p ≤ bs.length) :
    WinOk (winWith bs p) := by
  have hpos : (winWith bs p).pos.toNat = bs.length := by simp [winWith]; omega
  have hv : winValid (winWith bs p) = bs.length := by simpa [winValid, winWith] using hpos
  refine ⟨rfl, by simp [winWith], ?_, cellsFrom_rising bs 0, ?_, ?_, by rw [hv]; exact hp⟩
  · rw [BitVec.lt_def, hpos]; exact h
  · intro c hc
    have := (cellsFrom_keys bs 0 c hc).2
    show c.1 < 4096
    omega
  · intro d h1 h2
    rw [hv] at h2
    have e : winCell (winWith bs p) d = bs.length - d := by rw [winCell, if_pos (by omega), hpos]
    rw [e]
    show (cellGet (cellsFrom 0 bs) _).isSome = true
    rw [cellGet_cellsFrom]
    simp
    omega

/-- A full window of 4096 cells that hold the bytes, `pos = 10`. -/
def fullWin (bs : List Byte) (pending : Nat) : Win :=
  { buf := cellsFrom 0 bs, size := 4096#32, pos := 10#32, isFull := true
    pending := pending, totalPos := 5000, allocated := true }

theorem winOk_fullWin (bs : List Byte) (h : bs.length = 4096) : WinOk (fullWin bs 0) := by
  refine ⟨rfl, by simp [fullWin], by simp [fullWin], cellsFrom_rising bs 0, ?_, ?_, Nat.zero_le _⟩
  · intro c hc
    have := (cellsFrom_keys bs 0 c hc).2
    show c.1 < 4096
    omega
  · intro d h1 h2
    have e : winCell (fullWin bs 0) d < 4096 := winCell_lt (by simp [fullWin]) h1 h2
    show (cellGet (cellsFrom 0 bs) _).isSome = true
    rw [cellGet_cellsFrom]
    simp
    omega

theorem winValid_fullWin (bs : List Byte) (p : Nat) : winValid (fullWin bs p) = 4096 := rfl

theorem ready_of {s : State} (hw : WinOk s.win) (hd : s.cfg.dictSize = s.win.size)
    (h : s.cfg.lc ≤ 8#4 ∧ s.cfg.lp ≤ 4#3 ∧ s.cfg.pb ≤ 4#3 ∧ s.st.state < 12#4) : Ready s :=
  ⟨hw, hd, h.1, h.2.1, h.2.2.1, h.2.2.2⟩

theorem winOk_abc : WinOk (winWith abc 0) := winOk_winWith abc 0 (by decide) (by decide)

theorem ready_abc : Ready (running abc) := ready_of winOk_abc rfl (by decide)

/-- Phase RUN: the invariants hold. -/
theorem inv_running : Inv (running abc) where
  window := fun _ => ⟨winOk_abc, rfl⟩
  bare := by decide
  lc := by decide
  lp := by decide
  pb := by decide
  fsm := by decide
  probs := by decide
  slots := by decide
  phase := ⟨by decide, by decide, by decide, by decide, by decide, by decide, by decide, by decide, by decide,
    fun _ _ h => by simp [running, State.reset] at h⟩
  status := ⟨by decide, by decide, by decide, by decide⟩

theorem rcOk_running : RcOk (running abc) := by unfold RcOk; decide

theorem inv_reset : Inv State.reset where
  window := fun h => by simp [State.reset] at h
  bare := by decide
  lc := by decide
  lp := by decide
  pb := by decide
  fsm := by decide
  probs := by decide
  slots := by decide
  phase := ⟨by decide, by decide, by decide, by decide, by decide, by decide, by decide, by decide, by decide,
    fun _ _ h => by simp [State.reset] at h⟩
  status := ⟨by decide, by decide, by decide, by decide⟩

/-- A run that has ended in a fault, HOST having issued CMD.REOPEN, which is refused. -/
def faultedRun : State :=
  { running abc with
    phase := .fault, status := ⟨.resultError, .badMarker, 0#32⟩
    env := { State.reset.env with turns := [.command { code := 4 }] } }

theorem inv_faultedRun : Inv faultedRun where
  window := fun _ => ⟨winOk_abc, rfl⟩
  bare := by decide
  lc := by decide
  lp := by decide
  pb := by decide
  fsm := by decide
  probs := by decide
  slots := by decide
  phase := ⟨by decide, by decide, by decide, by decide, by decide, by decide, by decide, by decide, by decide,
    fun _ _ h => by simp [faultedRun, running, State.reset] at h⟩
  status := ⟨by decide, by decide, by decide, by decide⟩

/-- Some next state. -/
def isNext (o : Outcome) : Bool :=
  match o with
  | .next _ => true
  | _ => false

theorem next_of_isNext {o : Outcome} (h : isNext o = true) : ∃ t, o = .next t := by
  cases o with
  | next t => exact ⟨t, rfl⟩
  | fault f => cases h
  | refused r => cases h

theorem some_of {α : Type} {o : Option α} (h : o.isSome = true) : ∃ u, o = some u :=
  Option.isSome_iff_exists.mp h

/-- The state in which the `k`-th of the decisions `ds` raises, if from `s` those before it are made. -/
def failed (k : Nat) (ds : List Decision) (s : State) : Option State :=
  match ds[k]?, decides (ds.take k) s with
  | some (.slot T i _), some u =>
    match rcBit T i u with
    | .raised t => some t
    | _ => none
  | some (.direct _), some u =>
    match rcDirectBit u with
    | .raised t => some t
    | _ => none
  | _, _ => none

theorem failsAfter_of {k : Nat} {ds : List Decision} {s : State} (h : (failed k ds s).isSome = true) :
    ∃ t, failsAfter k ds s t := by
  obtain ⟨t, h⟩ := some_of h
  unfold failed at h
  split at h
  · rename_i T i b u h1 h2
    split at h
    · rename_i v h3; exact ⟨v, _, u, h1, h2, h3⟩
    · cases h
  · rename_i b u h1 h2
    split at h
    · rename_i v h3; exact ⟨v, _, u, h1, h2, h3⟩
    · cases h
  · cases h

/-- Bits as `withBits`, and input that ends at the first pull: the eighth decision raises. -/
def endsShort (bits : List Bool) (s : State) : State :=
  let u := withBits bits s
  { u with env := { u.env with src := [.eof] } }

theorem witness_EncodeThenDecode : ∃ (i : Instr) (f : Format) (w : Words), Instr.wf i = true ∧ encode i = some (f, w) :=
  ⟨.c2Ill 0x7F#8, _, _, by decide, rfl⟩

theorem witness_SymbolCodesRoundTrip :
    (SymCode.newMatch 271 0xFFFFFFFF#32).wf = true ∧ (SymCode.rep 3#2 0).wf = true := by decide

/-- A control byte at each end of each class. -/
theorem witness_ControlByteClasses :
    (3#8 ≤ 3#8 ∧ (3#8 : Byte) ≤ 0x7F#8) ∧ (3#8 ≤ 0x7F#8 ∧ 0x7F#8 ≤ (0x7F#8 : Byte)) ∧
    (0x80#8 ≤ (0x80#8 : Byte) ∧ (0x80#8 : Byte).toNat / 32 % 4 = 0) ∧ (0x9F#8 : Byte).toNat / 32 % 4 = 0 ∧
    (0xA0#8 : Byte).toNat / 32 % 4 = 1 ∧ (0xBF#8 : Byte).toNat / 32 % 4 = 1 ∧
    (0xC0#8 : Byte).toNat / 32 % 4 = 2 ∧ (0xDF#8 : Byte).toNat / 32 % 4 = 2 ∧
    (0xE0#8 : Byte).toNat / 32 % 4 = 3 ∧ (0xFF#8 : Byte).toNat / 32 % 4 = 3 := by decide

/-- From power-on and in a running stream. -/
theorem witness_StepKeepsTheInvariant :
    (∃ t : State, Inv State.reset ∧ step State.reset = .next t) ∧
    ∃ s t : State, Inv s ∧ s.phase = .run ∧ step s = .next t :=
  ⟨⟨_, inv_reset, rfl⟩, running abc, (next_of_isNext (by decide +kernel : isNext (step (running abc)) = true)).choose,
    inv_running, rfl, (next_of_isNext (by decide +kernel : isNext (step (running abc)) = true)).choose_spec⟩

theorem witness_StepsNeverStop : ∃ s : State, Inv s ∧ s.phase = .run := ⟨running abc, inv_running, rfl⟩

theorem witness_RangeDecoderStaysNormal : ∃ s t : State, Inv s ∧ RcOk s ∧ s.phase = .run ∧ step s = .next t := by
  obtain ⟨t, h⟩ := next_of_isNext (by decide +kernel : isNext (step (running abc)) = true)
  exact ⟨_, t, inv_running, rcOk_running, rfl, h⟩

theorem witness_FaultIsFinal :
    ∃ s t : State, Inv s ∧ s.phase = .fault ∧ step s = .next t ∧
      ∀ w ts, s.env.turns = .command w :: ts → w.code = 4 ∨ 5 ≤ w.code := by
  obtain ⟨t, h⟩ := next_of_isNext (by decide +kernel : isNext (step faultedRun) = true)
  refine ⟨faultedRun, t, inv_faultedRun, rfl, h, ?_⟩
  intro w ts hw
  have : w = { code := 4 } := by simp [faultedRun] at hw; exact hw.1.symm
  subst this
  exact .inl rfl

/-- A free move of CORE. -/
theorem coreMoves_free {s : State} (h : s.env.turns = []) (ho : snkOffered s = false) : coreMoves [] s :=
  .inr ⟨h, rfl, by simp [ho]⟩

/-- CORE copies the last raw byte of a chunk; SRC answers; HOST attaches another SRC in a run and after one. -/
theorem witness_PortsKeepOrder :
    (∃ (s t : State) (ts : List Turn), step s = .next t ∧ coreMoves ts s ∧ t.phase ≠ .fault ∧ t.inCount = s.inCount + 1) ∧
    ∀ p ∈ [Phase.run, .done], ∀ u ∈ [Turn.src (.byte 1#8), .attach [.eof]],
      ∃ t, step { running abc with phase := p, env := { State.reset.env with turns := [u] } } = .next t := by
  constructor
  swap
  · intro p hp u hu
    refine next_of_isNext ?_
    revert p u
    decide +kernel
  obtain ⟨t, h⟩ := next_of_isNext (by decide +kernel : isNext (step
    { chunked [0x41#8] [0x42#8] with phase := .c2raw, c2 := { State.reset.c2 with rawLeft := 1#17 } }) = true)
  have e : after (step { chunked [0x41#8] [0x42#8] with
      phase := .c2raw, c2 := { State.reset.c2 with rawLeft := 1#17 } }) (fun t => (t.phase, t.inCount)) =
      some (.c2ctrl, 1) := by decide +kernel
  rw [h] at e
  simp only [after, Option.some.injEq, Prod.mk.injEq] at e
  exact ⟨_, t, [], h, .inl rfl, by rw [e.1]; decide, e.2⟩

theorem witness_StatusRead :
    ∃ (s : State) (ts : List Turn), s.env.turns = Turn.readStatus :: ts ∧ s.status.kind = .endOk ∧ s.status.cause = .endMarker :=
  ⟨{ running abc with
      status := ⟨.endOk, .endMarker, 0#32⟩, phase := .done
      env := { State.reset.env with turns := [.readStatus] } }, [], rfl, rfl, rfl⟩

/-- Each of the three headers, the prologue with exactly five bytes left in the chunk. -/
theorem witness_StepRunsTheFetchedHeader :
    (∃ (s : State) (ts : List Turn) (bs : List Byte) (i : Instr), coreMoves ts s ∧ s.wait = none ∧ s.env.src = bs.map .byte ++ [] ∧
      s.phase = .c2ctrl ∧ decode .c2 (.bytes bs) = .ok i) ∧
    (∃ (s : State) (ts : List Turn) (bs : List Byte) (i : Instr), coreMoves ts s ∧ s.wait = none ∧ s.env.src = bs.map .byte ++ [] ∧
      s.phase = .hdr1 ∧ decode .hdr1 (.bytes bs) = .ok i) ∧
    (∃ (s : State) (ts : List Turn) (bs : List Byte) (i : Instr), coreMoves ts s ∧ s.wait = none ∧ s.env.src = bs.map .byte ++ [] ∧
      s.phase = .rcinit ∧ limitActive s = true ∧ 5 ≤ s.c2.compLeft.toNat ∧
      decode .prologue (.bytes bs) = .ok i) :=
  ⟨⟨{ chunked [] [0x00#8] with env := { State.reset.env with src := [.byte 0x00#8] } }, [], [0x00#8], .c2Eos,
     coreMoves_free rfl rfl, rfl, rfl, rfl, rfl⟩,
   ⟨{ rcState 0#32 0#32 (List.replicate 13 0#8) with phase := .hdr1 }, [], List.replicate 13 0#8, _, .inl rfl, rfl,
     by simp [rcState, p3], rfl, rfl⟩,
   ⟨{ chunked [] (List.replicate 5 0#8) with phase := .rcinit, c2 := { State.reset.c2 with compLeft := 5#17 } },
     [], List.replicate 5 0#8, _, .inl rfl, rfl, by simp [chunked], rfl, rfl, by decide, rfl⟩⟩

/-- Input that ends in each header: before it, after all but its last byte; the prologue at the limit too. -/
theorem witness_StepRunsTheFetchedHeader_short :
    (∃ (s : State) (t : State), coreMoves [] s ∧ s.wait = none ∧ s.phase = .c2ctrl ∧ s.env.src = [.eof] ∧
      pullFails (afterPulls 0 [.eof] (atTurn [] s)) t) ∧
    (∀ p ∈ [(1#8, 1), (2#8, 1), (0x80#8, 3), (0xBF#8, 3), (0xC0#8, 4), (0xFF#8, 4)],
      p.2 < (if p.1 = 1#8 ∨ p.1 = 2#8 then 2 else if (0xC0#8 : Byte) ≤ p.1 then 5
        else if (0x80#8 : Byte) ≤ p.1 then 4 else 0)) ∧
    (∃ (s : State) (t : State), coreMoves [] s ∧ s.wait = none ∧ s.phase = .hdr1 ∧
      s.env.src = (List.replicate 12 0#8).map .byte ++ [.err 5#32] ∧
      pullFails (afterPulls 12 [.err 5#32] (atTurn [] s)) t ∧ t.status.info = 5#32) ∧
    (∃ (s : State) (t : State), coreMoves [] s ∧ s.wait = none ∧ s.phase = .rcinit ∧ limitActive s = true ∧
      s.c2.compLeft = 4#17 ∧ s.env.src = (List.replicate 4 0#8).map .byte ++ [] ∧
      pullFails (afterPulls 4 [] (atTurn [] s)) t) :=
  ⟨⟨{ chunked [] [] with env := { State.reset.env with src := [.eof] } }, _, coreMoves_free rfl rfl, rfl, rfl, rfl,
     .inr ⟨fun h => by simp [limitActive, afterPulls, atTurn, chunked] at h, [], .inl ⟨rfl, rfl⟩⟩⟩,
   by decide,
   ⟨{ running [] with phase := .hdr1, env := { State.reset.env with
        src := (List.replicate 12 0#8).map .byte ++ [.err 5#32] } }, _, coreMoves_free rfl rfl, rfl, rfl, rfl,
     .inr ⟨fun h => by simp [limitActive, afterPulls, atTurn, running] at h, [], .inr ⟨5#32, rfl, rfl⟩⟩, rfl⟩,
   ⟨{ chunked [] [] with
      phase := .rcinit, c2 := { State.reset.c2 with compLeft := 4#17 }
      env := { State.reset.env with src := (List.replicate 4 0#8).map .byte } }, _, coreMoves_free rfl rfl, rfl, rfl,
     rfl, rfl, rfl, .inl ⟨rfl, rfl, rfl⟩⟩⟩

/-- The operation found, its result: completed, held for input, stopped (the window holds no byte that
`pos = 1` says was written: a state no run reaches). -/
def fetched (s : State) : Option (Instr × State) :=
  match fetchSymbol s with
  | .ok i u => some (i, u)
  | _ => none

theorem fetched_ok {s : State} {i : Instr} (h : (fetched s).map (fun p => p.1) = some i) :
    ∃ u, fetchSymbol s = .ok i u := by
  unfold fetched at h
  split at h
  · rename_i j u hj
    simp at h
    exact ⟨u, by rw [hj, h]⟩
  · cases h

def isFault (o : Outcome) : Bool :=
  match o with
  | .fault _ => true
  | _ => false

/-- `range = 2^24` fails on the first decision of a prefix, `range = 2^26` on the third: the rep family. -/
def shortPrefix (range code : Word) : State :=
  { running abc with
    rc := ⟨range, code, false⟩, prob := [], env := { State.reset.env with src := [.eof] } }

theorem witness_StepRunsTheOperation_raised :
    coreMoves [] (shortPrefix 0x04000000#32 0x03000000#32) ∧
    (∃ t, failsAfter 0 (prefixPath 0#4 0#4 .lit) (atTurn [] (shortPrefix 0x01000000#32 0#32)) t) ∧
    (∃ t, failsAfter 2 (prefixPath 0#4 0#4 .rep3) (atTurn [] (shortPrefix 0x04000000#32 0x03000000#32)) t) ∧
    (∃ t, fetchSymbol (atTurn [] (withBits [true, true] (running []))) = .raised t) ∧
    fetchSymbol (atTurn [] { shortPrefix 0x01000000#32 0#32 with env := State.reset.env }) = .held :=
  ⟨coreMoves_free rfl rfl, failsAfter_of (by decide +kernel), failsAfter_of (by decide +kernel), ⟨_, rfl⟩, rfl⟩

theorem witness_StepRunsTheOperation :
    (∃ u, fetchSymbol (atTurn [] (withBits [false] (running abc))) = .ok .lit u) ∧
    after (exec .rawCopy (atTurn [] { chunked [0x41#8] [0x42#8] with
      phase := .c2raw, c2 := { State.reset.c2 with rawLeft := 1#17 } })) (fun t => t.env.hold) =
      some .none ∧
    after (exec .rawCopy (atTurn [] { chunked [0x41#8] [] with
      phase := .c2raw, c2 := { State.reset.c2 with rawLeft := 1#17 } })) (fun t => t.env.hold) =
      some (.src 0) ∧
    isFault (step { withBits [false] (running [0x41#8]) with win := { winWith [0x41#8] 0 with buf := [] } }) =
      true :=
  ⟨fetched_ok (by decide +kernel), by decide +kernel, by decide +kernel, by decide +kernel⟩

theorem witness_StepRunsTheCommand :
    (∃ (s : State) (ts : List Turn) (w : HostWord) (i : Instr), s.env.turns = Turn.command w :: ts ∧ decode .host (.port w) = .ok i) ∧
    ∃ (s : State) (ts : List Turn) (w : HostWord), s.env.turns = Turn.command w :: ts ∧ 5 ≤ w.code :=
  ⟨⟨faultedRun, [], { code := 4 }, _, rfl, rfl⟩,
   ⟨{ faultedRun with env := { State.reset.env with turns := [.command { code := 5 }] } }, [], { code := 5 }, rfl,
     by decide⟩⟩

/-- Every prefix, on a window that is not empty; and the two pre-checks of the rep family. -/
theorem witness_PrefixSelectsTheOperation :
    (∀ p ∈ [(Instr.lit, [false]), (.simpleMatch, [true, false]), (.srep, [true, true, false, false]),
        (.rep0, [true, true, false, true]), (.rep1, [true, true, true, false]),
        (.rep2, [true, true, true, true, false]), (.rep3, [true, true, true, true, true])],
      ¬((running abc).win.pos = 0#32 ∧ (running abc).win.isFull = false) ∧
      ¬((running abc).sizeDefined = true ∧ (running abc).rem = 0#64) ∧
      (decides (prefixPath 0#4 0#4 p.1) (withBits p.2 (running abc))).isSome = true) ∧
    (decides ((prefixPath 0#4 0#4 .srep).take 2) (withBits [true, true] (running []))).isSome = true ∧
    ((running []).win.pos = 0#32 ∧ (running []).win.isFull = false) ∧
    (decides ((prefixPath 0#4 0#4 .srep).take 2)
      (withBits [true, true] { running abc with sizeDefined := true })).isSome = true := by
  decide +kernel

theorem witness_StopAtDeclaredSize :
    ∃ s : State, coreMoves [] s ∧ s.wait = none ∧ s.phase = .run ∧ s.win.pending = 0 ∧
      s.sizeDefined = true ∧ s.rem = 0#64 ∧ s.rc.code = 0#32 ∧ s.mode ≠ .lzma2 ∧
      ({ s with mode := .lzma2 } : State).mode = .lzma2 :=
  ⟨{ running abc with sizeDefined := true, env := State.reset.env }, coreMoves_free rfl rfl, rfl, rfl, rfl, rfl,
    rfl, rfl, by decide, rfl⟩

/-- Each way a pull in phase RUN can fail. -/
def failing (size : Bool) (mode : Mode) (src : List SrcAnswer) : State :=
  { rcState 0x00FFFFFF#32 0#32 [] with
    sizeDefined := size, mode := mode, env := { State.reset.env with src := src } }

theorem pullFails_failing :
    (∃ t, pullFails (failing true .lzma1 [.eof]) t ∧ t.status.cause = .eofAtFinish) ∧
    (∃ t, pullFails (failing false .lzma1 [.eof]) t ∧ t.status.cause = .unexpectedEof) ∧
    (∃ t, pullFails (failing false .lzma1 [.err 9#32]) t ∧ t.status.info = 9#32) ∧
    (∃ t, pullFails (failing true .lzma2 [.byte 1#8]) t ∧ t.status.cause = .chunkInputOverrun) :=
  ⟨⟨_, .inr ⟨fun h => by simp [limitActive, failing] at h, [], .inl ⟨rfl, rfl⟩⟩, rfl⟩,
   ⟨_, .inr ⟨fun h => by simp [limitActive, failing] at h, [], .inl ⟨rfl, rfl⟩⟩, rfl⟩,
   ⟨_, .inr ⟨fun h => by simp [limitActive, failing] at h, [], .inr ⟨9#32, rfl, rfl⟩⟩, rfl⟩,
   ⟨_, .inl ⟨rfl, rfl, rfl⟩, rfl⟩⟩

/-- `range = 2^24`; `range = 2^24 - 1` with one pull left in the chunk; a pull that fails. -/
theorem witness_RcNorm :
    0x01000000#32 ≤ (rcState 0x01000000#32 0#32 []).rc.range ∧
    ∃ (s : State) (b : Byte) (rest : List SrcAnswer), s.rc.range < 0x01000000#32 ∧
      s.env.src = .byte b :: rest ∧ limitActive s = true ∧ s.c2.compLeft = 1#17 ∧
      ∃ u t : State, u.rc.range < 0x01000000#32 ∧ pullFails u t :=
  ⟨by decide,
   { rcState 0x00FFFFFF#32 0#32 [7#8] with mode := .lzma2, c2 := { State.reset.c2 with compLeft := 1#17 } }, 7#8, [],
   by decide, rfl, rfl, rfl, _, _, by decide, pullFails_failing.1.choose_spec.1⟩

/-- The last slot of a table, with and without normalisation, and with one that fails (`pullFails` does not
look at the range decoder). -/
theorem witness_RcBit :
    191 < tableSize (rcState 0#32 0#32 []).cfg .isMatch ∧
    0x01000000#32 ≤ ((0xFFFFFFFF#32 : Word) >>> 11) * BitVec.ofNat 32 1024 ∧
    ((0x01000000#32 : Word) >>> 11) * BitVec.ofNat 32 1024 < 0x01000000#32 ∧
    (rcState 0x01000000#32 0#32 [7#8]).env.src = [.byte 7#8] ∧
    ∀ (m : ProbMem) (rc : Rc), ∃ t, pullFails { failing false .lzma1 [.eof] with prob := m, rc := rc } t :=
  ⟨by decide, by decide, by decide, rfl, fun _ _ =>
    ⟨_, .inr ⟨fun h => by simp [limitActive, failing] at h, [], .inl ⟨rfl, rfl⟩⟩⟩⟩

theorem witness_RcDirect :
    0x01000000#32 ≤ (0x02000000#32 : Word) >>> 1 ∧ (0x01FFFFFF#32 : Word) >>> 1 < 0x01000000#32 ∧
    (decides ([true, false, true].map .direct) (withBits [true, false, true] (running []))).isSome = true ∧
    feeds 32 (withBits [] (running [])) = true ∧ feeds 0 (running []) = true := by decide +kernel

/-- The pull that fails: in the one iteration, and in the last of eight. -/
theorem witness_RcDirect_fails :
    (∀ rc : Rc, ∃ t, pullFails { failing false .lzma1 [.eof] with rc := rc } t) ∧
    ∃ t, failsAfter 7 ((List.replicate 8 true).map .direct) (endsShort (List.replicate 8 true) (running [])) t :=
  ⟨fun _ => ⟨_, .inr ⟨fun h => by simp [limitActive, failing] at h, [], .inl ⟨rfl, rfl⟩⟩⟩,
   failsAfter_of (by decide +kernel)⟩

/-- A whole MATCH, with all its pulls. -/
theorem witness_DecisionsFrame :
    (decides (prefixPath 0#4 0#4 .simpleMatch ++ lenPath .len 0#4 271 ++ distPath 271 0xFFFFFFFF#32)
      (withBits (true :: false :: List.replicate 46 true) (running abc))).isSome = true := by decide +kernel

theorem witness_TreeWalks :
    (decides (treePath .align 0 1 [true, false, true, true])
      (withBits [true, false, true, true] (running []))).isSome = true ∧
    (decides (treePath (.posSlot 3#2) 0 1 []) (running [])).isSome = true := by decide +kernel

/-- The length index at both ends of its three ranges. -/
theorem witness_LenDec :
    ∀ n ∈ [0, 7, 8, 15, 16, 271],
      n ≤ 271 ∧ (decides (lenPath .len 0#4 n) (withBits (encodeLen n) (running []))).isSome = true := by
  decide +kernel

theorem witness_LiteralDecoders :
    (decides (litPath 0 0x61#8) (withBits (msbBits 8 0x61) (running []))).isSome = true ∧
    (decides (litmPath 0 0x42#8 0x43#8) (withBits (msbBits 8 0x43) (running []))).isSome = true := by
  decide +kernel

/-- The distance at both ends of the three kinds of slot. -/
theorem witness_DistDec :
    (decides (distPath 0 0#32) (withBits (encodeDist 0#32) (running []))).isSome = true ∧
    (decides (distPath 0 3#32) (withBits (encodeDist 3#32) (running []))).isSome = true ∧
    (decides (distPath 0 4#32) (withBits (encodeDist 4#32) (running []))).isSome = true ∧
    (decides (distPath 0 127#32) (withBits (encodeDist 127#32) (running []))).isSome = true ∧
    (decides (distPath 0 128#32) (withBits (encodeDist 128#32) (running []))).isSome = true ∧
    (decides (distPath 0 0xFFFFFFFF#32) (withBits (encodeDist 0xFFFFFFFF#32) (running []))).isSome = true := by
  decide +kernel

theorem witness_DecodersComplete :
    0 + 2 ^ 6 ≤ tableSize (running []).cfg (.posSlot 0#2) ∧ 0 < 2 ^ ((running []).cfg.lc.toNat + (running []).cfg.lp.toNat) ∧
    feeds 36 (withBits [] (running [])) = true := by decide +kernel

theorem witness_ProbabilityResets :
    15 < tableSize (running []).cfg .align ∧ Table.posDec ≠ Table.align ∧
    114 < tableSize (running []).cfg .posDec := by decide

theorem witness_WindowResets :
    (running abc).win.pending = 0 ∧ (winWith abc 2).pending ≠ 0 := by decide

/-- A cursor in the last cell. -/
theorem witness_WinPut : ({ winWith abc 0 with pos := 4095#32 } : Win).pos < (winWith abc 0).size := by decide

/-- Distance 1 and the largest one, not full and full; distance 0 and one too large. -/
theorem witness_WinGet :
    WinOk (winWith abc 0) ∧ (∀ d ∈ [1, 3], 1 ≤ d ∧ d ≤ winValid (winWith abc 0)) ∧
    (∃ w : Win, WinOk w ∧ w.isFull = true ∧ ∀ d ∈ [1, 4096], 1 ≤ d ∧ d ≤ winValid w) ∧
    ∀ d ∈ [0, 4], ¬(1 ≤ d ∧ d ≤ winValid (winWith abc 0)) :=
  ⟨winOk_abc, by decide,
    ⟨fullWin (List.replicate 4096 0#8) 0, winOk_fullWin _ List.length_replicate, rfl, by rw [winValid_fullWin]; decide⟩,
    by decide⟩

theorem witness_GetReturnsThePuts :
    ∃ (s t : State) (b x : Byte), WinOk s.win ∧ exec (.winPut b) s = .next t ∧ 3 + 1 ≤ winValid t.win ∧
      exec (.winGet 3) s = .next { s with ret := .byte x } :=
  ⟨running abc, _, 9#8, 0x41#8, winOk_abc, rfl, by decide, rfl⟩

theorem witness_WinCopy :
    (∃ w : Win, WinOk w ∧ w.isFull = true ∧ 1 ≤ 4096 ∧ 4096 ≤ winValid w ∧ 273 ≤ 273) ∧
    WinOk (winWith abc 0) ∧ 1 ≤ 3 ∧ 3 ≤ winValid (winWith abc 0) ∧ 0 ≤ 273 :=
  ⟨⟨fullWin (List.replicate 4096 0#8) 0, winOk_fullWin _ List.length_replicate, rfl, by decide,
      by rw [winValid_fullWin], le_refl _⟩, winOk_abc, by decide, by decide, by decide⟩

/-- Bytes pending; and SNK's listed and free moves with each thing it can be offered. -/
theorem witness_PendingBytesInOrder :
    (∃ s t : State, WinOk s.win ∧ s.win.pending < s.win.size.toNat ∧ exec (.winPut 9#8) s = .next t ∧
      0 < s.win.pending) ∧
    (∀ p ∈ [Phase.run, .fault], snkMoves [] { running abc with
      phase := p, win := winWith abc 2, env := State.reset.env }) ∧
    (∀ p ∈ [Phase.done, .fault], snkMoves [] { running abc with phase := p, env := State.reset.env }) ∧
    ∀ g ∈ [true, false], snkMoves [] { running abc with
      phase := .fault, env := { State.reset.env with turns := [.snk], indGiven := g } } := by
  refine ⟨⟨{ running abc with win := winWith abc 2 }, _, winOk_winWith abc 2 (by decide) (by decide), by decide, rfl,
    by decide⟩, ?_, ?_, ?_⟩
  all_goals unfold snkMoves; decide +kernel

/-- `rep0 = 2` reaches the oldest of three bytes, `rep0 = 3` does not; `rep0 = dictSize` never passes. -/
theorem witness_ChkBack :
    let s := fun r : Word => ({ running abc with st := ⟨0#4, r, 0#32, 0#32, 0#32⟩ } : State)
    ((s 2#32).st.rep0 < (s 2#32).cfg.dictSize ∧ (s 2#32).st.rep0.toNat + 1 ≤ (s 2#32).win.pos.toNat) ∧
    ¬((s 3#32).st.rep0.toNat + 1 ≤ (s 3#32).win.pos.toNat ∨ (s 3#32).win.isFull = true) ∧
    ¬((s 4096#32).st.rep0 < (s 4096#32).cfg.dictSize) := by decide

/-- The longest copy with exactly enough remaining, and one byte less. -/
theorem witness_Copy :
    ∃ s : State, WinOk s.win ∧ s.st.rep0.toNat + 1 ≤ winValid s.win ∧ s.sizeDefined = true ∧
      271 + 2 ≤ s.rem.toNat ∧ ({ s with rem := 272#64 } : State).rem.toNat < 271 + 2 :=
  ⟨{ running abc with sizeDefined := true, rem := 273#64, st := ⟨0#4, 2#32, 0#32, 0#32, 0#32⟩ }, winOk_abc,
    by decide, rfl, by decide, by decide⟩

/-- The first literal of a stream, and a matched literal. -/
theorem witness_Literal :
    (∃ s u : State, Ready s ∧ ¬(s.sizeDefined = true ∧ s.rem = 0#64) ∧
      (s.win.pos = 0#32 ∧ s.win.isFull = false) ∧ s.st.state < 7#4 ∧
      decides (litPath 0 0x61#8) s = some u) ∧
    (∃ s u : State, Ready s ∧ ¬(s.sizeDefined = true ∧ s.rem = 0#64) ∧
      ¬(s.win.pos = 0#32 ∧ s.win.isFull = false) ∧ cellGet s.win.buf (winCell s.win 1) = some 0x43#8 ∧
      7#4 ≤ s.st.state ∧ s.st.rep0.toNat + 1 ≤ winValid s.win ∧
      cellGet s.win.buf (winCell s.win (s.st.rep0.toNat + 1)) = some 0x41#8 ∧
      decides (litmPath 0 0x41#8 0x43#8) s = some u) := by
  constructor
  · obtain ⟨u, h⟩ := some_of (by decide +kernel :
      (decides (litPath 0 0x61#8) (withBits (msbBits 8 0x61) (running []))).isSome = true)
    exact ⟨_, u, ready_of (winOk_winWith [] 0 (by decide) (by decide)) rfl (by decide), by decide, by decide,
      by decide, h⟩
  · obtain ⟨u, h⟩ := some_of (by decide +kernel :
      (decides (litmPath 0 0x41#8 0x43#8) (withBits (msbBits 8 0x43)
        { running abc with st := ⟨7#4, 2#32, 0#32, 0#32, 0#32⟩ })).isSome = true)
    exact ⟨_, u, ready_of winOk_abc rfl (by decide), by decide, by decide, by decide, by decide, by decide,
      by decide, h⟩

theorem witness_ShortRep :
    Ready { running abc with st := ⟨11#4, 2#32, 0#32, 0#32, 0#32⟩ } ∧ 2 + 1 ≤ winValid (running abc).win :=
  ⟨ready_of winOk_abc rfl (by decide), by decide⟩

/-- The longest match from the oldest byte, with exactly enough remaining. -/
theorem witness_Match :
    ∃ s u : State, Ready s ∧ decides (lenPath .len (posState s) 271 ++ distPath 271 2#32) s = some u ∧
      2 + 1 ≤ winValid s.win ∧ s.sizeDefined = true ∧ 271 + 2 ≤ s.rem.toNat := by
  obtain ⟨u, h⟩ := some_of (by decide +kernel :
    (decides (lenPath .len 0#4 271 ++ distPath 271 2#32) (withBits (encodeLen 271 ++ encodeDist 2#32)
      { running abc with sizeDefined := true, rem := 273#64 })).isSome = true)
  exact ⟨_, u, ready_of winOk_abc rfl (by decide), h, by decide, rfl, by decide⟩

theorem witness_EndMarker :
    (running abc).rc.code = 0#32 ∧ (running abc).sizeDefined = false ∧ (running abc).mode ≠ .lzma2 ∧
    (chunked abc []).mode = .lzma2 ∧ (rcState 1#32 1#32 []).rc.code ≠ 0#32 ∧
    ({ running abc with sizeDefined := true, rem := 1#64 } : State).rem ≠ 0#64 ∧
    (decides (lenPath .len 0#4 0 ++ distPath 0 0xFFFFFFFF#32)
      (withBits (encodeLen 0 ++ encodeDist 0xFFFFFFFF#32) (running abc))).isSome = true := by decide +kernel

/-- Each of the four registers in reach. -/
theorem witness_RepMatches :
    ∃ s u : State, Ready s ∧ decides (lenPath .repLen (posState s) 271) s = some u ∧
      s.sizeDefined = true ∧ 271 + 2 ≤ s.rem.toNat ∧ s.st.rep0.toNat + 1 ≤ winValid s.win ∧
      s.st.rep1.toNat + 1 ≤ winValid s.win ∧ s.st.rep2.toNat + 1 ≤ winValid s.win ∧
      s.st.rep3.toNat + 1 ≤ winValid s.win := by
  obtain ⟨u, h⟩ := some_of (by decide +kernel :
    (decides (lenPath .repLen 0#4 271) (withBits (encodeLen 271)
      { running abc with
        sizeDefined := true, rem := 273#64, st := ⟨7#4, 0#32, 1#32, 2#32, 0#32⟩ })).isSome = true)
  exact ⟨_, u, ready_of winOk_abc rfl (by decide), h, rfl, by decide, by decide, by decide, by decide, by decide⟩

/-- The eighth decision fails: of a plain and of a matched literal, inside a distance, inside a length. -/
theorem witness_OperationsThatRaise_short :
    (∃ s t ds, Ready s ∧ ¬(s.sizeDefined = true ∧ s.rem = 0#64) ∧ litDecisions s 0x61#8 ds ∧
      s.st.state < 7#4 ∧ failsAfter 7 ds s t) ∧
    (∃ s t ds, Ready s ∧ ¬(s.sizeDefined = true ∧ s.rem = 0#64) ∧ litDecisions s 0x61#8 ds ∧
      7#4 ≤ s.st.state ∧ failsAfter 7 ds s t) ∧
    (∃ s t, failsAfter 7 (lenPath .len (posState s) 0 ++ distPath 0 3#32) s t ∧
      ¬ 7 < (lenPath .len (posState s) 0).length) ∧
    ∃ s t, failsAfter 7 (lenPath .repLen (posState s) 16) s t := by
  refine ⟨?_, ?_, ?_, ?_⟩
  · let s := endsShort (msbBits 8 0x61) (running abc)
    obtain ⟨t, h⟩ := failsAfter_of (by decide +kernel : (failed 7 (litPath 0 0x61#8) s).isSome = true)
    exact ⟨s, t, litPath 0 0x61#8, ready_of winOk_abc rfl (by decide), by decide,
      ⟨0x43#8, .inr ⟨by decide, by decide⟩, .inl ⟨by decide, by decide⟩⟩, by decide, h⟩
  · let s := endsShort (msbBits 8 0x61) { running abc with st := ⟨7#4, 2#32, 0#32, 0#32, 0#32⟩ }
    obtain ⟨t, h⟩ := failsAfter_of (by decide +kernel : (failed 7 (litmPath 0 0x41#8 0x61#8) s).isSome = true)
    exact ⟨s, t, litmPath 0 0x41#8 0x61#8, ready_of winOk_abc rfl (by decide), by decide,
      ⟨0x43#8, .inr ⟨by decide, by decide⟩, .inr ⟨by decide, by decide, 0x41#8, by decide, by decide⟩⟩, by decide, h⟩
  · let s := endsShort (encodeLen 0 ++ encodeDist 3#32) (running abc)
    obtain ⟨t, h⟩ := failsAfter_of
      (by decide +kernel : (failed 7 (lenPath .len (posState s) 0 ++ distPath 0 3#32) s).isSome = true)
    exact ⟨s, t, h, by decide⟩
  · let s := endsShort (encodeLen 16) (running abc)
    obtain ⟨t, h⟩ := failsAfter_of (by decide +kernel : (failed 7 (lenPath .repLen (posState s) 16) s).isSome = true)
    exact ⟨s, t, h⟩

/-- R190, R349: a MATCH cut short inside its distance has rotated the rep registers and moved the state on; `rep0` is still to come. -/
theorem test_match_short :
    after (exec .simpleMatch (endsShort (encodeLen 0 ++ encodeDist 3#32)
        { running abc with st := ⟨0#4, 1#32, 2#32, 3#32, 4#32⟩ })) (fun t => (t.st, t.status.cause, t.phase)) =
      some (⟨7#4, 1#32, 1#32, 2#32, 3#32⟩, .unexpectedEof, .fault) := by decide +kernel

/-- LIT at the end of the size; an unreachable `rep0`; MATCH and the rep matches with an unreachable distance, and
with a reachable one and one byte too few remaining. -/
theorem witness_OperationsThatRaise :
    (∃ s : State, s.sizeDefined = true ∧ s.rem = 0#64) ∧
    (∃ s : State, Ready s ∧ ¬ s.st.rep0.toNat + 1 ≤ winValid s.win ∧ 7#4 ≤ s.st.state ∧
      ¬(s.sizeDefined = true ∧ s.rem = 0#64)) ∧
    (∃ s u : State, Ready s ∧ decides (lenPath .len (posState s) 0 ++ distPath 0 3#32) s = some u ∧
      ¬ 3 + 1 ≤ winValid s.win) ∧
    (∃ s u : State, Ready s ∧ decides (lenPath .len (posState s) 0 ++ distPath 0 2#32) s = some u ∧
      2 + 1 ≤ winValid s.win ∧ s.sizeDefined = true ∧ s.rem.toNat < 0 + 2) ∧
    (∃ s u : State, Ready s ∧ decides (lenPath .repLen (posState s) 0) s = some u ∧
      s.st = ⟨7#4, 3#32, 3#32, 3#32, 3#32⟩ ∧ ¬ 3 + 1 ≤ winValid s.win) ∧
    ∃ s u : State, Ready s ∧ decides (lenPath .repLen (posState s) 0) s = some u ∧
      s.st = ⟨7#4, 2#32, 2#32, 2#32, 2#32⟩ ∧ 2 + 1 ≤ winValid s.win ∧ s.sizeDefined = true ∧
      s.rem.toNat < 0 + 2 := by
  refine ⟨⟨{ running abc with sizeDefined := true }, rfl, rfl⟩,
    ⟨{ running abc with st := ⟨7#4, 3#32, 0#32, 0#32, 0#32⟩ }, ready_of winOk_abc rfl (by decide), by decide,
      by decide, by decide⟩, ?_, ?_, ?_, ?_⟩
  · let s := withBits (encodeLen 0 ++ encodeDist 3#32)
      (running abc)
    obtain ⟨u, h⟩ := some_of (by decide +kernel : (decides (lenPath .len (posState s) 0 ++ distPath 0 3#32) s).isSome = true)
    exact ⟨s, u, ready_of winOk_abc rfl (by decide), h, by decide⟩
  · let s := withBits (encodeLen 0 ++ encodeDist 2#32)
      { running abc with sizeDefined := true, rem := 1#64 }
    obtain ⟨u, h⟩ := some_of (by decide +kernel : (decides (lenPath .len (posState s) 0 ++ distPath 0 2#32) s).isSome = true)
    exact ⟨s, u, ready_of winOk_abc rfl (by decide), h, by decide, rfl, by decide⟩
  · let s := withBits (encodeLen 0)
      { running abc with st := ⟨7#4, 3#32, 3#32, 3#32, 3#32⟩ }
    obtain ⟨u, h⟩ := some_of (by decide +kernel : (decides (lenPath .repLen (posState s) 0) s).isSome = true)
    exact ⟨s, u, ready_of winOk_abc rfl (by decide), h, rfl, by decide⟩
  · let s := withBits (encodeLen 0)
      { running abc with sizeDefined := true, rem := 1#64, st := ⟨7#4, 2#32, 2#32, 2#32, 2#32⟩ }
    obtain ⟨u, h⟩ := some_of (by decide +kernel : (decides (lenPath .repLen (posState s) 0) s).isSome = true)
    exact ⟨s, u, ready_of winOk_abc rfl (by decide), h, rfl, by decide, rfl, by decide⟩

/-- The property byte at the ends of its classes, with a literal capacity of 4. -/
theorem witness_PropDec :
    propsLegal 12 224#8 ∧ propsLegal 4 0x5D#8 ∧ 225 ≤ (225#8 : Byte).toNat ∧ 225 ≤ (255#8 : Byte).toNat ∧
    ((224#8 : Byte).toNat < 225 ∧ 4 < (224#8 : Byte).toNat % 9 + (224#8 : Byte).toNat / 9 % 5) := by
  unfold propsLegal
  decide

/-- A property byte of each refused class, with a literal capacity of 4. -/
theorem propsRefused_each : propsRefused 4 225#8 .propsGe225 ∧ propsRefused 4 224#8 .propsUnsupported := by
  unfold propsRefused
  decide

theorem witness_Hdr1 :
    propsLegal 12 0x5D#8 ∧ dictOf 0#32 ≤ 4096#32 ∧ dictOf 0xFFFFFFFF#32 ≤ 0xFFFFFFFF#32 ∧
    4096#32 < dictOf 4097#32 ∧ propsRefused 4 225#8 .propsGe225 := by
  unfold propsLegal propsRefused
  decide

theorem witness_StartStreams :
    State.reset.phase = .idle ∧ dictOf 0xFFFFFFFF#32 ≤ State.reset.par.winCap ∧
    ({ State.reset with par := { State.reset.par with winCap := 4096#32 } } : State).par.winCap < dictOf 4097#32 := by
  decide

theorem witness_StartRaw :
    State.reset.phase = .idle ∧ propsLegal State.reset.par.litBitsCap 0x5D#8 ∧
    dictOf 0#32 ≤ State.reset.par.winCap ∧ State.reset.win.allocated = false ∧
    ({ running abc with phase := .done } : State).win.allocated = true ∧ (4096#32 : Word) < dictOf 4097#32 ∧
    propsRefused State.reset.par.litBitsCap 255#8 .propsGe225 := by
  unfold propsLegal propsRefused
  decide

theorem witness_Reopen :
    ∃ s : State, s.phase = .done ∧ s.mode = .lzma1 ∧ propsLegal s.par.litBitsCap 0x5D#8 ∧ s.win.pending = 0 ∧
      ({ s with win := winWith abc 2 } : State).win.pending ≠ 0 ∧
      propsRefused s.par.litBitsCap 225#8 .propsGe225 :=
  ⟨{ running abc with phase := .done }, rfl, rfl, by unfold propsLegal; decide, rfl, by decide,
    by unfold propsRefused; decide⟩

/-- A START command during a run; CMD.REOPEN at power-on, in a fault, and after a stream of mode LZMA2. -/
theorem witness_RefusedCommands :
    ((running abc).phase ≠ .idle ∧ (running abc).phase ≠ .done ∧ (running abc).phase ≠ .fault) ∧
    ¬(State.reset.phase = .done ∧ (State.reset.mode = .lzma1 ∨ State.reset.mode = .raw)) ∧
    ¬(faultedRun.phase = .done ∧ (faultedRun.mode = .lzma1 ∨ faultedRun.mode = .raw)) ∧
    (let s := ({ chunked abc [] with phase := .done } : State)
     ¬(s.phase = .done ∧ (s.mode = .lzma1 ∨ s.mode = .raw))) := by decide

theorem witness_RawChunks : (chunked abc []).win.pending = 0 := rfl

theorem witness_DictionaryResetWaits :
    ∃ s : State, coreMoves [] s ∧ s.wait = some .rawd ∧ s.win.pending ≠ 0 ∧
      ∀ w, w ∈ [Wait.rawd, .lzma3, .reopen true 5#64] → coreMoves [] { s with
        win := winWith abc 0, wait := some w, env := { s.env with turns := [] } } :=
  ⟨{ chunked abc [] with win := winWith abc 2, wait := some .rawd, phase := .c2hdr }, .inl rfl, rfl, by decide,
    fun _ _ => coreMoves_free rfl rfl⟩

/-- The last byte, and a window full of pending bytes. -/
theorem witness_RawCopy :
    (∃ (s : State) (b : Byte), s.phase = .c2raw ∧ s.c2.rawLeft = 1#17 ∧ s.win.pos < s.win.size ∧
      s.win.pending < s.win.size.toNat ∧ s.env.src = [.byte b]) ∧
    (∃ s : State, s.phase = .c2raw ∧ s.c2.rawLeft ≠ 0#17 ∧ s.win.pos < s.win.size ∧
      s.win.size.toNat ≤ s.win.pending) ∧ (running abc).phase ≠ .c2raw ∧
    ∃ s t : State, s.phase = .c2raw ∧ s.c2.rawLeft ≠ 0#17 ∧ s.win.pos < s.win.size ∧
      s.win.pending < s.win.size.toNat ∧ pullFails s t ∧ t.status.cause = .unexpectedEof :=
  ⟨⟨{ chunked abc [7#8] with phase := .c2raw, c2 := { State.reset.c2 with rawLeft := 1#17 } }, 7#8, rfl, rfl,
      by decide, by decide, rfl⟩,
   ⟨{ chunked abc [] with
        phase := .c2raw, c2 := { State.reset.c2 with rawLeft := 1#17 }, win := fullWin [] 4096 },
      rfl, by decide, by decide, by decide⟩, by decide,
   ⟨{ chunked abc [] with
        phase := .c2raw, c2 := { State.reset.c2 with rawLeft := 1#17 }
        env := { State.reset.env with src := [.eof] } }, _,
      rfl, by decide, by decide, by decide,
      .inr ⟨fun h => by simp [limitActive, chunked, running] at h, [], .inl ⟨rfl, rfl⟩⟩, rfl⟩⟩

theorem witness_LzmaChunks :
    ({ State.reset.c2 with haveDecoder := true } : C2).haveDecoder = true ∧
    State.reset.c2.haveDecoder = false ∧ propsLegal 12 0xE0#8 ∧ propsRefused 12 0xE1#8 .propsGe225 ∧
    propsRefused 4 0xE0#8 .propsUnsupported ∧
    (winWith abc 2).pending ≠ 0 ∧ (winWith abc 0).pending = 0 := by
  unfold propsLegal propsRefused
  decide

theorem witness_ChunkEnd :
    ({ State.reset.c2 with compLeft := 1#17 } : C2).compLeft ≠ 0#17 ∧ State.reset.c2.compLeft = 0#17 := by decide

theorem witness_StateResetIsAFreshDecoder :
    ∃ s t t' : State, s.c2.haveDecoder = true ∧ exec (.c2Lzma1 3#21 6#16) s = .next t ∧
      exec (.construct s.cfg.lc s.cfg.lp s.cfg.pb 4096#32 true (BitVec.ofNat 64 4) true) s = .next t' :=
  ⟨{ chunked abc [] with c2 := { State.reset.c2 with haveDecoder := true } }, _, _, rfl, rfl, rfl⟩

end Sys2Proof.Tests
end

section
/-! SUPPORT. The invariant of the machine read phase by phase: what the memories and registers hold in every
phase, and what each phase asks of mode, wait and `STATUS`. The parts are stated about the fields they read, so
that an update of any other field keeps them by definition. -/
namespace Sys2Proof.Machine

/-! ### The two halves of the invariant -/

/-- The half of the invariant that no phase changes: a window that fits the dictionary size, or none; legal
properties, FSM state and slots. -/
structure Sound (w : Win) (c : Cfg) (x : BitVec 4) (m : ProbMem) : Prop where
  window : w.allocated = true → WinOk w ∧ c.dictSize = w.size
  bare : w.allocated = false → w = State.reset.win
  lc : c.lc ≤ 8#4
  lp : c.lp ≤ 4#3
  pb : c.pb ≤ 4#3
  fsm : x < 12#4
  probs : ProbMem.wf m = true
  slots : ∀ c ∈ m, 31#11 ≤ c.2 ∧ c.2 ≤ 2017#11

/-- What a state stores is sound. -/
def Stored (s : State) : Prop := Sound s.win s.cfg s.st.state s.prob

/-- What the phases of an LZMA stream ask: a window, and in a chunk its decoder and size. -/
def Streaming (s : State) : Prop :=
  s.mode ≠ .none ∧ s.win.allocated = true ∧
    (s.mode = .lzma2 → s.c2.haveDecoder = true ∧ s.sizeDefined = true) ∧
    s.wait = none ∧ s.status = clearStatus

/-- What the phases between the chunks of LZMA2 ask. -/
def Chunked (s : State) : Prop :=
  s.mode = .lzma2 ∧ s.win.allocated = true ∧ s.wait = none ∧ s.status = clearStatus

/-- The half of the invariant that the phase selects. -/
def Control (s : State) : Prop :=
  match s.phase with
  | .idle => s.mode = .none ∧ s.wait = none ∧ s.status = clearStatus
  | .hdr1 => s.mode = .lzma1 ∧ s.wait = none ∧ s.status = clearStatus
  | .rcinit => Streaming s
  | .run => Streaming s
  | .c2ctrl => Chunked s
  | .c2hdr =>
    s.mode = .lzma2 ∧ s.win.allocated = true ∧ s.status = clearStatus ∧
      (s.wait = some .rawd ∧ 1 ≤ s.c2.uncSize.toNat ∧ s.c2.uncSize.toNat ≤ 65536 ∨
        s.wait = some .lzma3 ∧ s.c2.haveDecoder = true)
  | .c2raw => Chunked s ∧ 1 ≤ s.c2.rawLeft.toNat ∧ s.c2.rawLeft.toNat ≤ 65536
  | .done =>
    s.mode ≠ .none ∧ s.win.allocated = true ∧
      (s.wait = none ∧ s.status.kind = .endOk ∧ causeKind s.status.cause = .endOk ∧ s.status.info = 0#32 ∨
        (∃ sd u, s.wait = some (.reopen sd u)) ∧ (s.mode = .lzma1 ∨ s.mode = .raw) ∧
          s.status = clearStatus)
  | .fault =>
    s.mode ≠ .none ∧ s.wait = none ∧ s.status.kind = causeKind s.status.cause ∧
      s.status.kind ≠ .none ∧ s.status.kind ≠ .endOk

theorem status_eq_clear {x : Status} :
    x = clearStatus ↔ x.kind = causeKind x.cause ∧ x.cause = .none ∧ x.info = 0#32 := by
  obtain ⟨k, c, i⟩ := x
  simp only [clearStatus, Status.mk.injEq]
  constructor
  · rintro ⟨rfl, rfl, rfl⟩
    exact ⟨rfl, rfl, rfl⟩
  · rintro ⟨h, rfl, rfl⟩
    exact ⟨h, rfl, rfl⟩

/-- Nothing waits outside the header of a chunk and a run that CMD.REOPEN has begun. -/
theorem PhaseOk.wait_none {s : State} (h : PhaseOk s) (h1 : s.phase ≠ .c2hdr) (h2 : s.phase ≠ .done) :
    s.wait = none := by
  match hw : s.wait with
  | none => rfl
  | some .rawd => exact absurd (h.rawd hw).1 h1
  | some .lzma3 => exact absurd (h.lzma3 hw).1 h1
  | some (.reopen sd u) => exact absurd (h.reopen sd u hw).1 h2

/-- What waits in phase DONE is a CMD.REOPEN. -/
theorem PhaseOk.wait_done {s : State} (h : PhaseOk s) (hp : s.phase = .done) :
    s.wait = none ∨ (∃ sd u, s.wait = some (.reopen sd u)) ∧ (s.mode = .lzma1 ∨ s.mode = .raw) := by
  match hw : s.wait with
  | none => exact .inl rfl
  | some .rawd => simp [(h.rawd hw).1] at hp
  | some .lzma3 => simp [(h.lzma3 hw).1] at hp
  | some (.reopen sd u) => exact .inr ⟨⟨sd, u, rfl⟩, (h.reopen sd u hw).2⟩

theorem control_of_phaseOk {s : State} (h : PhaseOk s) (hs : StatusOk s) : Control s := by
  have clear (h1 : s.phase ≠ .fault) (h2 : s.phase = .done → s.wait ≠ none) : s.status = clearStatus :=
    status_eq_clear.mpr ⟨hs.kind, hs.clear h1 h2⟩
  have mode : s.phase ≠ .idle → s.mode ≠ .none := mt h.idle.mpr
  have wait := h.wait_none
  unfold Control
  split <;> rename_i hp
  case h_6 =>
    refine ⟨h.c2 (by simp [hp]), h.window (by simp [hp]), clear (by simp [hp]) (by simp [hp]), ?_⟩
    exact (h.hdr hp).imp (fun hw => ⟨hw, (h.rawd hw).2⟩) fun hw => ⟨hw, (h.lzma3 hw).2⟩
  case h_8 =>
    refine ⟨mode (by simp [hp]), h.window (by simp [hp]), (h.wait_done hp).imp (fun hw => ?_) fun hw => ?_⟩
    · obtain ⟨hk, hi⟩ := hs.done hp hw
      exact ⟨hw, hk, hs.kind ▸ hk, hi⟩
    · obtain ⟨⟨sd, u, hw⟩, hm⟩ := hw
      exact ⟨⟨sd, u, hw⟩, hm, clear (by simp [hp]) (by simp [hw])⟩
  case h_9 => exact ⟨mode (by simp [hp]), wait (by simp [hp]) (by simp [hp]), hs.kind, hs.fault hp⟩
  all_goals
    obtain ⟨idle, hdr1, c2, window, decoder, raw, -⟩ := h
    simp_all [Streaming, Chunked]

theorem phaseOk_of_control {s : State} (h : Control s) : PhaseOk s := by
  unfold Control at h
  split at h <;> rename_i hp
  case h_6 => obtain ⟨hm, ha, -, ⟨hw, hu⟩ | ⟨hw, hd⟩⟩ := h <;> constructor <;> simp_all
  case h_8 => obtain ⟨hm, ha, ⟨hw, -⟩ | ⟨⟨sd, u, hw⟩, hr, -⟩⟩ := h <;> constructor <;> simp_all
  all_goals constructor <;> simp_all [Streaming, Chunked]

theorem statusOk_of_clear {s : State} (h : s.status = clearStatus) (hf : s.phase ≠ .fault)
    (hd : s.phase = .done → s.wait ≠ none) : StatusOk s where
  kind := (status_eq_clear.mp h).1
  fault hp := absurd hp hf
  done hp hw := absurd hw (hd hp)
  clear _ _ := (status_eq_clear.mp h).2

theorem statusOk_of_control {s : State} (h : Control s) : StatusOk s := by
  unfold Control at h
  split at h <;> rename_i hp
  case h_8 =>
    obtain ⟨-, -, ⟨hw, hk, hc, hi⟩ | ⟨⟨sd, u, hw⟩, -, hst⟩⟩ := h
    · exact ⟨hk.trans hc.symm, by simp [hp], fun _ _ => ⟨hk, hi⟩, fun _ hd => absurd hw (hd hp)⟩
    · exact statusOk_of_clear hst (by simp [hp]) (by simp [hw])
  case h_9 =>
    obtain ⟨-, -, hk, hf⟩ := h
    exact ⟨hk, fun _ => hf, by simp [hp], by simp [hp]⟩
  all_goals exact statusOk_of_clear (by simp_all [Streaming, Chunked]) (by simp [hp]) (by simp [hp])

/-- The invariant of the machine, phase by phase. -/
theorem inv_iff {s : State} : Inv s ↔ Stored s ∧ Control s := by
  constructor
  · intro h
    exact ⟨⟨h.window, h.bare, h.lc, h.lp, h.pb, h.fsm, h.probs, h.slots⟩,
      control_of_phaseOk h.phase h.status⟩
  · rintro ⟨h, hc⟩
    exact ⟨h.window, h.bare, h.lc, h.lp, h.pb, h.fsm, h.probs, h.slots, phaseOk_of_control hc,
      statusOk_of_control hc⟩

end Sys2Proof.Machine
end

section
/-! SUPPORT. A rule at a time: what a rule that completes leads to, and that a rule that raises leads to a sound
state of phase FAULT. -/
namespace Sys2Proof.Machine

/-! ### What a step keeps -/

/-- The registers of the range decoder between passes (40_range_decoder.md R131). -/
def Rc.Normal (rc : Rc) : Prop := rc.corrupted = false → rc.code < rc.range ∧ Config.top ≤ rc.range

theorem rcOk_iff {s : State} : RcOk s ↔ (s.phase = .run → s.rc.Normal) := Iff.rfl

/-- The invariant of the machine, and if `R` that of the range decoder. -/
structure Kept (R : Prop) (s : State) : Prop where
  stored : Stored s
  control : Control s
  rc : R → RcOk s

theorem kept_iff {R : Prop} {s : State} : Kept R s ↔ Inv s ∧ (R → RcOk s) := by
  rw [inv_iff]
  exact ⟨fun h => ⟨⟨h.stored, h.control⟩, h.rc⟩, fun h => ⟨h.1.1, h.1.2, h.2⟩⟩

/-- The range decoder's invariant says nothing outside phase RUN. -/
theorem Kept.of_not_run {R : Prop} {s : State} (hs : Stored s) (hc : Control s) (hp : s.phase ≠ .run) :
    Kept R s :=
  ⟨hs, hc, fun _ h => absurd h hp⟩

theorem Kept.withEnv {R : Prop} {s : State} (h : Kept R s) (e : Env) : Kept R (s.withEnv e) :=
  ⟨h.stored, h.control, h.rc⟩

/-! ### Raising -/

/-- A sound state in phase FAULT. -/
structure Failed (s : State) : Prop where
  stored : Stored s
  control : Control s
  phase : s.phase = .fault

theorem Failed.kept {R : Prop} {s : State} (h : Failed s) : Kept R s :=
  .of_not_run h.stored h.control (by simp [h.phase])

/-- From here a rule can raise: a mode is set and nothing waits. -/
structure MayRaise (s : State) : Prop where
  stored : Stored s
  mode : s.mode ≠ .none
  wait : s.wait = none

/-- The causes a fault can have (60_exceptions.md R302). -/
abbrev Cause.isFault (c : Cause) : Prop := causeKind c ≠ .none ∧ causeKind c ≠ .endOk

theorem MayRaise.failed {s : State} (h : MayRaise s) {c : Cause} (hc : c.isFault) (x : Word) :
    Failed (raiseState c x s) :=
  ⟨h.stored, ⟨h.mode, h.wait, rfl, hc⟩, rfl⟩

theorem endCause_isFault (s : State) : (endCause s).isFault := by
  unfold endCause
  split
  case h_4 => split <;> decide
  all_goals decide

theorem limitCause_isFault (s : State) : (limitCause s).isFault := by
  unfold limitCause
  split <;> decide

/-! ### What a rule leads to -/

/-- If the rule completes, then as `P` says; if it raises, in a sound state of phase FAULT. -/
def Res.Yields {α : Type} (r : Res α) (P : α → State → Prop) : Prop :=
  match r with
  | .ok a s => P a s
  | .raised s => Failed s
  | .held => True
  | .bad _ => True

theorem Res.yields_iff {α : Type} {r : Res α} {P : α → State → Prop} :
    r.Yields P ↔ (∀ a s, r = .ok a s → P a s) ∧ ∀ s, r = .raised s → Failed s := by
  cases r <;> simp [Res.Yields]

theorem Res.Yields.ok {α : Type} {P : α → State → Prop} {a : α} {s : State} (h : P a s) :
    (Res.ok a s).Yields P := h

theorem Res.Yields.mono {α : Type} {r : Res α} {P Q : α → State → Prop} (h : r.Yields P)
    (hPQ : ∀ a s, P a s → Q a s) : r.Yields Q := by
  cases r with
  | ok a s => exact hPQ a s h
  | raised s => exact h
  | held => trivial
  | bad f => trivial

theorem Res.Yields.bind {α β : Type} {r : Res α} {f : α → State → Res β} {P : α → State → Prop}
    {Q : β → State → Prop} (h : r.Yields P) (hf : ∀ a s, P a s → (f a s).Yields Q) :
    (r.bind f).Yields Q := by
  cases r with
  | ok a s => exact hf a s h
  | raised s => exact h
  | held => trivial
  | bad f => trivial

theorem Kept.yields {R : Prop} {s : State} (h : Kept R s) : (Res.ok () s).Yields fun _ => Kept R := h

theorem MayRaise.yields {α : Type} {P : α → State → Prop} {s : State} (h : MayRaise s) {c : Cause}
    (hc : c.isFault) (x : Word) : (raise c x s : Res α).Yields P := h.failed hc x

/-- The outcome of an instruction: what its rule leads to, or held at a pull. -/
theorem kept_of_settle {R : Prop} {s0 t : State} {r : Res Unit} (h : r.Yields fun _ => Kept R)
    (e : settle s0 r = .next t) : Kept R t ∨ t = holdAtPull s0 := by
  rcases settle_eq_next.mp e with rfl | rfl | ⟨-, rfl⟩
  · exact .inl h
  · exact .inl (Failed.kept h)
  · exact .inr rfl

/-- An instruction that runs from a state that meets the invariants leads to one. -/
theorem Kept.settled {R : Prop} {s t : State} {r : Res Unit} (hs : Kept R s)
    (h : r.Yields fun _ => Kept R) (e : settle s r = .next t) : Kept R t := by
  rcases kept_of_settle h e with ht | rfl
  · exact ht
  · exact hs.withEnv _

/-! ### Pulls -/

/-- What pulls write. -/
def Pulled (s t : State) : Prop :=
  ∃ left e n, t = ((s.withC2 { s.c2 with compLeft := left }).withEnv e).withInCount n

theorem Pulled.refl (s : State) : Pulled s s := ⟨_, _, _, rfl⟩

theorem Pulled.trans {s t u : State} (h1 : Pulled s t) (h2 : Pulled t u) : Pulled s u := by
  obtain ⟨_, _, _, rfl⟩ := h1
  obtain ⟨left, e, n, rfl⟩ := h2
  exact ⟨left, e, n, rfl⟩

theorem Pulled.mayRaise {s t : State} (h : Pulled s t) (hs : MayRaise s) : MayRaise t := by
  obtain ⟨_, _, _, rfl⟩ := h
  exact ⟨hs.stored, hs.mode, hs.wait⟩

theorem pulled_takeAnswer (rest : List SrcAnswer) (s : State) : Pulled s (takeAnswer rest (countPull s)) := by
  unfold countPull
  split
  · exact ⟨s.c2.compLeft - 1#17, { s.env with src := rest }, s.inCount, rfl⟩
  · exact ⟨s.c2.compLeft, { s.env with src := rest }, s.inCount, rfl⟩

theorem pull_yields {s : State} (h : MayRaise s) : (pull s).Yields fun _ t => Pulled s t := by
  have taken rest := pulled_takeAnswer rest s
  unfold pull
  split
  · exact h.yields (limitCause_isFault s) _
  · split
    · trivial
    · rename_i b rest heq
      exact (taken rest).trans ⟨_, _, s.inCount + 1, rfl⟩
    · rename_i rest heq
      exact ((taken rest).mayRaise h).yields (endCause_isFault s) _
    · rename_i e rest heq
      exact ((taken rest).mayRaise h).yields (by decide) _

theorem pullN_yields (n : Nat) {s : State} (h : MayRaise s) : (pullN n s).Yields fun _ t => Pulled s t := by
  induction n generalizing s with
  | zero => exact .refl s
  | succ n ih =>
    refine (pull_yields h).bind fun b t ht => (ih (ht.mayRaise h)).bind fun bs u hu => ?_
    exact ht.trans hu

end Sys2Proof.Machine
end

section
/-! SUPPORT. The range decoder in numbers: slots stay in `[31, 2017]`, and a decision from a normal range leaves a
range that one byte makes normal again (40_range_decoder.md R121, R122, R123, R131). -/
namespace Sys2Proof.Machine

/-! ### Slots -/

theorem probUp_toNat {p : BitVec 11} (h : p.toNat ≤ 2017) :
    (probUp p).toNat = p.toNat + (2048 - p.toNat) / 32 := by
  rw [probUp, BitVec.toNat_ofNat, Nat.mod_eq_of_lt (by omega)]

theorem probDown_toNat (p : BitVec 11) : (probDown p).toNat = p.toNat - p.toNat / 32 := by
  have e : (p >>> 5).toNat = p.toNat / 32 := by simp [Nat.shiftRight_eq_div_pow]
  rw [probDown, BitVec.toNat_sub_of_le (by rw [BitVec.le_def, e]; omega), e]

theorem probAfter_range {rc : Rc} {p : BitVec 11} (h : 31#11 ≤ p ∧ p ≤ 2017#11) :
    31#11 ≤ probAfter rc p ∧ probAfter rc p ≤ 2017#11 := by
  simp only [BitVec.le_def, BitVec.toNat_ofNat] at h ⊢
  unfold probAfter
  split
  · rw [probDown_toNat]
    omega
  · rw [probUp_toNat h.2]
    omega

theorem slotPut_mem {m : ProbMem} {a : Nat} {v : BitVec 11} {c : Nat × BitVec 11} (h : c ∈ slotPut m a v) :
    c = (a, v) ∨ c ∈ m := by
  unfold slotPut at h
  split at h
  · exact .inr (List.mem_filter.mp h).1
  · exact mem_cellPut h

/-- Writing a slot with a value in range keeps what the invariant says of PROB. -/
theorem Sound.slotPut {w : Win} {c : Cfg} {x : BitVec 4} {m : ProbMem} (h : Sound w c x m) {a : Nat}
    {v : BitVec 11} (hv : 31#11 ≤ v ∧ v ≤ 2017#11) : Sound w c x (slotPut m a v) where
  window := h.window
  bare := h.bare
  lc := h.lc
  lp := h.lp
  pb := h.pb
  fsm := h.fsm
  probs := ProbMem.wf_slotPut a v h.probs
  slots d hd := by
    rcases slotPut_mem hd with rfl | hd
    · exact hv
    · exact h.slots d hd

/-! ### Range and code -/

/-- What a decision leaves: one byte makes it normal. -/
def Rc.NearNormal (rc : Rc) : Prop := rc.corrupted = false → rc.code < rc.range ∧ 0x10000#32 ≤ rc.range

theorem rcBound_toNat (r : Word) (p : BitVec 11) : (rcBound r p).toNat = r.toNat / 2048 * p.toNat := by
  have hr : r.toNat / 2048 < 2 ^ 21 := by have := r.isLt; omega
  have := Nat.mul_lt_mul'' hr p.isLt
  simp only [rcBound, BitVec.toNat_mul, BitVec.toNat_ushiftRight, BitVec.toNat_setWidth,
    Nat.shiftRight_eq_div_pow]
  rw [Nat.mod_eq_of_lt (a := p.toNat) (by omega), Nat.mod_eq_of_lt (by omega)]

theorem rcAfter_nearNormal {rc : Rc} {p : BitVec 11} (h : rc.Normal) (hp : 31#11 ≤ p ∧ p ≤ 2017#11) :
    Rc.NearNormal (rcAfter rc p) := by
  have hb := rcBound_toNat rc.range p
  simp only [BitVec.le_def, BitVec.toNat_ofNat] at hp
  have h1 : rc.range.toNat / 2048 * 31 ≤ (rcBound rc.range p).toNat := hb ▸ Nat.mul_le_mul_left _ hp.1
  have h2 : (rcBound rc.range p).toNat ≤ rc.range.toNat / 2048 * 2017 := hb ▸ Nat.mul_le_mul_left _ hp.2
  intro hcor
  by_cases hc : rc.code < rcBound rc.range p
  · have e : rcAfter rc p = { rc with range := rcBound rc.range p } := by simp [rcAfter, rcBitOf, hc]
    rw [e] at hcor ⊢
    obtain ⟨h3, h4⟩ := h hcor
    refine ⟨hc, ?_⟩
    simp only [Config.top, BitVec.le_def, BitVec.toNat_ofNat] at h4 ⊢
    omega
  · have e : rcAfter rc p = { rc with
        code := rc.code - rcBound rc.range p, range := rc.range - rcBound rc.range p } := by
      simp [rcAfter, rcBitOf, hc]
    rw [e] at hcor ⊢
    obtain ⟨h3, h4⟩ := h hcor
    have hle := BitVec.not_lt.mp hc
    simp only [Config.top, BitVec.lt_def, BitVec.le_def, BitVec.toNat_ofNat] at h3 h4 hle ⊢
    rw [BitVec.toNat_sub_of_le hle, BitVec.toNat_sub_of_le (BitVec.le_def.mpr (by omega))]
    omega

/-- Half a normal range is still above 2^16; a code that reaches it is flagged (R123). -/
theorem directAfter_nearNormal {rc : Rc} (h : rc.Normal) : Rc.NearNormal (directAfter rc) := by
  intro hcor
  simp only [directAfter, directCorrupted, Bool.or_eq_false_iff, beq_eq_false_iff_ne] at hcor ⊢
  obtain ⟨h1, h2⟩ := h hcor.1
  have hne := mt BitVec.eq_of_toNat_eq hcor.2
  have half : (rc.range >>> 1).toNat = rc.range.toNat / 2 := by simp [Nat.shiftRight_eq_div_pow]
  simp only [Config.top, BitVec.lt_def, BitVec.le_def, BitVec.toNat_ofNat] at h1 h2 ⊢
  by_cases hb : rc.range >>> 1 ≤ rc.code
  · simp only [directBitOf, hb, decide_true, if_true, BitVec.toNat_sub_of_le hb, half] at hne ⊢
    omega
  · have := BitVec.lt_def.mp (BitVec.not_le.mp hb)
    simp only [directBitOf, hb, decide_false, Bool.false_eq_true, if_false, half] at this ⊢
    omega

theorem rcShift_normal {rc : Rc} (h : rc.NearNormal) (hr : rc.range < Config.top) (b : Byte) :
    Rc.Normal (rcShift b rc) := by
  intro hcor
  obtain ⟨h1, h2⟩ := h hcor
  have hb := b.isLt
  simp only [Config.top, BitVec.lt_def, BitVec.le_def, BitVec.toNat_ofNat] at hr h1 h2
  have shl (x : Word) (hx : x.toNat < 2 ^ 24) : (x <<< 8).toNat = x.toNat <<< 8 := by
    rw [BitVec.toNat_shiftLeft, Nat.shiftLeft_eq, Nat.mod_eq_of_lt (by omega)]
  have code : (rc.code <<< 8 ||| b.setWidth 32).toNat = rc.code.toNat * 256 + b.toNat := by
    rw [BitVec.toNat_or, shl _ (by omega), BitVec.toNat_setWidth, Nat.mod_eq_of_lt (by omega),
      ← Nat.shiftLeft_add_eq_or_of_lt hb, Nat.shiftLeft_eq]
  simp only [rcShift, Config.top, BitVec.lt_def, BitVec.le_def, BitVec.toNat_ofNat, code,
    shl rc.range (by omega), Nat.shiftLeft_eq]
  omega

theorem Rc.NearNormal.of_normal {rc : Rc} (h : rc.NearNormal) (hr : Config.top ≤ rc.range) : rc.Normal :=
  fun hc => ⟨(h hc).1, hr⟩

/-- RC.INIT's range is the largest, and a code that reaches it is flagged (R120). -/
theorem rcLoad_normal (b0 : Byte) (code : Word) : Rc.Normal (rcLoad b0 code) := by
  intro hcor
  simp only [rcLoad, initCorrupted, Bool.or_eq_false_iff, beq_eq_false_iff_ne] at hcor ⊢
  have hne := mt BitVec.eq_of_toNat_eq hcor.2
  have := code.isLt
  simp only [Config.top, BitVec.lt_def, BitVec.le_def, BitVec.toNat_ofNat] at hne ⊢
  omega

end Sys2Proof.Machine
end

section
/-! SUPPORT. A pass of phase RUN: every part of it keeps the invariants, or raises into a sound state
(43_state_machine.md R185 to R204). -/
namespace Sys2Proof.Machine

variable {R : Prop} {n : Nat} {s : State}

/-! ### Updates of one half of what is stored -/

theorem Sound.withWin {w w' : Win} {c : Cfg} {x : BitVec 4} {m : ProbMem} (h : Sound w c x m) (hw : WinOk w')
    (hd : c.dictSize = w'.size) : Sound w' c x m :=
  ⟨fun _ => ⟨hw, hd⟩, fun hb => by simp [hw.allocated] at hb, h.lc, h.lp, h.pb, h.fsm, h.probs, h.slots⟩

theorem Sound.withFsm {w : Win} {c : Cfg} {x x' : BitVec 4} {m : ProbMem} (h : Sound w c x m)
    (hx : x' < 12#4) : Sound w c x' m :=
  { h with fsm := hx }

/-! ### In a pass -/

/-- In phase RUN, with room for `n` more pending bytes. -/
structure Running (R : Prop) (n : Nat) (s : State) : Prop where
  phase : s.phase = .run
  stored : Stored s
  streaming : Streaming s
  rc : R → s.rc.Normal
  room : s.win.pending + n ≤ s.win.size.toNat

theorem Running.kept (h : Running R n s) : Kept R s :=
  ⟨h.stored, by simpa only [Control, h.phase] using h.streaming, fun hR => rcOk_iff.mpr fun _ => h.rc hR⟩

theorem Running.mayRaise (h : Running R n s) : MayRaise s := by
  obtain ⟨hm, -, -, hw, -⟩ := h.streaming
  exact ⟨h.stored, hm, hw⟩

theorem Running.mono (h : Running R n s) {m : Nat} (hm : m ≤ n) : Running R m s :=
  { h with room := by have := h.room; omega }

theorem Running.window (h : Running R n s) : WinOk s.win ∧ s.cfg.dictSize = s.win.size :=
  h.stored.window h.streaming.2.1

/-- A pass begins with nothing pending, and a window holds more than the longest copy writes. -/
theorem Kept.running (h : Kept R s) (hp : s.phase = .run) (hw : s.win.pending = 0) : Running R 273 s := by
  have hc : Streaming s := by simpa only [Control, hp] using h.control
  have hsize := BitVec.le_def.mp (h.stored.window hc.2.1).1.size
  refine ⟨hp, h.stored, hc, fun hR => rcOk_iff.mp (h.rc hR) hp, ?_⟩
  simp only [BitVec.toNat_ofNat] at hsize
  omega

/-! ### Decisions -/

theorem Running.of_decodeFrame {t : State} (h : Running R n s) (hf : decodeFrame s t)
    (hs : Sound s.win s.cfg s.st.state t.prob) (hrc : R → t.rc.Normal) : Running R n t := by
  have hphase : t.phase = .run := by rw [hf]; exact h.phase
  have hstored : Stored t := by rw [hf]; exact hs
  have hstreaming : Streaming t := by rw [hf]; exact h.streaming
  have hroom : t.win.pending + n ≤ t.win.size.toNat := by rw [hf]; exact h.room
  exact ⟨hphase, hstored, hstreaming, hrc, hroom⟩

theorem rcNorm_normal {t : State} (h : s.rc.NearNormal) (e : rcNorm s = .ok () t) : t.rc.Normal := by
  rcases rcNorm_eq_ok e with ⟨hr, rfl⟩ | ⟨hr, b, rest, -, -, rfl⟩
  · exact h.of_normal hr
  · exact rcShift_normal h hr b

theorem rcNorm_raised {t : State} (h : MayRaise s) (e : rcNorm s = .raised t) : Failed t := by
  unfold rcNorm at e
  split at e
  · rcases Res.bind_eq_raised.mp e with e | ⟨b, u, -, e⟩
    · exact (Res.yields_iff.mp (pull_yields h)).2 t e
    · cases e
  · cases e

theorem rcBit_yields (h : Running R n s) (T : Table) (i : Nat) :
    (rcBit T i s).Yields fun _ t => Running R n t := by
  have hp : 31#11 ≤ probAt s T i ∧ probAt s T i ≤ 2017#11 := slotGet_mem_range h.stored.slots _
  have hs : Stored (rcDecide T i s) := h.stored.slotPut (probAfter_range hp)
  refine Res.yields_iff.mpr ⟨fun b t e => ?_, fun t e => ?_⟩
  · obtain ⟨hf, hprob, -⟩ := rcBit_frame e
    obtain ⟨-, -, hn⟩ := rcBit_eq_ok e
    refine h.of_decodeFrame hf (hprob ▸ hs) fun hR => ?_
    exact rcNorm_normal (rcAfter_nearNormal (h.rc hR) hp) hn
  · unfold rcBit at e
    split at e
    · rcases Res.bind_eq_raised.mp e with e | ⟨_, _, -, e⟩
      · exact rcNorm_raised ⟨hs, h.mayRaise.mode, h.mayRaise.wait⟩ e
      · cases e
    · cases e

theorem rcDirectBit_yields (h : Running R n s) : (rcDirectBit s).Yields fun _ t => Running R n t := by
  refine Res.yields_iff.mpr ⟨fun b t e => ?_, fun t e => ?_⟩
  · obtain ⟨hf, hprob, -⟩ := rcDirectBit_frame e
    obtain ⟨-, hn⟩ := rcDirectBit_eq_ok e
    refine h.of_decodeFrame hf (hprob ▸ h.stored) fun hR => ?_
    exact rcNorm_normal (directAfter_nearNormal (h.rc hR)) hn
  · rcases Res.bind_eq_raised.mp e with e | ⟨_, _, -, e⟩
    · exact rcNorm_raised (s := s.withRc (directAfter s.rc)) ⟨h.stored, h.mayRaise.mode, h.mayRaise.wait⟩ e
    · cases e

theorem rcDirect_yields (h : Running R n s) (k : Nat) (v : Word) :
    (rcDirect k v s).Yields fun _ t => Running R n t := by
  induction k generalizing v s with
  | zero => exact h
  | succ k ih => exact (rcDirectBit_yields h).bind fun _ _ ht => ih ht _

/-! ### Trees, lengths, literals and distances -/

/-- A walk of `k` levels from node `m` ends `k` levels below it. -/
theorem btWalk_yields (h : Running R n s) (T : Table) (base k m : Nat) :
    (btWalk T base k m s).Yields fun v t => Running R n t ∧ v < (m + 1) * 2 ^ k := by
  induction k generalizing m s with
  | zero => exact ⟨h, by omega⟩
  | succ k ih =>
    refine (rcBit_yields h _ _).bind fun b t ht => (ih ht _).mono fun v u hu => ⟨hu.1, ?_⟩
    have hchild : treeChild m b + 1 ≤ (m + 1) * 2 := by cases b <;> simp [treeChild] <;> omega
    calc v < (treeChild m b + 1) * 2 ^ k := hu.2
      _ ≤ (m + 1) * 2 * 2 ^ k := Nat.mul_le_mul_right _ hchild
      _ = (m + 1) * 2 ^ (k + 1) := by ring

theorem btDec_yields (h : Running R n s) (T : Table) (base k : Nat) :
    (btDec T base k s).Yields fun v t => Running R n t ∧ v < 2 ^ k := by
  refine (btWalk_yields h T base k 1).bind fun v t ht => ⟨ht.1, ?_⟩
  have := ht.2
  have := Nat.two_pow_pos k
  omega

theorem btRwalk_yields (h : Running R n s) (T : Table) (base k i m v : Nat) :
    (btRwalk T base k i m v s).Yields fun _ t => Running R n t := by
  induction k generalizing i m v s with
  | zero => exact h
  | succ k ih => exact (rcBit_yields h _ _).bind fun _ _ ht => ih ht _ _ _

/-- A length index is at most 271 (41_bittree_length.md R144). -/
theorem lenDec_yields (h : Running R n s) (l : LenInst) (ps : BitVec 4) :
    (lenDec l ps s).Yields fun v t => Running R n t ∧ v ≤ 271 := by
  refine (rcBit_yields h _ _).bind fun c t ht => ?_
  split
  · refine (rcBit_yields ht _ _).bind fun c2 u hu => ?_
    split
    · exact (btDec_yields hu _ _ _).bind fun v w hw => ⟨hw.1, by have := hw.2; omega⟩
    · exact (btDec_yields hu _ _ _).bind fun v w hw => ⟨hw.1, by have := hw.2; omega⟩
  · exact (btDec_yields ht _ _ _).mono fun v w hw => ⟨hw.1, by have := hw.2; omega⟩

theorem litDec_yields (h : Running R n s) (ls : Nat) : (litDec ls s).Yields fun _ t => Running R n t :=
  (btWalk_yields h _ _ _ _).bind fun _ _ ht => ht.1

theorem litMatched_yields (h : Running R n s) (base : Nat) (mb : Byte) (k : Nat) (same : Bool) (m : Nat) :
    (litMatched base mb k same m s).Yields fun _ t => Running R n t := by
  induction k generalizing same m s with
  | zero => exact h
  | succ k ih =>
    cases same with
    | true => exact (rcBit_yields h _ _).bind fun _ _ ht => ih ht _ _
    | false => exact (rcBit_yields h _ _).bind fun _ _ ht => ih ht _ _

theorem litDecm_yields (h : Running R n s) (ls : Nat) (mb : Byte) :
    (litDecm ls mb s).Yields fun _ t => Running R n t :=
  (litMatched_yields h _ _ _ _ _).bind fun _ _ ht => ht

theorem distDec_yields (h : Running R n s) (k : Nat) : (distDec k s).Yields fun _ t => Running R n t := by
  refine (btDec_yields h _ _ _).bind fun slot t ht => ?_
  unfold distLow
  split
  · exact ht.1
  · split
    · exact (btRwalk_yields ht.1 _ _ _ _ _ _).bind fun _ _ hu => hu
    · refine (rcDirect_yields ht.1 _ _).bind fun d u hu => ?_
      exact (btRwalk_yields hu _ _ _ _ _ _).bind fun _ _ hv => hv

/-! ### Parts of the operations -/

theorem Running.withRem (h : Running R n s) (x : BitVec 64) : Running R n (s.withRem x) := { h with }

theorem Running.useRem (h : Running R n s) (k : BitVec 64) : Running R n (useRem k s) := by
  rw [useRem_eq]
  exact h.withRem _

/-- The rep registers are free; the FSM state is not. -/
theorem Running.withSt (h : Running R n s) {f : Fsm} (hf : f.state < 12#4) : Running R n (s.withSt f) :=
  { h with stored := h.stored.withFsm hf }

theorem afterLiteral_lt : ∀ x < 12#4, afterLiteral x < 12#4 := by decide

theorem afterMatch_lt (x : BitVec 4) : afterMatch x < 12#4 := by
  unfold afterMatch
  split <;> decide

theorem afterRep_lt (x : BitVec 4) : afterRep x < 12#4 := by
  unfold afterRep
  split <;> decide

theorem afterShortRep_lt (x : BitVec 4) : afterShortRep x < 12#4 := by
  unfold afterShortRep
  split <;> decide

theorem winGet_yields (d : Nat) (s : State) : (winGet d s).Yields fun _ t => t = s := by
  unfold winGet memRead
  split
  · split
    · split
      · rfl
      · trivial
    · trivial
  · trivial

theorem winPut_yields (b : Byte) (s : State) :
    (winPut b s).Yields fun _ t => t = s.withWin (putWin b s.win) := by
  unfold winPut
  split
  · rfl
  · trivial

theorem Running.putWin (h : Running R (n + 1) s) (b : Byte) : Running R n (s.withWin (putWin b s.win)) := by
  obtain ⟨hw, hd⟩ := h.window
  have hroom := h.room
  refine { h with stored := h.stored.withWin (hw.putWin (by omega) b) hd, room := ?_ }
  simp only [State.withWin_win, putWin_pending, putWin_size]
  omega

/-- WIN.PUT uses up the room for one byte. -/
theorem Running.winPut (h : Running R (n + 1) s) (b : Byte) :
    (winPut b s).Yields fun _ t => Running R n t :=
  (winPut_yields b s).mono fun _ _ ht => ht ▸ h.putWin b

theorem winCopy_yields (d k : Nat) (h : Running R k s) : (winCopy d k s).Yields fun _ t => Running R 0 t := by
  induction k generalizing s with
  | zero => exact h
  | succ k ih =>
    refine (winGet_yields d s).bind fun b t ht => ?_
    subst ht
    exact (h.winPut b).bind fun _ u hu => ih hu

theorem chkBack_yields (h : Running R n s) : (chkBack s).Yields fun _ t => Running R n t := by
  unfold chkBack
  split
  · exact h
  · exact h.mayRaise.yields (by decide) _

theorem copy_yields (h : Running R (n + 2) s) : (copy n s).Yields fun _ => Kept R := by
  unfold copy
  dsimp only
  split
  case isTrue hr =>
    have hlt : s.rem.toNat < n + 2 := of_decide_eq_true (Bool.and_eq_true_iff.mp hr).2
    refine (winCopy_yields _ _ (h.mono (by omega))).bind fun _ t ht => ?_
    exact (ht.withRem 0#64).mayRaise.yields (by decide) _
  case isFalse => exact (winCopy_yields _ _ h).bind fun _ t ht => (ht.useRem _).kept

/-! ### Ends of the main loop -/

theorem chunkEnd_yields (h : Running R n s) (hm : s.mode = .lzma2) : (chunkEnd s).Yields fun _ => Kept R := by
  obtain ⟨-, ha, -, hw, hst⟩ := h.streaming
  unfold chunkEnd
  split
  · exact .of_not_run h.stored ⟨hm, ha, hw, hst⟩ (by simp)
  · exact h.mayRaise.yields (by decide) _

theorem kept_finish (hs : Stored s) (hm : s.mode ≠ .none) (ha : s.win.allocated = true) (hw : s.wait = none)
    {c : Cause} (hc : causeKind c = .endOk) : Kept R (finish c s) :=
  .of_not_run hs ⟨hm, ha, .inl ⟨hw, rfl, hc, rfl⟩⟩ (by simp [finish])

theorem stop_yields (h : Running R n s) {c : Cause} (hc : causeKind c = .endOk) :
    (stop c s).Yields fun _ => Kept R := by
  obtain ⟨hm, ha, -, hw, -⟩ := h.streaming
  unfold stop
  split
  · exact chunkEnd_yields h ‹_›
  · exact kept_finish h.stored hm ha hw hc

/-! ### The symbol-level operations -/

theorem litByte_yields (h : Running R n s) : (litByte s).Yields fun _ t => Running R n t := by
  refine Res.Yields.bind (P := fun _ t => t = s) ?_ fun prev t ht => ?_
  · split
    · rfl
    · exact winGet_yields 1 s
  subst ht
  split
  · refine (chkBack_yields h).bind fun _ u hu => (winGet_yields _ u).bind fun mb v hv => ?_
    subst hv
    exact litDecm_yields hu _ _
  · exact litDec_yields h _

theorem lit_yields (h : Running R 273 s) : (lit s).Yields fun _ => Kept R := by
  unfold lit
  split
  · exact h.mayRaise.yields (by decide) _
  · refine (litByte_yields h).bind fun b t ht => (ht.winPut b).bind fun _ u hu => ?_
    exact ((hu.withSt (afterLiteral_lt _ hu.stored.fsm)).useRem _).kept

theorem eos_yields (h : Running R n s) : (eos s).Yields fun _ => Kept R := by
  unfold eos
  split
  · exact h.mayRaise.yields (by decide) _
  · split
    · exact h.mayRaise.yields (by decide) _
    · exact stop_yields h rfl

theorem simpleMatch_yields (h : Running R 273 s) : (simpleMatch s).Yields fun _ => Kept R := by
  refine (lenDec_yields (h.withSt (f := rotateReps s.st) h.stored.fsm) _ _).bind fun n t ht => ?_
  refine (distDec_yields (ht.1.withSt (afterMatch_lt _)) n).bind fun d u hu => ?_
  have hrep := hu.withSt (f := { u.st with rep0 := d }) hu.stored.fsm
  dsimp only
  split
  · exact eos_yields hrep
  · exact (chkBack_yields hrep).bind fun _ v hv => copy_yields (hv.mono (by have := ht.2; omega))

theorem srep_yields (h : Running R 273 s) : (srep s).Yields fun _ => Kept R := by
  refine (chkBack_yields h).bind fun _ t ht => (winGet_yields _ t).bind fun b u hu => ?_
  subst hu
  refine (ht.winPut b).bind fun _ v hv => ?_
  exact ((hv.withSt (afterShortRep_lt _)).useRem _).kept

theorem repTail_yields (h : Running R 273 s) : (repTail s).Yields fun _ => Kept R := by
  refine (lenDec_yields h _ _).bind fun n t ht => ?_
  refine (chkBack_yields (ht.1.withSt (afterRep_lt _))).bind fun _ u hu => ?_
  exact copy_yields (hu.mono (by have := ht.2; omega))

/-! ### Fetching a symbol -/

/-- The outcome of an instruction whose rule keeps the invariants. -/
def Runs (R : Prop) (o : Outcome) : Prop := ∃ s r, o = settle s r ∧ r.Yields fun _ => Kept R

theorem fetchRep_yields (h : Running R 273 s) (ps : BitVec 4) :
    (fetchRep ps s).Yields fun i t => Runs R (exec i t) := by
  have rep {t : State} (ht : Running R 273 t) {f : Fsm} (hf : f.state < 12#4) := repTail_yields (ht.withSt hf)
  unfold fetchRep
  dsimp only
  split
  · exact h.mayRaise.yields (by decide) _
  split
  · exact h.mayRaise.yields (by decide) _
  refine (rcBit_yields h _ _).bind fun g0 t ht => ?_
  split
  · refine (rcBit_yields ht _ _).bind fun g1 u hu => ?_
    split
    · refine (rcBit_yields hu _ _).bind fun g2 v hv => ?_
      cases g2 with
      | true => exact ⟨_, _, rfl, rep hv (f := promote3 v.st) hv.stored.fsm⟩
      | false => exact ⟨_, _, rfl, rep hv (f := promote2 v.st) hv.stored.fsm⟩
    · exact ⟨_, _, rfl, rep hu (f := promote1 u.st) hu.stored.fsm⟩
  · refine (rcBit_yields ht _ _).bind fun l u hu => ?_
    cases l with
    | true => exact ⟨_, _, rfl, repTail_yields hu⟩
    | false => exact ⟨_, _, rfl, srep_yields hu⟩

theorem fetchSymbol_yields (h : Running R 273 s) : (fetchSymbol s).Yields fun i t => Runs R (exec i t) := by
  refine (rcBit_yields h _ _).bind fun m t ht => ?_
  split
  · refine (rcBit_yields ht _ _).bind fun r u hu => ?_
    split
    · exact fetchRep_yields hu _
    · exact ⟨_, _, rfl, simpleMatch_yields hu⟩
  · exact ⟨_, _, rfl, lit_yields ht⟩

end Sys2Proof.Machine
end

section
/-! SUPPORT. Headers, host commands and chunk kinds: each begins or goes on with a run in a state that meets the
invariants (45_lzma1_reader.md, 46_lzma2_demux.md). -/
namespace Sys2Proof.Machine

variable {R : Prop} {s : State}

/-! ### Updates of what is stored -/

theorem WinOk.emptyWin {size : Word} (h : 4096#32 ≤ size) : WinOk (emptyWin size) where
  allocated := rfl
  size := h
  cursor := by
    simp only [BitVec.le_def, BitVec.lt_def, Machine.emptyWin, BitVec.toNat_ofNat] at h ⊢
    omega
  cells := rfl
  inside c hc := by cases hc
  written d h1 h2 := by
    have h0 : winValid (Machine.emptyWin size) = 0 := rfl
    omega
  pending := Nat.zero_le _

theorem WinOk.rewound {w : Win} (h : WinOk w) : WinOk (rewound w) where
  allocated := h.allocated
  size := h.size
  cursor := by
    have := BitVec.lt_def.mp h.cursor
    simp only [BitVec.lt_def, Machine.rewound, BitVec.toNat_ofNat]
    omega
  cells := h.cells
  inside := h.inside
  written d h1 h2 := by
    have h0 : winValid (Machine.rewound w) = 0 := rfl
    omega
  pending := Nat.zero_le _

theorem stored_reset : Stored State.reset where
  window h := by cases h
  bare _ := rfl
  lc := by decide
  lp := by decide
  pb := by decide
  fsm := by decide
  probs := rfl
  slots c hc := by cases hc

theorem Stored.smReset (h : Stored s) : Stored (smReset s) :=
  { h with fsm := stored_reset.fsm, probs := rfl, slots := stored_reset.slots }

theorem propLc_le (d : Byte) : propLc d ≤ 8#4 := by
  simp only [propLc, BitVec.le_def, BitVec.toNat_ofNat]
  omega

theorem propLp_le (d : Byte) : propLp d ≤ 4#3 := by
  simp only [propLp, BitVec.le_def, BitVec.toNat_ofNat]
  omega

theorem propPb_le {d : Byte} (hd : d.toNat < 225) : propPb d ≤ 4#3 := by
  simp only [propPb, BitVec.le_def, BitVec.toNat_ofNat]
  omega

theorem Stored.loadProps (h : Stored s) {d : Byte} (hd : d.toNat < 225) :
    Stored (loadProps (propLc d) (propLp d) (propPb d) s) :=
  { h with lc := propLc_le d, lp := propLp_le d, pb := propPb_le hd }

theorem Stored.allocate (h : Stored s) {ds : Word} (hd : 4096#32 ≤ ds) : Stored (allocate ds s) :=
  { h with window := fun _ => ⟨.emptyWin hd, rfl⟩, bare := fun hb => by cases hb }

theorem Stored.winReset (h : Stored s) (ha : s.win.allocated = true) : Stored (winReset s) :=
  have ⟨hw, hd⟩ := h.window ha
  h.withWin hw.rewound hd

/-- Fewer bytes are pending. -/
theorem Stored.lessPending (h : Stored s) {n : Nat} (hn : n ≤ s.win.pending) :
    Stored (s.withWin { s.win with pending := n }) := by
  cases ha : s.win.allocated with
  | true =>
    obtain ⟨hw, hd⟩ := h.window ha
    exact h.withWin (hw.lessPending (hn.trans hw.pending)) hd
  | false =>
    have hb := h.bare ha
    have h0 : n = s.win.pending := by
      have : s.win.pending = 0 := by rw [hb]; rfl
      omega
    subst h0
    exact h

/-! ### A run that has begun -/

/-- A run of mode `m` has begun: nothing waits and `STATUS` is clear. -/
structure Begun (m : Mode) (s : State) : Prop where
  stored : Stored s
  mode : s.mode = m
  wait : s.wait = none
  status : s.status = clearStatus

theorem Begun.mayRaise {m : Mode} (h : Begun m s) (hm : m ≠ .none) : MayRaise s :=
  ⟨h.stored, h.mode ▸ hm, h.wait⟩

theorem Begun.of_pulled {m : Mode} {t : State} (h : Begun m s) (ht : Pulled s t) : Begun m t := by
  obtain ⟨_, _, _, rfl⟩ := ht
  exact ⟨h.stored, h.mode, h.wait, h.status⟩

theorem begun_beginRun (h : Stored s) : Begun s.mode (beginRun s) := ⟨h, rfl, rfl, rfl⟩

theorem begun_beginStart (h : Stored s) (m : Mode) : Begun m (beginStart m s) := by
  have hd : Stored (dropPending (beginRun s)) := (begun_beginRun h).stored.lessPending (Nat.zero_le _)
  exact ⟨hd, rfl, rfl, rfl⟩

theorem propCheck_yields (h : MayRaise s) (d : Byte) :
    (propCheck d s).Yields fun _ t => t = s ∧ d.toNat < 225 := by
  unfold propCheck
  split
  · exact h.yields (by decide) _
  · rename_i hd
    split
    · exact h.yields (by decide) _
    · exact ⟨rfl, BitVec.lt_def.mp (BitVec.not_le.mp hd)⟩

theorem le_clampDict (d : Word) : 4096#32 ≤ clampDict d := by
  unfold clampDict
  split
  · decide
  · exact BitVec.not_lt.mp ‹_›

theorem dictCheck_yields (h : MayRaise s) (d : Word) :
    (dictCheck d s).Yields fun ds t => t = s ∧ 4096#32 ≤ ds := by
  unfold dictCheck
  split
  · exact h.yields (by decide) _
  · exact ⟨rfl, le_clampDict d⟩

theorem loadSize_eq (sd : Bool) (u : BitVec 64) (s : State) :
    loadSize sd u s = (s.withSizeDefined sd).withRem (if sd then u else s.rem) := by
  cases sd <;> rfl

theorem reopenEnd_kept {m : Mode} (h : Begun m s) (ha : s.win.allocated = true) (hm : m ≠ .none)
    (h2 : m ≠ .lzma2) (sd : Bool) (u : BitVec 64) : Kept R (reopenEnd sd u s) := by
  have hmode := h.mode
  unfold reopenEnd
  rw [loadSize_eq]
  exact .of_not_run h.stored ⟨hmode ▸ hm, ha, fun e => absurd (hmode.symm.trans e) h2, h.wait, h.status⟩
    (by simp)

theorem Begun.loadProps {m : Mode} (h : Begun m s) {d : Byte} (hd : d.toNat < 225) :
    Begun m (loadProps (propLc d) (propLp d) (propPb d) s) :=
  ⟨h.stored.loadProps hd, h.mode, h.wait, h.status⟩

theorem Begun.allocate {m : Mode} (h : Begun m s) {ds : Word} (hd : 4096#32 ≤ ds) : Begun m (allocate ds s) :=
  ⟨h.stored.allocate hd, h.mode, h.wait, h.status⟩

theorem Begun.smReset {m : Mode} (h : Begun m s) : Begun m (smReset s) :=
  ⟨h.stored.smReset, h.mode, h.wait, h.status⟩

theorem constructRun_shared (d : Byte) (ds : Word) (sd : Bool) (u : BitVec 64) (s : State) :
    constructRun d ds sd u true s =
      reopenEnd sd u (smReset (loadProps (propLc d) (propLp d) (propPb d) s)) := rfl

theorem constructRun_own (d : Byte) (ds : Word) (sd : Bool) (u : BitVec 64) (s : State) :
    constructRun d ds sd u false s =
      reopenEnd sd u (smReset (allocate ds (loadProps (propLc d) (propLp d) (propPb d) s))) := rfl

/-- CONSTRUCT and phase RCINIT: with a shared window one is allocated, else the dictionary size is legal. -/
theorem constructRun_kept {m : Mode} (h : Begun m s) (hm : m ≠ .none) (h2 : m ≠ .lzma2) {d : Byte}
    (hd : d.toNat < 225) {ds : Word} {shared : Bool}
    (hsh : shared = true → s.win.allocated = true) (hds : shared = false → 4096#32 ≤ ds) (sd : Bool)
    (u : BitVec 64) :
    Kept R (constructRun d ds sd u shared s) := by
  have hb := h.loadProps hd
  cases shared with
  | true =>
    rw [constructRun_shared]
    exact reopenEnd_kept hb.smReset (hsh rfl) hm h2 sd u
  | false =>
    rw [constructRun_own]
    exact reopenEnd_kept (hb.allocate (hds rfl)).smReset rfl hm h2 sd u

/-! ### HDR1 and the prologue -/

theorem hdr1_yields (h : Begun .lzma1 s) (d : Byte) (dict : Word) (u : BitVec 64) :
    (hdr1 d dict u s).Yields fun _ => Kept R := by
  have hr := h.mayRaise (by decide)
  refine (propCheck_yields hr d).bind fun _ t ⟨ht, hd⟩ => ?_
  subst ht
  refine (dictCheck_yields hr dict).bind fun ds u ⟨hu, hds⟩ => ?_
  subst hu
  exact (constructRun_kept h (by decide) (by decide) hd (by simp) (fun _ => hds) _ _).yields

theorem fetchHdr1_yields (h : Kept R s) (hp : s.phase = .hdr1) :
    (fetchHdr1 s).Yields fun i t => Runs R (exec i t) := by
  obtain ⟨hm, hw, hst⟩ : s.mode = .lzma1 ∧ s.wait = none ∧ s.status = clearStatus := by
    simpa only [Control, hp] using h.control
  have hb : Begun .lzma1 s := ⟨h.stored, hm, hw, hst⟩
  refine (pullN_yields 13 (hb.mayRaise (by decide))).bind fun b t ht => ?_
  exact ⟨t, _, rfl, hdr1_yields (hb.of_pulled ht) _ _ _⟩

/-- RC.INIT loads a normal range, or flags the stream (40_range_decoder.md R120). -/
theorem rcInit_kept (h : Stored s) (hc : Streaming s) (b0 : Byte) (code : Word) :
    Kept R ((s.withRc (rcLoad b0 code)).withPhase .run) :=
  ⟨h, hc, fun _ _ => rcLoad_normal b0 code⟩

theorem fetchPrologue_yields (h : Kept R s) (hp : s.phase = .rcinit) :
    (fetchPrologue s).Yields fun i t => Runs R (exec i t) := by
  have hc : Streaming s := by simpa only [Control, hp] using h.control
  have hpull := pullN_yields 5 ⟨h.stored, hc.1, hc.2.2.2.1⟩
  unfold fetchPrologue
  cases e : pullN 5 s with
  | ok b t =>
    rw [e] at hpull
    obtain ⟨hs, hst⟩ : Stored t ∧ Streaming t := by
      obtain ⟨_, _, _, rfl⟩ := hpull
      exact ⟨h.stored, hc⟩
    exact ⟨t, _, rfl, (rcInit_kept hs hst _ _).yields⟩
  | raised t =>
    rw [e] at hpull
    have hf : Control t := hpull.control
    exact ⟨hpull.stored, hf, hpull.phase⟩
  | held => trivial
  | bad f => trivial

/-! ### Host commands -/

theorem startLzma1_kept (h : Stored s) : Kept R (startLzma1 s) :=
  have hb := begun_beginStart h .lzma1
  .of_not_run hb.stored ⟨rfl, rfl, rfl⟩ (by simp [startLzma1])

theorem startRaw_yields (h : Stored s) {shared : Bool} (hsh : shared = true → s.win.allocated = true) (d : Byte)
    (dict : Word) (sd : Bool) (u : BitVec 64) :
    (startRaw d dict sd u shared s).Yields fun _ => Kept R := by
  have hb := begun_beginStart h .raw
  have hr := hb.mayRaise (by decide)
  refine (propCheck_yields hr d).bind fun _ t ⟨ht, hd⟩ => ?_
  subst ht
  cases shared with
  | true => exact (constructRun_kept hb (by decide) (by decide) hd hsh (by simp) _ _).yields
  | false =>
    refine (dictCheck_yields hr dict).bind fun ds u ⟨hu, hds⟩ => ?_
    subst hu
    exact (constructRun_kept hb (by decide) (by decide) hd (by simp) (fun _ => hds) _ _).yields

theorem startLzma2_yields (h : Stored s) (dict : Word) : (startLzma2 dict s).Yields fun _ => Kept R := by
  have hb := begun_beginStart h .lzma2
  refine (dictCheck_yields (hb.mayRaise (by decide)) dict).bind fun ds t ⟨ht, hds⟩ => ?_
  subst ht
  exact .of_not_run (hb.stored.allocate hds) ⟨rfl, rfl, rfl, rfl⟩ (by simp)

/-- CMD.REOPEN at work: a run has begun in phase DONE on the window of the run before. -/
structure Reopening (m : Mode) (s : State) : Prop extends Begun m s where
  window : s.win.allocated = true
  phase : s.phase = .done

theorem Reopening.smReset_if {m : Mode} (h : Reopening m s) (b : Bool) :
    Reopening m (if b then smReset s else s) := by
  split
  · exact { h with stored := h.stored.smReset }
  · exact h

theorem Reopening.waits {m : Mode} (h : Reopening m s) (hm : m = .lzma1 ∨ m = .raw) (sd : Bool)
    (u : BitVec 64) : Kept R (onHold .snk (s.withWait (some (.reopen sd u)))) := by
  have hmode : s.mode = .lzma1 ∨ s.mode = .raw := h.mode.symm ▸ hm
  have hm0 : s.mode ≠ .none := fun e => by simp [e] at hmode
  refine .of_not_run h.stored ?_ (by simp [onHold, h.phase])
  simp only [Control, onHold, State.withEnv_phase, State.withWait_phase, h.phase]
  exact ⟨hm0, h.window, .inr ⟨⟨sd, u, rfl⟩, hmode, h.status⟩⟩

theorem reopen_yields (h : Kept R s) (ha : reopenAccepted s = true) (sd : Bool) (u : BitVec 64) (rs np : Bool)
    (d : Byte) (rd : Bool) : (reopen sd u rs np d rd s).Yields fun _ => Kept R := by
  simp only [reopenAccepted, Bool.and_eq_true, Bool.or_eq_true, beq_iff_eq] at ha
  obtain ⟨hp, hm⟩ := ha
  obtain ⟨hm0, hal, -⟩ : s.mode ≠ .none ∧ s.win.allocated = true ∧ _ := by
    simpa only [Control, hp] using h.control
  have hm2 : s.mode ≠ .lzma2 := fun e => by simp [e] at hm
  have hstart : Reopening s.mode (beginRun s) := ⟨begun_beginRun h.stored, hal, hp⟩
  refine Res.Yields.bind (P := fun _ t => Reopening s.mode t) ?_ fun _ t ht => ?_
  · split
    · refine (propCheck_yields (hstart.mayRaise hm0) d).bind fun _ t ⟨ht, hd⟩ => ?_
      subst ht
      exact .ok { hstart with stored := hstart.stored.loadProps hd }
    · exact hstart
  have hstate := ht.smReset_if (np || rs)
  dsimp only
  generalize (if np || rs then smReset t else t) = v at hstate ⊢
  split
  · split
    · have hreset : Begun s.mode (winReset v) :=
        { hstate.toBegun with stored := hstate.stored.winReset hstate.window }
      exact (reopenEnd_kept hreset hstate.window hm0 hm2 sd u).yields
    · exact (hstate.waits hm sd u).yields
  · exact (reopenEnd_kept hstate.toBegun hstate.window hm0 hm2 sd u).yields

theorem reset_kept (s : State) : Kept R (reset s) :=
  .of_not_run stored_reset ⟨rfl, rfl, rfl⟩ (by simp [reset, State.reset])

/-- A command that is not accepted changes nothing (R250). -/
theorem Kept.command {t : State} (h : Kept R s) {c : Prop} {_ : Decidable c} {r : Res Unit}
    (hr : c → r.Yields fun _ => Kept R) (e : (if c then settle s r else .next s) = .next t) : Kept R t := by
  split at e
  · exact h.settled (hr ‹_›) e
  · cases e
    exact h

theorem commandTurn_kept {t : State} (h : Kept R s) {w : HostWord} (e : commandTurn w s = .next t) :
    Kept R t := by
  unfold commandTurn decodeHost at e
  split at e
  · rename_i i hi
    split at hi <;> cases hi
    · exact h.settled (reset_kept s).yields e
    · exact h.command (fun _ => (startLzma1_kept h.stored).yields) e
    · refine h.command (fun hc => startRaw_yields h.stored (fun hs => ?_) _ _ _ _) e
      simpa [hs] using (Bool.and_eq_true_iff.mp hc).2
    · exact h.command (fun _ => startLzma2_yields h.stored _) e
    · exact h.command (fun hc => reopen_yields h hc _ _ _ _ _ _) e
  · cases e
    exact h

end Sys2Proof.Machine
end

section
/-! SUPPORT. The chunk kinds of LZMA2, the raw copy, and operations that waited (46_lzma2_demux.md). -/
namespace Sys2Proof.Machine

variable {R : Prop} {s : State}

/-! ### Entries -/

/-- Between the chunks of LZMA2, in whatever phase. -/
structure InChunks (s : State) : Prop where
  stored : Stored s
  chunked : Chunked s

theorem InChunks.mayRaise (h : InChunks s) : MayRaise s := by
  obtain ⟨hm, -, hw, -⟩ := h.chunked
  exact ⟨h.stored, by simp [hm], hw⟩

theorem InChunks.of_pulled {t : State} (h : InChunks s) (ht : Pulled s t) : InChunks t := by
  obtain ⟨_, _, _, rfl⟩ := ht
  exact ⟨h.stored, h.chunked⟩

theorem InChunks.winReset (h : InChunks s) : InChunks (winReset s) :=
  ⟨h.stored.winReset h.chunked.2.1, h.chunked⟩

theorem InChunks.smReset (h : InChunks s) : InChunks (smReset s) := ⟨h.stored.smReset, h.chunked⟩

theorem InChunks.c2ctrl (h : InChunks s) : Kept R (s.withPhase .c2ctrl) :=
  .of_not_run h.stored h.chunked (by simp)

/-- RAWCOPY begins with 1 to 65536 bytes to go (R276). -/
theorem rawEnter_kept (h : InChunks s) (hu : 1 ≤ s.c2.uncSize.toNat ∧ s.c2.uncSize.toNat ≤ 65536) :
    Kept R (rawEnter s) := by
  refine .of_not_run h.stored ⟨h.chunked, ?_⟩ (by simp [rawEnter])
  simp only [rawEnter, State.withPhase_c2, State.withC2_c2, BitVec.toNat_setWidth]
  omega

theorem rawdEnd_kept (h : InChunks s) (hu : 1 ≤ s.c2.uncSize.toNat ∧ s.c2.uncSize.toNat ≤ 65536) :
    Kept R (rawdEnd s) := rawEnter_kept h.winReset hu

/-- An LZMA chunk begins with a decoder and a size (R281). -/
theorem lzmaEnd_kept (h : InChunks s) (hd : s.c2.haveDecoder = true) : Kept R (lzmaEnd s) := by
  obtain ⟨hm, ha, hw, hst⟩ := h.chunked
  have hm0 : s.mode ≠ .none := by simp [hm]
  exact .of_not_run h.stored ⟨hm0, ha, fun _ => ⟨hd, rfl⟩, hw, hst⟩ (by simp [lzmaEnd])

theorem lzma3End_kept (h : InChunks s) (hd : s.c2.haveDecoder = true) : Kept R (lzma3End s) :=
  lzmaEnd_kept h.winReset hd

theorem oldDecoder_yields (h : InChunks s) :
    (oldDecoder s).Yields fun _ t => t = s ∧ s.c2.haveDecoder = true := by
  unfold oldDecoder
  split
  · exact ⟨rfl, ‹_›⟩
  · exact h.mayRaise.yields (by decide) _

/-! ### Chunk kinds -/

/-- A chunk's header has been read: nothing waits yet. -/
structure InHeader (s : State) : Prop extends InChunks s where
  phase : s.phase = .c2hdr

theorem InHeader.waits (h : InHeader s) {w : Wait}
    (hw : w = .rawd ∧ 1 ≤ s.c2.uncSize.toNat ∧ s.c2.uncSize.toNat ≤ 65536 ∨
      w = .lzma3 ∧ s.c2.haveDecoder = true) :
    Kept R (onHold .snk (s.withWait (some w))) := by
  obtain ⟨hm, ha, -, hst⟩ := h.chunked
  refine .of_not_run h.stored ?_ (by simp [onHold, h.phase])
  simp only [Control, onHold, State.withEnv_phase, State.withWait_phase, h.phase]
  exact ⟨hm, ha, hst, hw.imp (.imp_left (congrArg some)) (.imp_left (congrArg some))⟩

/-- The chunk registers are free. -/
theorem InHeader.withC2 (h : InHeader s) (x : C2) : InHeader (s.withC2 x) :=
  ⟨⟨h.stored, h.chunked⟩, h.phase⟩

theorem InHeader.loadSizes (h : InHeader s) (u : BitVec 21) (c : BitVec 16) : InHeader (loadSizes u c s) :=
  h.withC2 _

theorem InHeader.smReset (h : InHeader s) : InHeader (smReset s) := ⟨h.toInChunks.smReset, h.phase⟩

theorem InHeader.loadProps (h : InHeader s) {d : Byte} (hd : d.toNat < 225) :
    InHeader (loadProps (propLc d) (propLp d) (propPb d) s) :=
  ⟨⟨h.stored.loadProps hd, h.chunked⟩, h.phase⟩

theorem newDecoder_yields (h : InHeader s) (d : Byte) :
    (newDecoder d s).Yields fun _ t => InHeader t ∧ t.c2.haveDecoder = true := by
  have hp := h.withC2 { s.c2 with prop := d }
  refine (propCheck_yields hp.mayRaise d).bind fun _ t ⟨ht, hd⟩ => ?_
  subst ht
  exact .ok ⟨((hp.loadProps hd).smReset).withC2 _, rfl⟩

theorem uncSizeOf_range (u : BitVec 16) : 1 ≤ (uncSizeOf u).toNat ∧ (uncSizeOf u).toNat ≤ 65536 := by
  have := u.isLt
  rw [uncSizeOf_eq u (by omega), BitVec.toNat_ofNat]
  omega

theorem c2Rawd_kept (h : InHeader s) (u : BitVec 16) : Kept R (c2Rawd (uncSizeOf u) s) := by
  have hl : InHeader (loadUnc (uncSizeOf u) s) := h.withC2 _
  unfold c2Rawd
  dsimp only
  split
  · exact rawdEnd_kept hl.toInChunks (uncSizeOf_range u)
  · exact hl.waits (.inl ⟨rfl, uncSizeOf_range u⟩)

theorem c2Raw_kept (h : InHeader s) (u : BitVec 16) : Kept R (rawEnter (loadUnc (uncSizeOf u) s)) :=
  rawEnter_kept ⟨h.stored, h.chunked⟩ (uncSizeOf_range u)

theorem c2Lzma0_yields (h : InHeader s) (u : BitVec 21) (c : BitVec 16) :
    (c2Lzma0 u c s).Yields fun _ => Kept R := by
  have hl := (h.loadSizes u c).toInChunks
  refine (oldDecoder_yields hl).bind fun _ t ⟨ht, hd⟩ => ?_
  subst ht
  exact lzmaEnd_kept hl hd

theorem c2Lzma1_yields (h : InHeader s) (u : BitVec 21) (c : BitVec 16) :
    (c2Lzma1 u c s).Yields fun _ => Kept R := by
  have hl := (h.loadSizes u c).toInChunks
  refine (oldDecoder_yields hl).bind fun _ t ⟨ht, hd⟩ => ?_
  subst ht
  exact lzmaEnd_kept hl.smReset hd

theorem c2Lzma2_yields (h : InHeader s) (u : BitVec 21) (c : BitVec 16) (d : Byte) :
    (c2Lzma2 u c d s).Yields fun _ => Kept R :=
  (newDecoder_yields (h.loadSizes u c) d).bind fun _ _ ht => lzmaEnd_kept ht.1.toInChunks ht.2

theorem c2Lzma3_yields (h : InHeader s) (u : BitVec 21) (c : BitVec 16) (d : Byte) :
    (c2Lzma3 u c d s).Yields fun _ => Kept R := by
  refine (newDecoder_yields (h.loadSizes u c) d).bind fun _ t ht => ?_
  split
  · exact lzma3End_kept ht.1.toInChunks ht.2
  · exact ht.1.waits (.inr ⟨rfl, ht.2⟩)

/-- Whatever the control byte, its operation keeps the invariants (R272). -/
theorem chunkOf_runs (h : InHeader s) (c : Byte) (x : List Byte) : Runs R (exec (chunkOf c x) s) := by
  obtain ⟨hm, ha, hw, -⟩ := h.chunked
  have hm0 : s.mode ≠ .none := by simp [hm]
  unfold chunkOf
  split_ifs
  · exact ⟨s, _, rfl, (kept_finish h.stored hm0 ha hw rfl).yields⟩
  · exact ⟨s, _, rfl, (c2Rawd_kept h _).yields⟩
  · exact ⟨s, _, rfl, (c2Raw_kept h _).yields⟩
  · exact ⟨s, _, rfl, h.mayRaise.yields (by decide) _⟩
  · exact ⟨s, _, rfl, c2Lzma0_yields h _ _⟩
  · exact ⟨s, _, rfl, c2Lzma1_yields h _ _⟩
  · exact ⟨s, _, rfl, c2Lzma2_yields h _ _ _⟩
  · exact ⟨s, _, rfl, c2Lzma3_yields h _ _ _⟩

theorem fetchChunk_yields (h : Kept R s) (hp : s.phase = .c2ctrl) :
    (fetchChunk s).Yields fun i t => Runs R (exec i t) := by
  have hc : InChunks s := ⟨h.stored, by simpa only [Control, hp] using h.control⟩
  refine (pull_yields hc.mayRaise).bind fun c t ht => ?_
  have hh : InHeader ((t.withC2 { t.c2 with ctrl := c }).withPhase .c2hdr) :=
    ⟨⟨(hc.of_pulled ht).stored, (hc.of_pulled ht).chunked⟩, rfl⟩
  refine (pullN_yields _ hh.mayRaise).bind fun x u hu => ?_
  have hphase : u.phase = .c2hdr := by
    obtain ⟨_, _, _, rfl⟩ := hu
    rfl
  exact chunkOf_runs ⟨hh.toInChunks.of_pulled hu, hphase⟩ c x

/-! ### The raw copy -/

/-- One byte fewer to go, or the end of the chunk (R276). -/
theorem rawNext_kept (h : InChunks s) (hp : s.phase = .c2raw)
    (hr : 1 ≤ s.c2.rawLeft.toNat ∧ s.c2.rawLeft.toNat ≤ 65536) : Kept R (rawNext s) := by
  have hn : InChunks (s.withC2 { s.c2 with rawLeft := s.c2.rawLeft - 1#17 }) := ⟨h.stored, h.chunked⟩
  unfold rawNext
  dsimp only
  split
  · exact hn.c2ctrl
  · rename_i h0
    refine .of_not_run hn.stored ?_ (by simp [hp])
    have hne : (s.c2.rawLeft - 1#17).toNat ≠ 0 := fun e => h0 (BitVec.eq_of_toNat_eq e)
    have hsub : (s.c2.rawLeft - 1#17).toNat = s.c2.rawLeft.toNat - 1 :=
      BitVec.toNat_sub_of_le (BitVec.le_def.mpr hr.1)
    simp only [Control, State.withC2_phase, hp]
    refine ⟨hn.chunked, ?_⟩
    simp only [State.withC2_c2]
    omega

theorem rawCopy_yields (h : Kept R s) (hp : s.phase = .c2raw) : (rawCopy s).Yields fun _ => Kept R := by
  obtain ⟨hch, hr⟩ : Chunked s ∧ 1 ≤ s.c2.rawLeft.toNat ∧ s.c2.rawLeft.toNat ≤ 65536 := by
    simpa only [Control, hp] using h.control
  have hc : InChunks s := ⟨h.stored, hch⟩
  obtain ⟨hw, hd⟩ := h.stored.window hch.2.1
  unfold rawCopy
  rw [if_pos hp]
  split
  · exact hc.c2ctrl
  split
  · exact h.withEnv _
  · rename_i hroom
    refine (pull_yields hc.mayRaise).bind fun b t ⟨_, _, _, ht⟩ => (winPut_yields b t).bind fun _ u hu => ?_
    subst ht hu
    have hput := h.stored.withWin (hw.putWin (by omega) b) hd
    exact rawNext_kept ⟨hput, hch⟩ hp hr

/-! ### What waited -/

theorem resume_kept {w : Wait} (h : Kept R s) (hw : s.wait = some w) : Kept R (resume w s) := by
  have hphase := phaseOk_of_control h.control
  have hctrl := h.control
  cases w with
  | rawd =>
    obtain ⟨hp, hu⟩ := hphase.rawd hw
    obtain ⟨hm, ha, hst, -⟩ : s.mode = .lzma2 ∧ s.win.allocated = true ∧ s.status = clearStatus ∧ _ := by
      simpa only [Control, hp] using hctrl
    exact rawdEnd_kept ⟨h.stored, hm, ha, rfl, hst⟩ hu
  | lzma3 =>
    obtain ⟨hp, hd⟩ := hphase.lzma3 hw
    obtain ⟨hm, ha, hst, -⟩ : s.mode = .lzma2 ∧ s.win.allocated = true ∧ s.status = clearStatus ∧ _ := by
      simpa only [Control, hp] using hctrl
    exact lzma3End_kept ⟨h.stored, hm, ha, rfl, hst⟩ hd
  | reopen sd u =>
    obtain ⟨hp, hm⟩ := hphase.reopen sd u hw
    obtain ⟨hm0, ha, hst⟩ : s.mode ≠ .none ∧ s.win.allocated = true ∧ s.status = clearStatus := by
      simpa [Control, hp, hw, hm] using hctrl
    have hm2 : s.mode ≠ .lzma2 := fun e => by simp [e] at hm
    have hb : Begun s.mode (winReset (s.withWait none)) := ⟨h.stored.winReset ha, rfl, rfl, hst⟩
    exact reopenEnd_kept hb ha hm0 hm2 sd u

end Sys2Proof.Machine
end

section
/-! SUPPORT. Every move of every agent keeps the invariants, so every step does. -/
namespace Sys2Proof.Machine

variable {R : Prop} {s t : State}

/-! ### CORE -/

theorem afterExec_kept {o : Outcome} (h : Kept R s) (ho : Runs R o) (e : afterExec s o = .next t) : Kept R t := by
  obtain ⟨s0, r, rfl, hr⟩ := ho
  cases hs : settle s0 r with
  | next u =>
    simp only [hs, afterExec] at e
    split at e
    · cases e
      exact h.withEnv _
    · rename_i hold
      cases e
      rcases kept_of_settle hr hs with hk | rfl
      · exact hk
      · exact absurd rfl hold
  | fault f => simp [hs, afterExec] at e
  | refused f => simp [hs, afterExec] at e

theorem execFetched_kept {r : Res Instr} (h : Kept R s) (hr : r.Yields fun i u => Runs R (exec i u))
    (e : execFetched s r = .next t) : Kept R t := by
  cases r with
  | ok i u => exact afterExec_kept h hr e
  | raised u =>
    cases e
    exact Failed.kept hr
  | held =>
    cases e
    exact h.withEnv _
  | bad f => cases e

theorem runPass_kept (h : Kept R s) (hp : s.phase = .run) (hw : s.win.pending = 0)
    (e : runPass s = .next t) : Kept R t := by
  have hr := h.running hp hw
  unfold runPass at e
  split at e
  · exact h.settled (stop_yields hr rfl) e
  · exact execFetched_kept h (fetchSymbol_yields hr) e

theorem corePhase_kept (h : Kept R s) (hw : s.wait = none) (e : corePhase s = .next t) : Kept R t := by
  have held {x : Hold} (e : Host.Outcome.next (onHold x s) = (.next t : Outcome)) : Kept R t := by
    cases e
    exact h.withEnv _
  unfold corePhase at e
  split at e <;> rename_i hp
  · exact held e
  · exact execFetched_kept h (fetchHdr1_yields h hp) e
  · exact execFetched_kept h (fetchPrologue_yields h hp) e
  · split at e
    · exact runPass_kept h hp ‹_› e
    · exact held e
  · exact execFetched_kept h (fetchChunk_yields h hp) e
  · have hhdr := (phaseOk_of_control h.control).hdr hp
    simp [hw] at hhdr
  · exact afterExec_kept h ⟨s, _, rfl, rawCopy_yields h hp⟩ e
  · exact held e
  · exact held e

theorem coreTurn_kept (h : Kept R s) (e : coreTurn s = .next t) : Kept R t := by
  have h0 : Kept R (onHold .none s) := h.withEnv _
  simp only [coreTurn] at e
  split at e
  · split at e
    · cases e
      exact resume_kept h0 ‹_›
    · cases e
      exact h0.withEnv _
  · exact corePhase_kept h0 ‹_› e

/-! ### SNK -/

theorem winDrain_yields (h : Kept R s) : (winDrain s).Yields fun _ => Kept R := by
  unfold winDrain
  split
  · exact h
  · refine (winGet_yields _ s).bind fun b u hu => ?_
    subst hu
    exact Kept.yields ⟨h.stored.lessPending (Nat.sub_le _ _), h.control, h.rc⟩

theorem indicate_kept (h : Kept R s) (x : OutItem) : Kept R (indicate x s) := (h.withEnv _).withEnv _

theorem faultTurn_kept (h : Kept R s) (e : faultTurn s = .next t) : Kept R t := by
  have hf : Kept R (s.withFree (s.free + 1)) := ⟨h.stored, h.control, h.rc⟩
  unfold faultTurn at e
  split at e
  · cases e
    exact h
  split at e
  · cases e
    exact indicate_kept h _
  split at e
  · cases e
    exact indicate_kept h _
  · exact h.settled (winDrain_yields h) e
  · dsimp only at e
    split at e
    · exact hf.settled (winDrain_yields hf) e
    · cases e
      exact indicate_kept hf _

theorem snkTurn_kept (h : Kept R s) (e : snkTurn s = .next t) : Kept R t := by
  unfold snkTurn at e
  split at e
  · exact faultTurn_kept h e
  split at e
  · exact h.settled (winDrain_yields h) e
  split at e
  · cases e
    exact indicate_kept h _
  · cases e
    exact h

/-! ### A step -/

theorem takeTurn_kept (h : Kept R s) {m : Turn} (e : takeTurn m s = .next t) : Kept R t := by
  cases m with
  | core => exact coreTurn_kept h e
  | snk => exact snkTurn_kept h e
  | src a =>
    cases e
    exact h.withEnv _
  | command w => exact commandTurn_kept h e
  | readStatus =>
    cases e
    exact h.withEnv _
  | attach a =>
    simp only [takeTurn, attachTurn] at e
    split at e
    · cases e
      exact h.withEnv _
    · cases e
      exact h

theorem step_kept (h : Kept R s) (e : step s = .next t) : Kept R t := by
  cases hm : s.env.turns with
  | nil => exact takeTurn_kept h (step_unlisted hm ▸ e)
  | cons m ms => exact takeTurn_kept (h.withEnv _) (step_listed hm ▸ e)

end Sys2Proof.Machine
end

section
/-! PROOFS. The obligations on power-on and the invariants. -/
namespace Sys2Proof.Machine

/-- Settles O8: the part of `step_kept` about the machine. -/
theorem stepKeepsTheInvariant : Obligations.StepKeepsTheInvariant := by
  intro s t h e
  have hs : Kept False s := kept_iff.mpr ⟨h, False.elim⟩
  exact (kept_iff.mp (step_kept hs e)).1

/-- Settles O10: the part of `step_kept` about the range decoder. -/
theorem rangeDecoderStaysNormal : Obligations.RangeDecoderStaysNormal := by
  intro s t h hrc e
  have hs : Kept True s := kept_iff.mpr ⟨h, fun _ => hrc⟩
  exact (kept_iff.mp (step_kept hs e)).2 trivial

/-- Settles O6: nothing is offered to SNK, so CORE moves, and in phase IDLE it waits for HOST. -/
theorem powerOn : Obligations.PowerOn := by
  have hcore : coreMoves [] State.reset := .inr ⟨rfl, rfl, rfl⟩
  have hstep : step State.reset = .next (onHold .host (atTurn [] State.reset)) := step_core hcore rfl
  exact ⟨rfl, rfl, rfl, rfl, rfl, rfl, rfl, rfl, hstep⟩

/-- Settles O7: no window, legal registers, and phase IDLE, in which the range decoder promises nothing. -/
theorem powerOnMeetsTheInvariants : Obligations.PowerOnMeetsTheInvariants := by
  have hk : Kept True State.reset := .of_not_run stored_reset ⟨rfl, rfl, rfl⟩ (by decide)
  exact ⟨(kept_iff.mp hk).1, hk.rc trivial⟩

end Sys2Proof.Machine
end

section
/-! SUPPORT. What each rule does to the ports: a rule of CORE takes bytes off the front of what SRC answers and
counts them (20_memory.md R58, R60); no rule takes anything back from OUT (R61). Nothing is asked of the state a
rule runs from. -/
namespace Sys2Proof.Machine

/-! ### How a rule ends -/

/-- If the rule completes, then as `P` says; if it raises, in a state as `Q` says (`Res.Yields` is the case in which
a raise meets the invariants, which are not at hand here). -/
def Res.Ends {α : Type} (r : Res α) (P : α → State → Prop) (Q : State → Prop) : Prop :=
  match r with
  | .ok a s => P a s
  | .raised s => Q s
  | .held => True
  | .bad _ => True

theorem Res.Ends.ok {α : Type} {P : α → State → Prop} {Q : State → Prop} {a : α} {s : State} (h : P a s) :
    (Res.ok a s).Ends P Q := h

theorem Res.Ends.mono {α : Type} {r : Res α} {P P' : α → State → Prop} {Q : State → Prop} (h : r.Ends P Q)
    (hP : ∀ a s, P a s → P' a s) : r.Ends P' Q := by
  cases r with
  | ok a s => exact hP a s h
  | raised s => exact h
  | held => trivial
  | bad f => trivial

theorem Res.Ends.bind {α β : Type} {r : Res α} {f : α → State → Res β} {P : α → State → Prop}
    {P' : β → State → Prop} {Q : State → Prop} (h : r.Ends P Q) (hf : ∀ a s, P a s → (f a s).Ends P' Q) :
    (r.bind f).Ends P' Q := by
  cases r with
  | ok a s => exact hf a s h
  | raised s => exact h
  | held => trivial
  | bad f => trivial

/-- The outcome of an instruction: how its rule ends, or held at a pull. -/
theorem Res.Ends.settled {P : Unit → State → Prop} {Q : State → Prop} {r : Res Unit} {s t : State}
    (h : r.Ends P Q) (e : settle s r = .next t) : P () t ∨ Q t ∨ t = holdAtPull s := by
  rcases settle_eq_next.mp e with rfl | rfl | ⟨-, rfl⟩
  · exact .inl h
  · exact .inr (.inl h)
  · exact .inr (.inr rfl)

/-! ### Operations that touch no port -/

section
variable {Q : State → Prop} {s : State}

theorem winGet_ends (d : Nat) (s : State) : (winGet d s).Ends (fun _ t => t = s) Q := by
  unfold winGet memRead
  split
  · split
    · split
      · rfl
      · trivial
    · trivial
  · trivial

theorem winPut_ends (b : Byte) (s : State) :
    (winPut b s).Ends (fun _ t => t = s.withWin (putWin b s.win)) Q := by
  unfold winPut
  split
  · rfl
  · trivial

theorem chkBack_ends (hQ : ∀ c x, Q (raiseState c x s)) : (chkBack s).Ends (fun _ t => t = s) Q := by
  unfold chkBack
  split
  · rfl
  · exact hQ _ _

theorem propCheck_ends (hQ : ∀ c x, Q (raiseState c x s)) (d : Byte) :
    (propCheck d s).Ends (fun _ t => t = s) Q := by
  unfold propCheck
  split
  · exact hQ _ _
  · split
    · exact hQ _ _
    · rfl

theorem dictCheck_ends (hQ : ∀ c x, Q (raiseState c x s)) (d : Word) :
    (dictCheck d s).Ends (fun _ t => t = s) Q := by
  unfold dictCheck
  split
  · exact hQ _ _
  · rfl

theorem oldDecoder_ends (hQ : ∀ c x, Q (raiseState c x s)) : (oldDecoder s).Ends (fun _ t => t = s) Q := by
  unfold oldDecoder
  split
  · rfl
  · exact hQ _ _

end

/-- `t` has the ports and the count of `s`, whoever is waited for. -/
def SamePorts (s t : State) : Prop :=
  t.env.src = s.env.src ∧ t.env.out = s.env.out ∧ t.inCount = s.inCount

theorem reopenEnd_ports (sd : Bool) (u : BitVec 64) (s : State) : SamePorts s (reopenEnd sd u s) := by
  simp [SamePorts, reopenEnd, loadSize_eq]

theorem constructRun_ports (d : Byte) (ds : Word) (sd : Bool) (u : BitVec 64) (shared : Bool) (s : State) :
    SamePorts s (constructRun d ds sd u shared s) := by
  cases shared <;> simp [SamePorts, constructRun, construct, allocate, winInit, smReset, loadProps, loadSize_eq]

theorem rawdEnd_ports (s : State) : SamePorts s (rawdEnd s) := by simp [SamePorts, rawdEnd, rawEnter, winReset]

theorem lzmaEnd_ports (s : State) : SamePorts s (lzmaEnd s) := by simp [SamePorts, lzmaEnd]

theorem lzma3End_ports (s : State) : SamePorts s (lzma3End s) := lzmaEnd_ports (winReset s)

theorem resume_ports (w : Wait) (s : State) : SamePorts s (resume w s) := by
  cases w with
  | rawd => exact rawdEnd_ports (s.withWait none)
  | lzma3 => exact lzma3End_ports (s.withWait none)
  | reopen sd u => exact reopenEnd_ports sd u (winReset (s.withWait none))

theorem c2Rawd_ports (n : BitVec 22) (s : State) : SamePorts s (c2Rawd n s) := by
  unfold c2Rawd
  dsimp only
  split
  · exact rawdEnd_ports (loadUnc n s)
  · exact ⟨rfl, rfl, rfl⟩

/-! ### What CORE has consumed -/

/-- From `s` to `t` some bytes were taken off the front of what SRC answers, and counted; OUT is as before. -/
def Consumed (s t : State) : Prop :=
  t.env.out = s.env.out ∧
    ∃ bs : List Byte, s.env.src = bs.map .byte ++ t.env.src ∧ t.inCount = s.inCount + bs.length

/-- A fault has ended the run; OUT is as before. -/
def Broken (s t : State) : Prop := t.phase = .fault ∧ t.env.out = s.env.out

/-- A rule run after some input of `s` has been consumed: it only consumes more, or it raises. -/
abbrev Res.Reads {α : Type} (s : State) (r : Res α) : Prop := r.Ends (fun _ => Consumed s) (Broken s)

variable {s0 s : State}

theorem Consumed.refl (s : State) : Consumed s s := ⟨rfl, [], rfl, rfl⟩

theorem Consumed.broken (h : Consumed s0 s) (c : Cause) (x : Word) : Broken s0 (raiseState c x s) := ⟨rfl, h.1⟩

/-- One more byte, the next that SRC answers. -/
theorem Consumed.byte {t : State} {b : Byte} (h : Consumed s0 s) (hsrc : s.env.src = .byte b :: t.env.src)
    (hcount : t.inCount = s.inCount + 1) (hout : t.env.out = s.env.out) : Consumed s0 t := by
  obtain ⟨ho, bs, hs, hc⟩ := h
  refine ⟨hout.trans ho, bs ++ [b], ?_, ?_⟩
  · rw [hs, hsrc, List.map_append, List.append_assoc]
    rfl
  · rw [hcount, hc, List.length_append]
    rfl

theorem Consumed.same {t : State} (h : Consumed s0 s) (ht : SamePorts s t) : Consumed s0 t := by
  obtain ⟨hsrc, hout, hcount⟩ := ht
  rw [Consumed, hsrc, hout, hcount]
  exact h

theorem Consumed.useRem (h : Consumed s0 s) (k : BitVec 64) : Consumed s0 (useRem k s) := by
  rw [useRem_eq]
  exact h

/-! ### Pulls -/

theorem countPull_env (s : State) : (countPull s).env = s.env := by
  unfold countPull
  split <;> rfl

theorem takeAnswer_out (rest : List SrcAnswer) (s : State) :
    (takeAnswer rest (countPull s)).env.out = s.env.out :=
  (congrArg Env.out (countPull_env s) :)

theorem pull_reads (h : Consumed s0 s) : (pull s).Reads s0 := by
  have out rest : (takeAnswer rest (countPull s)).env.out = s0.env.out := (takeAnswer_out rest s).trans h.1
  unfold pull
  split
  · exact h.broken _ _
  · split
    · trivial
    · rename_i b rest heq
      exact h.byte heq rfl (takeAnswer_out rest s)
    · exact ⟨rfl, out _⟩
    · exact ⟨rfl, out _⟩

theorem pullN_reads (n : Nat) (h : Consumed s0 s) : (pullN n s).Reads s0 := by
  induction n generalizing s with
  | zero => exact h
  | succ n ih => exact (pull_reads h).bind fun _ _ ht => (ih ht).bind fun _ _ hu => hu

/-! ### Decisions -/

theorem rcNorm_reads (h : Consumed s0 s) : (rcNorm s).Reads s0 := by
  unfold rcNorm
  split
  · exact (pull_reads h).bind fun _ _ ht => ht
  · exact h

theorem rcBit_reads (h : Consumed s0 s) (T : Table) (i : Nat) : (rcBit T i s).Reads s0 := by
  unfold rcBit
  split
  · exact (rcNorm_reads (s := rcDecide T i s) h).bind fun _ _ ht => ht
  · trivial

theorem rcDirectBit_reads (h : Consumed s0 s) : (rcDirectBit s).Reads s0 :=
  (rcNorm_reads (s := s.withRc (directAfter s.rc)) h).bind fun _ _ ht => ht

theorem rcDirect_reads (h : Consumed s0 s) (n : Nat) (v : Word) : (rcDirect n v s).Reads s0 := by
  induction n generalizing v s with
  | zero => exact h
  | succ n ih => exact (rcDirectBit_reads h).bind fun _ _ ht => ih ht _

/-! ### Trees, lengths, literals and distances -/

theorem btWalk_reads (h : Consumed s0 s) (T : Table) (base n m : Nat) : (btWalk T base n m s).Reads s0 := by
  induction n generalizing m s with
  | zero => exact h
  | succ n ih => exact (rcBit_reads h _ _).bind fun _ _ ht => ih ht _

theorem btDec_reads (h : Consumed s0 s) (T : Table) (base n : Nat) : (btDec T base n s).Reads s0 :=
  (btWalk_reads h _ _ _ _).bind fun _ _ ht => ht

theorem btRwalk_reads (h : Consumed s0 s) (T : Table) (base n i m v : Nat) :
    (btRwalk T base n i m v s).Reads s0 := by
  induction n generalizing i m v s with
  | zero => exact h
  | succ n ih => exact (rcBit_reads h _ _).bind fun _ _ ht => ih ht _ _ _

theorem lenDec_reads (h : Consumed s0 s) (l : LenInst) (ps : BitVec 4) : (lenDec l ps s).Reads s0 := by
  refine (rcBit_reads h _ _).bind fun c t ht => ?_
  split
  · refine (rcBit_reads ht _ _).bind fun c2 u hu => ?_
    split
    · exact (btDec_reads hu _ _ _).bind fun _ _ hv => hv
    · exact (btDec_reads hu _ _ _).bind fun _ _ hv => hv
  · exact btDec_reads ht _ _ _

theorem litDec_reads (h : Consumed s0 s) (ls : Nat) : (litDec ls s).Reads s0 :=
  (btWalk_reads h _ _ _ _).bind fun _ _ ht => ht

theorem litMatched_reads (h : Consumed s0 s) (base : Nat) (mb : Byte) (n : Nat) (same : Bool) (m : Nat) :
    (litMatched base mb n same m s).Reads s0 := by
  induction n generalizing same m s with
  | zero => exact h
  | succ n ih =>
    cases same with
    | true => exact (rcBit_reads h _ _).bind fun _ _ ht => ih ht _ _
    | false => exact (rcBit_reads h _ _).bind fun _ _ ht => ih ht _ _

theorem litDecm_reads (h : Consumed s0 s) (ls : Nat) (mb : Byte) : (litDecm ls mb s).Reads s0 :=
  (litMatched_reads h _ _ _ _ _).bind fun _ _ ht => ht

theorem distDec_reads (h : Consumed s0 s) (n : Nat) : (distDec n s).Reads s0 := by
  refine (btDec_reads h _ _ _).bind fun slot t ht => ?_
  unfold distLow
  split
  · exact ht
  · split
    · exact (btRwalk_reads ht _ _ _ _ _ _).bind fun _ _ hu => hu
    · exact (rcDirect_reads ht _ _).bind fun _ _ hu => (btRwalk_reads hu _ _ _ _ _ _).bind fun _ _ hv => hv

/-! ### Parts of the operations -/

theorem winPut_reads (h : Consumed s0 s) (b : Byte) : (winPut b s).Reads s0 :=
  (winPut_ends b s).mono fun _ _ ht => ht ▸ h

theorem winCopy_reads (h : Consumed s0 s) (d n : Nat) : (winCopy d n s).Reads s0 := by
  induction n generalizing s with
  | zero => exact h
  | succ n ih =>
    refine (winGet_ends d s).bind fun b t ht => ?_
    subst ht
    exact (winPut_reads h b).bind fun _ _ hu => ih hu

theorem copy_reads (h : Consumed s0 s) (n : Nat) : (copy n s).Reads s0 := by
  unfold copy
  dsimp only
  split
  · exact (winCopy_reads h _ _).bind fun _ t ht => Consumed.broken (s := t.withRem 0#64) ht _ _
  · exact (winCopy_reads h _ _).bind fun _ _ ht => ht.useRem _

theorem stop_reads (h : Consumed s0 s) (c : Cause) : (stop c s).Reads s0 := by
  unfold stop chunkEnd
  split
  · split
    · exact h
    · exact h.broken _ _
  · exact h

/-! ### The symbol-level operations -/

theorem litByte_reads (h : Consumed s0 s) : (litByte s).Reads s0 := by
  refine Res.Ends.bind (P := fun _ t => t = s) ?_ fun prev t ht => ?_
  · split
    · rfl
    · exact winGet_ends 1 s
  subst ht
  split
  · refine (chkBack_ends h.broken).bind fun _ u hu => (winGet_ends _ u).bind fun mb v hv => ?_
    subst hu hv
    exact litDecm_reads h _ _
  · exact litDec_reads h _

theorem lit_reads (h : Consumed s0 s) : (lit s).Reads s0 := by
  unfold lit
  split
  · exact h.broken _ _
  · exact (litByte_reads h).bind fun b _ ht => (winPut_reads ht b).bind fun _ u hu =>
      Consumed.useRem (s := setFsm (afterLiteral u.st.state) u) hu _

theorem eos_reads (h : Consumed s0 s) : (eos s).Reads s0 := by
  unfold eos
  split
  · exact h.broken _ _
  · split
    · exact h.broken _ _
    · exact stop_reads h _

/-- CHK_BACK and COPY, as MATCH and REPTAIL end (43_state_machine.md R190, R199). -/
theorem chkBack_copy_reads (h : Consumed s0 s) (n : Nat) :
    ((chkBack s).bind fun _ s => copy n s).Reads s0 :=
  (chkBack_ends h.broken).bind fun _ _ ht => copy_reads (ht ▸ h) n

theorem simpleMatch_reads (h : Consumed s0 s) : (simpleMatch s).Reads s0 := by
  refine (lenDec_reads (s := s.withSt (rotateReps s.st)) h _ _).bind fun n t ht => ?_
  refine (distDec_reads (s := setFsm (afterMatch t.st.state) t) ht n).bind fun d u hu => ?_
  dsimp only
  split
  · exact eos_reads (s := u.withSt { u.st with rep0 := d }) hu
  · exact chkBack_copy_reads (s := u.withSt { u.st with rep0 := d }) hu n

theorem srep_reads (h : Consumed s0 s) : (srep s).Reads s0 := by
  refine (chkBack_ends h.broken).bind fun _ t ht => (winGet_ends _ t).bind fun b u hu => ?_
  subst ht hu
  exact (winPut_reads h b).bind fun _ v hv =>
    Consumed.useRem (s := setFsm (afterShortRep v.st.state) v) hv _

theorem repTail_reads (h : Consumed s0 s) : (repTail s).Reads s0 :=
  (lenDec_reads h _ _).bind fun n t ht =>
    chkBack_copy_reads (s := setFsm (afterRep t.st.state) t) ht n

/-! ### Headers, chunk kinds, the raw copy, and what waited -/

theorem hdr1_reads (h : Consumed s0 s) (d : Byte) (dict : Word) (u : BitVec 64) : (hdr1 d dict u s).Reads s0 := by
  refine (propCheck_ends h.broken d).bind fun _ t ht => ?_
  subst ht
  refine (dictCheck_ends h.broken dict).bind fun ds v hv => ?_
  subst hv
  exact h.same (constructRun_ports ..)

theorem newDecoder_reads (h : Consumed s0 s) (d : Byte) : (newDecoder d s).Reads s0 := by
  refine (propCheck_ends (s := s.withC2 { s.c2 with prop := d }) (Consumed.broken h) d).bind fun _ t ht => ?_
  subst ht
  exact h.same (by simp [SamePorts, smReset, loadProps])

theorem oldDecoder_reads (h : Consumed s0 s) : (oldDecoder s).Reads s0 :=
  (oldDecoder_ends h.broken).mono fun _ _ ht => ht ▸ h

theorem rawCopy_reads (h : Consumed s0 s) : (rawCopy s).Reads s0 := by
  unfold rawCopy
  split
  · split
    · exact h
    split
    · exact h
    · refine (pull_reads h).bind fun b _ ht => (winPut_reads ht b).bind fun _ u hu => ?_
      unfold rawNext
      dsimp only
      split <;> exact hu
  · exact h

/-! ### What CORE fetches and executes -/

/-- The outcome of an instruction whose rule only consumes. -/
def Reading (s : State) (o : Outcome) : Prop := ∃ s1 r, o = settle s1 r ∧ r.Reads s

theorem Reading.ok (h : Consumed s0 s) : Reading s0 (.next s) := ⟨s, .ok () s, rfl, h⟩

/-- A fetch that has only consumed, and so does what it found. -/
abbrev Fetching (s : State) (r : Res Instr) : Prop := r.Ends (fun i t => Reading s (exec i t)) (Broken s)

theorem fetchHdr1_reads (h : Consumed s0 s) : Fetching s0 (fetchHdr1 s) :=
  (pullN_reads 13 h).bind fun _ t ht => ⟨t, _, rfl, hdr1_reads ht _ _ _⟩

theorem fetchPrologue_reads (h : Consumed s0 s) : Fetching s0 (fetchPrologue s) := by
  have hpull := pullN_reads 5 h
  unfold fetchPrologue
  cases e : pullN 5 s with
  | ok b t =>
    rw [e] at hpull
    exact Reading.ok hpull
  | raised t =>
    rw [e] at hpull
    exact hpull
  | held => trivial
  | bad f => trivial

/-- Whatever the control byte, its operation pulls nothing more (46_lzma2_demux.md R272). -/
theorem chunkOf_reading (h : Consumed s0 s) (c : Byte) (x : List Byte) : Reading s0 (exec (chunkOf c x) s) := by
  have sizes u v : Consumed s0 (loadSizes u v s) := h
  unfold chunkOf
  split_ifs
  · exact .ok h
  · exact .ok (h.same (c2Rawd_ports _ s))
  · exact .ok h
  · exact ⟨s, raise .ctrl03to7F (c.setWidth 32) s, rfl, h.broken _ _⟩
  · exact ⟨s, _, rfl, (oldDecoder_reads (sizes _ _)).bind fun _ t ht => ht.same (lzmaEnd_ports t)⟩
  · exact ⟨s, _, rfl, (oldDecoder_reads (sizes _ _)).bind fun _ t ht => ht.same (lzmaEnd_ports (smReset t))⟩
  · exact ⟨s, _, rfl, (newDecoder_reads (sizes _ _) _).bind fun _ t ht => ht.same (lzmaEnd_ports t)⟩
  · refine ⟨s, _, rfl, (newDecoder_reads (sizes _ _) _).bind fun _ t ht => ?_⟩
    split
    · exact ht.same (lzma3End_ports t)
    · exact ht

theorem fetchC2Rest_reads (h : Consumed s0 s) (c : Byte) : Fetching s0 (fetchC2Rest c s) :=
  (pullN_reads _ h).bind fun x _ ht => chunkOf_reading ht c x

theorem fetchChunk_reads (h : Consumed s0 s) : Fetching s0 (fetchChunk s) :=
  (pull_reads h).bind fun c t ht =>
    fetchC2Rest_reads (s := (t.withC2 { t.c2 with ctrl := c }).withPhase .c2hdr) ht c

theorem fetchRep_reads (h : Consumed s0 s) (ps : BitVec 4) : Fetching s0 (fetchRep ps s) := by
  unfold fetchRep
  dsimp only
  split
  · exact h.broken _ _
  split
  · exact h.broken _ _
  refine (rcBit_reads h _ _).bind fun g0 t ht => ?_
  split
  · refine (rcBit_reads ht _ _).bind fun g1 u hu => ?_
    split
    · refine (rcBit_reads hu _ _).bind fun g2 v hv => ?_
      cases g2 with
      | true => exact ⟨v, _, rfl, repTail_reads (s := v.withSt (promote3 v.st)) hv⟩
      | false => exact ⟨v, _, rfl, repTail_reads (s := v.withSt (promote2 v.st)) hv⟩
    · exact ⟨u, _, rfl, repTail_reads (s := u.withSt (promote1 u.st)) hu⟩
  · refine (rcBit_reads ht _ _).bind fun l u hu => ?_
    cases l with
    | true => exact ⟨u, _, rfl, repTail_reads hu⟩
    | false => exact ⟨u, _, rfl, srep_reads hu⟩

theorem fetchSymbol_reads (h : Consumed s0 s) : Fetching s0 (fetchSymbol s) := by
  refine (rcBit_reads h _ _).bind fun m t ht => ?_
  split
  · refine (rcBit_reads ht _ _).bind fun r u hu => ?_
    split
    · exact fetchRep_reads hu _
    · exact ⟨u, _, rfl, simpleMatch_reads hu⟩
  · exact ⟨t, _, rfl, lit_reads ht⟩

/-! ### A move of CORE -/

variable {t : State}

/-- Held at a pull, CORE is where it was and has consumed nothing yet. -/
theorem afterExec_ports {o : Outcome} (ho : Reading s o) (e : afterExec s o = .next t) :
    Consumed s t ∨ Broken s t := by
  obtain ⟨s1, r, rfl, hr⟩ := ho
  cases hs : settle s1 r with
  | next u =>
    simp only [hs, afterExec] at e
    split at e
    · cases e
      exact .inl (.refl s)
    · rename_i hold
      cases e
      rcases hr.settled hs with hc | hb | rfl
      · exact .inl hc
      · exact .inr hb
      · exact absurd rfl hold
  | fault f => simp [hs, afterExec] at e
  | refused f => simp [hs, afterExec] at e

theorem execFetched_ports {r : Res Instr} (hr : Fetching s r) (e : execFetched s r = .next t) :
    Consumed s t ∨ Broken s t := by
  cases r with
  | ok i u => exact afterExec_ports hr e
  | raised u =>
    cases e
    exact .inr hr
  | held =>
    cases e
    exact .inl (.refl s)
  | bad f => cases e

/-- A move of CORE consumes some bytes, or it ends in a fault. -/
theorem coreTurn_ports (e : coreTurn s = .next t) : Consumed s t ∨ Broken s t := by
  have h : Consumed (onHold .none s) (onHold .none s) := .refl _
  rcases coreTurn_cases s with
    ⟨w, -, -, hc⟩ | ⟨x, hc⟩ | ⟨-, -, hc⟩ | ⟨-, -, hc⟩ | ⟨-, r, hc, hr⟩ <;> rw [hc] at e
  · cases e
    exact .inl ((Consumed.refl s).same (resume_ports w (onHold .none s)))
  · cases e
    exact .inl (.refl s)
  · rcases (stop_reads h .endSize).settled e with ht | ht | rfl
    · exact .inl ht
    · exact .inr ht
    · exact .inl (.refl s)
  · exact afterExec_ports ⟨_, _, rfl, rawCopy_reads h⟩ e
  · refine execFetched_ports (s := onHold .none s) ?_ e
    rcases hr with ⟨-, rfl⟩ | ⟨-, rfl⟩ | ⟨-, rfl⟩ | ⟨-, rfl⟩ | ⟨-, rfl⟩
    · exact fetchHdr1_reads h
    · exact fetchPrologue_reads h
    · exact fetchSymbol_reads h
    · exact fetchChunk_reads h
    · exact fetchC2Rest_reads h _

end Sys2Proof.Machine
end

section
/-! SUPPORT. OUT only grows: SNK's moves add to it, and no command of HOST writes to it (20_memory.md R61). -/
namespace Sys2Proof.Machine

variable {o : List OutItem} {s t : State}

/-- However the rule ends, OUT begins with `o`. -/
abbrev Res.KeepsOut {α : Type} (o : List OutItem) (r : Res α) : Prop :=
  r.Ends (fun _ t => o <+: t.env.out) fun t => o <+: t.env.out

theorem Res.KeepsOut.settled {r : Res Unit} (hr : r.KeepsOut o) (h : o <+: s.env.out)
    (e : settle s r = .next t) : o <+: t.env.out := by
  rcases Res.Ends.settled hr e with ht | ht | rfl
  · exact ht
  · exact ht
  · exact h

/-! ### SNK -/

theorem snkPush_out (x : OutItem) (s : State) : s.env.out <+: (snkPush x s).env.out := List.prefix_append _ _

theorem winDrain_keepsOut (s : State) : (winDrain s).KeepsOut s.env.out := by
  unfold winDrain
  split
  · exact List.prefix_rfl
  · refine (winGet_ends _ s).bind fun b u hu => ?_
    subst hu
    exact snkPush_out (.byte b) _

theorem winDrain_out (e : settle s (winDrain s) = .next t) : s.env.out <+: t.env.out :=
  (winDrain_keepsOut s).settled List.prefix_rfl e

theorem faultTurn_out (e : faultTurn s = .next t) : s.env.out <+: t.env.out := by
  unfold faultTurn at e
  split at e
  · cases e
    exact List.prefix_rfl
  split at e
  · cases e
    exact snkPush_out .error s
  split at e
  · cases e
    exact snkPush_out .error s
  · exact winDrain_out e
  · dsimp only at e
    split at e
    · exact winDrain_out (s := s.withFree (s.free + 1)) e
    · cases e
      exact snkPush_out .error s

theorem snkTurn_out (e : snkTurn s = .next t) : s.env.out <+: t.env.out := by
  unfold snkTurn at e
  split at e
  · exact faultTurn_out e
  split at e
  · exact winDrain_out e
  split at e
  · cases e
    exact snkPush_out .endOfStream s
  · cases e
    exact List.prefix_rfl

/-! ### HOST -/

theorem startRaw_keepsOut (d : Byte) (dict : Word) (sd : Bool) (u : BitVec 64) (shared : Bool) (s : State) :
    (startRaw d dict sd u shared s).KeepsOut s.env.out := by
  have run ds shared : s.env.out <+: (constructRun d ds sd u shared (beginStart .raw s)).env.out := by
    rw [(constructRun_ports ..).2.1]
    exact List.prefix_rfl
  refine (propCheck_ends (fun _ _ => List.prefix_rfl) d).bind fun _ v hv => ?_
  subst hv
  split
  · exact run _ _
  · refine (dictCheck_ends (fun _ _ => List.prefix_rfl) dict).bind fun ds v hv => ?_
    subst hv
    exact run _ _

theorem startLzma2_keepsOut (dict : Word) (s : State) : (startLzma2 dict s).KeepsOut s.env.out := by
  refine (dictCheck_ends (fun _ _ => List.prefix_rfl) dict).bind fun ds v hv => ?_
  subst hv
  exact List.prefix_rfl

theorem reopen_keepsOut (sd : Bool) (u : BitVec 64) (rs np : Bool) (d : Byte) (rd : Bool) (s : State) :
    (reopen sd u rs np d rd s).KeepsOut s.env.out := by
  refine Res.Ends.bind (P := fun _ v => v.env.out = s.env.out) ?_ fun _ v hv => ?_
  · split
    · refine (propCheck_ends (fun _ _ => List.prefix_rfl) d).bind fun _ v hv => ?_
      subst hv
      rfl
    · rfl
  have hw : (if np || rs then smReset v else v).env.out = s.env.out := by split <;> exact hv
  dsimp only
  generalize (if np || rs then smReset v else v) = w at hw ⊢
  have hend {x : State} (hx : x.env.out = s.env.out) : s.env.out <+: (reopenEnd sd u x).env.out := by
    rw [(reopenEnd_ports sd u x).2.1, hx]
  split
  · split
    · exact hend (x := winReset w) hw
    · exact hw ▸ List.prefix_rfl
  · exact hend hw

/-- A command that is not accepted changes nothing (45_lzma1_reader.md R250). -/
theorem Res.KeepsOut.command {c : Prop} {_ : Decidable c} {r : Res Unit} (hr : r.KeepsOut s.env.out)
    (e : (if c then settle s r else .next s) = .next t) : s.env.out <+: t.env.out := by
  split at e
  · exact hr.settled List.prefix_rfl e
  · cases e
    exact List.prefix_rfl

theorem commandTurn_out {w : HostWord} (e : commandTurn w s = .next t) : s.env.out <+: t.env.out := by
  have kept {u : State} (hu : u.env.out = s.env.out) : (Res.ok () u).KeepsOut s.env.out :=
    Res.Ends.ok (hu ▸ List.prefix_rfl)
  unfold commandTurn decodeHost at e
  split at e
  · rename_i i hi
    split at hi <;> cases hi
    · exact (kept (u := reset s) rfl).settled List.prefix_rfl e
    · exact (kept (u := startLzma1 s) rfl).command e
    · exact (startRaw_keepsOut _ _ _ _ _ s).command e
    · exact (startLzma2_keepsOut _ s).command e
    · exact (reopen_keepsOut _ _ _ _ _ _ s).command e
  · cases e
    exact List.prefix_rfl

/-! ### A step -/

theorem attachTurn_eq (answers : List SrcAnswer) (s : State) :
    attachTurn answers s =
      s.withEnv { s.env with src := if betweenRuns s then answers else s.env.src } := by
  unfold attachTurn
  split <;> rfl

theorem takeTurn_out {m : Turn} (e : takeTurn m s = .next t) : s.env.out <+: t.env.out := by
  cases m with
  | core =>
    rcases coreTurn_ports e with ⟨ho, -⟩ | ⟨-, ho⟩
    · exact ho ▸ List.prefix_rfl
    · exact ho ▸ List.prefix_rfl
  | snk => exact snkTurn_out e
  | command w => exact commandTurn_out e
  | src a =>
    cases e
    exact List.prefix_rfl
  | readStatus =>
    cases e
    exact List.prefix_rfl
  | attach answers =>
    cases e
    rw [attachTurn_eq]
    exact List.prefix_rfl

theorem step_out (e : step s = .next t) : s.env.out <+: t.env.out := by
  cases hm : s.env.turns with
  | nil => exact takeTurn_out (step_unlisted hm ▸ e)
  | cons m ms => exact takeTurn_out (s := s.withEnv { s.env with turns := ms }) (step_listed hm ▸ e)

theorem betweenRuns_iff (s : State) :
    betweenRuns s = true ↔ (s.phase = .idle ∨ s.phase = .done ∨ s.phase = .fault) ∧ s.wait = none := by
  cases hp : s.phase <;> simp [betweenRuns, Phase.quiet, hp]

end Sys2Proof.Machine
end

section
/-! PROOFS. The obligation on the ports. -/
namespace Sys2Proof.Machine

/-- Settles O12: OUT by `step_out`, CORE's moves by `coreTurn_ports`, of whose two ends a fault is the one left
out; the moves of SRC and HOST are written out. -/
theorem portsKeepOrder : Obligations.PortsKeepOrder := by
  intro s t e
  refine ⟨step_out e, fun ts hm hp => ?_, fun a ts hs => ?_, fun answers ts hs => ?_⟩
  · rw [step_of_coreMoves hm] at e
    rcases coreTurn_ports e with ⟨-, hc⟩ | ⟨hf, -⟩
    · exact hc
    · exact absurd hf hp
  · rw [step_listed hs] at e
    cases e
    exact ⟨rfl, rfl⟩
  · rw [step_listed hs] at e
    cases e
    rw [attachTurn_eq]
    simp only [betweenRuns_iff]
    rfl

end Sys2Proof.Machine
end

section
/-! SUPPORT. The fields of a symbol code read back from their bits: bits of a number, the length code, and the
distance code with its position slots (30_encoding.md R94 to R98; 42_literal_distance.md R165). -/
namespace Sys2Proof

/-! ### Bits of a number -/

theorem takeMsb_msbBits (n acc v : Nat) (rest : List Bool) :
    takeMsb n acc (msbBits n v ++ rest) = some (acc * 2 ^ n + v % 2 ^ n, rest) := by
  induction n generalizing acc with
  | zero => simp [takeMsb, msbBits, Nat.mod_one]
  | succ n ih =>
    simp only [msbBits, List.cons_append, takeMsb, ih, Nat.toNat_testBit, Nat.mod_pow_succ, Option.some.injEq,
      Prod.mk.injEq, and_true]
    ring

theorem takeMsb_msbBits_of_lt {n v : Nat} (h : v < 2 ^ n) (rest : List Bool) :
    takeMsb n 0 (msbBits n v ++ rest) = some (v, rest) := by
  rw [takeMsb_msbBits, Nat.mod_eq_of_lt h, Nat.zero_mul, Nat.zero_add]

theorem takeLsb_lsbBits (n v : Nat) (rest : List Bool) :
    takeLsb n (lsbBits n v ++ rest) = some (v % 2 ^ n, rest) := by
  induction n generalizing v with
  | zero => simp [takeLsb, lsbBits, Nat.mod_one]
  | succ n ih =>
    simp only [lsbBits, List.cons_append, takeLsb, ih, Nat.toNat_testBit, pow_zero, Nat.div_one, pow_succ',
      Nat.mod_mul]

theorem takeLsb_lsbBits_of_lt {n v : Nat} (h : v < 2 ^ n) (rest : List Bool) :
    takeLsb n (lsbBits n v ++ rest) = some (v, rest) := by
  rw [takeLsb_lsbBits, Nat.mod_eq_of_lt h]

/-! ### The length code -/

theorem takeLen_encodeLen {n : Nat} (h : n ≤ 271) (rest : List Bool) :
    takeLen (encodeLen n ++ rest) = some (n, rest) := by
  unfold encodeLen
  split
  · simp only [List.cons_append, takeLen]
    exact takeMsb_msbBits_of_lt (by omega) rest
  · split
    · simp only [List.cons_append, takeLen, takeMsb_msbBits_of_lt (show n - 8 < 2 ^ 3 by omega),
        Option.map_some, Option.some.injEq, Prod.mk.injEq, and_true]
      omega
    · simp only [List.cons_append, takeLen, takeMsb_msbBits_of_lt (show n - 16 < 2 ^ 8 by omega),
        Option.map_some, Option.some.injEq, Prod.mk.injEq, and_true]
      omega

/-! ### Position slots -/

/-- The slot of a distance `d` of 4 or more, by the position `k + 1` of its leading bit and the bit below it:
the slot stores both, its direct bits are the `k` others, and its base is `d` with those cleared. -/
theorem slotOf_spec {d : Nat} (h4 : 4 ≤ d) (hd : d < 2 ^ 32) :
    ∃ k, 1 ≤ k ∧ k ≤ 30 ∧ slotOf d / 2 = k + 1 ∧ d / 2 ^ k = 2 + slotOf d % 2 := by
  have h0 : d ≠ 0 := by omega
  have hlo : 2 ≤ Nat.log2 d := (Nat.le_log2 h0).mpr h4
  have hhi : Nat.log2 d < 32 := (Nat.log2_lt h0).mpr hd
  obtain ⟨k, hk⟩ : ∃ k, Nat.log2 d = k + 1 := ⟨Nat.log2 d - 1, by omega⟩
  have hself := Nat.log2_self_le h0
  have hlt := Nat.lt_log2_self (n := d)
  have hq1 : 2 ≤ d / 2 ^ k := by
    rw [Nat.le_div_iff_mul_le (by positivity), ← pow_succ', ← hk]
    exact hself
  have hq2 : d / 2 ^ k < 4 := by
    rw [Nat.div_lt_iff_lt_mul (by positivity)]
    calc d < 2 ^ (Nat.log2 d + 1) := hlt
      _ = 4 * 2 ^ k := by rw [hk]; ring
  have hs : slotOf d = 2 * (k + 1) + d / 2 ^ k % 2 := by
    simp [slotOf, hk, show ¬ d < 4 by omega]
  exact ⟨k, by omega, by omega, by omega, by omega⟩

theorem slotOf_lt_64 {d : Nat} (hd : d < 2 ^ 32) : slotOf d < 2 ^ 6 := by
  by_cases h4 : d < 4
  · simp only [slotOf, h4, if_true]
    omega
  · obtain ⟨k, -, hk, hs, -⟩ := slotOf_spec (by omega) hd
    omega

theorem slotOf_lt_4_iff {d : Nat} (hd : d < 2 ^ 32) : slotOf d < 4 ↔ d < 4 := by
  by_cases h4 : d < 4
  · simp [slotOf, h4]
  · obtain ⟨k, hk, -, hs, -⟩ := slotOf_spec (by omega) hd
    omega

/-- The base of the slot of a distance is the distance with its direct bits cleared. -/
theorem slotBase_slotOf_add {d : Nat} (h4 : 4 ≤ d) (hd : d < 2 ^ 32) :
    (slotBase (slotOf d)).toNat + d % 2 ^ slotDirectBits (slotOf d) = d := by
  obtain ⟨k, -, hk, hs, hq⟩ := slotOf_spec h4 hd
  have hn : slotDirectBits (slotOf d) = k := by simp [slotDirectBits, hs]
  have hb : (slotBase (slotOf d)).toNat = d / 2 ^ k * 2 ^ k := by
    have hle := Nat.div_mul_le_self d (2 ^ k)
    rw [slotBase, hn, ← hq, BitVec.toNat_shiftLeft, BitVec.toNat_ofNat, Nat.shiftLeft_eq,
      Nat.mod_eq_of_lt (a := d / 2 ^ k) (by omega), Nat.mod_eq_of_lt (by omega)]
  rw [hb, hn, Nat.div_add_mod']

/-! ### The distance code -/

/-- A distance is the base of its slot plus its direct bits (R165). -/
theorem add_ofNat_eq {b d : Word} {v : Nat} (h : b.toNat + v = d.toNat) : b + BitVec.ofNat 32 v = d := by
  apply BitVec.eq_of_toNat_eq
  have := d.isLt
  simp only [BitVec.toNat_add, BitVec.toNat_ofNat]
  omega

/-- The direct bits of a long distance come in two parts, the lowest four apart (R165). -/
theorem add_ofNat_div_add_mod_eq {b d : Word} {v : Nat} (h : b.toNat + v = d.toNat) :
    b + BitVec.ofNat 32 (v / 16) <<< 4 + BitVec.ofNat 32 (v % 16) = d := by
  apply BitVec.eq_of_toNat_eq
  have := d.isLt
  simp only [BitVec.toNat_add, BitVec.toNat_shiftLeft, BitVec.toNat_ofNat, Nat.shiftLeft_eq]
  omega

theorem takeDist_encodeDist (d : Word) (rest : List Bool) :
    takeDist (encodeDist d ++ rest) = some (d, rest) := by
  have hd := d.isLt
  have hslot := takeMsb_msbBits_of_lt (slotOf_lt_64 hd)
  unfold encodeDist takeDist
  by_cases h4 : d.toNat < 4
  · have hs : slotOf d.toNat = d.toNat := by simp [slotOf, h4]
    rw [hs] at hslot
    simp [hs, h4, hslot]
  · have hsum := slotBase_slotOf_add (by omega) hd
    have hs4 : ¬ slotOf d.toNat < 4 := by rwa [slotOf_lt_4_iff hd]
    generalize slotOf d.toNat = slot at *
    have hoff : d.toNat - (slotBase slot).toNat = d.toNat % 2 ^ slotDirectBits slot := by omega
    have hlt : d.toNat % 2 ^ slotDirectBits slot < 2 ^ slotDirectBits slot := Nat.mod_lt _ (by positivity)
    simp only [hoff, hs4, if_false]
    generalize d.toNat % 2 ^ slotDirectBits slot = off at *
    by_cases h14 : slot < 14
    · simp only [h14, if_true, List.append_assoc, hslot, hs4, if_false, takeLsb_lsbBits_of_lt hlt,
        add_ofNat_eq hsum]
    · have hhi : off / 16 < 2 ^ (slotDirectBits slot - 4) := by
        have hnd : slotDirectBits slot = slotDirectBits slot - 4 + 4 := by unfold slotDirectBits; omega
        rw [hnd, pow_add] at hlt
        omega
      have hlo : off % 16 < 2 ^ 4 := Nat.mod_lt _ (by decide)
      simp only [h14, if_false, List.append_assoc, hslot, hs4, takeMsb_msbBits_of_lt hhi,
        takeLsb_lsbBits_of_lt hlo, add_ofNat_div_add_mod_eq hsum]

/-! ### Symbol codes -/

theorem decodeSym_rep (k : BitVec 2) (bs : List Bool) :
    decodeSym (repPrefix k ++ bs) = (takeLen bs).map fun p => (.rep k p.1, p.2) := by
  have hk : k = 0#2 ∨ k = 1#2 ∨ k = 2#2 ∨ k = 3#2 := by revert k; decide
  rcases hk with rfl | rfl | rfl | rfl <;> rfl

end Sys2Proof
end

section
/-! PROOFS. The obligation on symbol codes. -/
namespace Sys2Proof

/-- Settles O2, code by code: each field is read back from its bits. -/
theorem symbolCodesRoundTrip : Obligations.SymbolCodesRoundTrip := by
  intro c rest hc
  cases c with
  | lit b => simp [encodeSym, decodeSym, takeMsb_msbBits_of_lt b.isLt]
  | newMatch n d =>
    have hn : n ≤ 271 := by simpa [SymCode.wf] using hc
    simp [encodeSym, decodeSym, takeLen_encodeLen hn, takeDist_encodeDist]
  | srep => rfl
  | rep k n =>
    have hn : n ≤ 271 := by simpa [SymCode.wf] using hc
    simp [encodeSym, decodeSym_rep, takeLen_encodeLen hn]

end Sys2Proof
end

section
/-! SUPPORT. The fields of a header in bytes: every byte order read as little-endian bytes, those as a number, and a
field read back from its bytes (20_memory.md R55; 30_encoding.md R81, R82, R88 to R91). -/
namespace Sys2Proof

/-! ### Little-endian bytes -/

/-- Bit `i` of a little-endian field is bit `i % 8` of its byte `i / 8`. -/
theorem leBytes_getLsbD {w : Nat} (bs : List Byte) (i : Nat) :
    (leBytes w bs).getLsbD i = (decide (i < w) && (bs.getD (i / 8) 0#8).getLsbD (i % 8)) := by
  induction bs generalizing i with
  | nil => simp [leBytes]
  | cons b bs ih =>
    simp only [leBytes, BitVec.getLsbD_or, BitVec.getLsbD_setWidth, BitVec.getLsbD_shiftLeft, ih]
    by_cases hi : i < 8
    · simp [hi, Nat.div_eq_of_lt, Nat.mod_eq_of_lt]
    · -- a higher bit is a bit of the bytes that follow
      have hz : b.getLsbD i = false := BitVec.getLsbD_of_ge b i (by omega)
      have hd : i / 8 = (i - 8) / 8 + 1 := by omega
      have hm : (i - 8) % 8 = i % 8 := by omega
      have hw : i < w → i - 8 < w := by omega
      by_cases h : i < w <;> simp [hi, hz, hd, hm, h, hw]

theorem byteAt_getLsbD {w : Nat} (v : BitVec w) (k i : Nat) :
    (byteAt v k).getLsbD i = (decide (i < 8) && v.getLsbD (8 * k + i)) := by
  simp [byteAt]

/-- A field is read back from its bytes. -/
theorem leBytes_byteAt {w n : Nat} (v : BitVec w) (h : w ≤ 8 * n) :
    leBytes w ((List.range n).map (byteAt v)) = v := by
  apply BitVec.eq_of_getLsbD_eq
  intro i hi
  have hk : i / 8 < n := by omega
  have hb : ((List.range n).map (byteAt v)).getD (i / 8) 0#8 = byteAt v (i / 8) := by
    simp [List.getD_eq_getElem?_getD, hk]
  rw [leBytes_getLsbD, hb, byteAt_getLsbD, Nat.div_add_mod]
  simp [hi, Nat.mod_lt]

theorem ofDigits_bytes_lt (bs : List Byte) : Nat.ofDigits 256 (bs.map BitVec.toNat) < 256 ^ bs.length := by
  have h := Nat.ofDigits_lt_base_pow_length (b := 256) (l := bs.map BitVec.toNat) (by decide)
    (by simpa using fun b _ => b.isLt)
  rwa [List.length_map] at h

/-- Little-endian bytes that fit the field are the digits of its number in base 256. -/
theorem leBytes_toNat {w : Nat} {bs : List Byte} (h : 8 * bs.length ≤ w) :
    (leBytes w bs).toNat = Nat.ofDigits 256 (bs.map BitVec.toNat) := by
  induction bs with
  | nil => simp [leBytes]
  | cons b bs ih =>
    simp only [List.length_cons] at h
    have hb := b.isLt
    have hw : 2 ^ 8 ≤ 2 ^ w := Nat.pow_le_pow_right (by decide) (by omega)
    have hlt := calc Nat.ofDigits 256 (bs.map BitVec.toNat) * 2 ^ 8
      _ < 256 ^ bs.length * 256 := Nat.mul_lt_mul_of_pos_right (ofDigits_bytes_lt bs) (by decide)
      _ = 2 ^ (8 * (bs.length + 1)) := by rw [pow_mul, ← pow_succ]; rfl
      _ ≤ 2 ^ w := Nat.pow_le_pow_right (by decide) h
    rw [leBytes, BitVec.or_comm, BitVec.toNat_or, BitVec.toNat_shiftLeft, BitVec.toNat_setWidth, ih (by omega),
      Nat.shiftLeft_eq, Nat.mod_eq_of_lt hlt, Nat.mod_eq_of_lt (by omega), Nat.mul_comm,
      ← Nat.two_pow_add_eq_or_of_lt hb]
    simp [Nat.ofDigits_cons, Nat.add_comm]

/-! ### The other byte orders, as little-endian bytes -/

theorem u16be_eq_leBytes (hi lo : Byte) : u16be hi lo = leBytes 16 [lo, hi] := by
  simp [u16be, leBytes, BitVec.or_comm]

theorem u32be_eq_leBytes (b1 b2 b3 b4 : Byte) : u32be b1 b2 b3 b4 = leBytes 32 [b4, b3, b2, b1] := by
  simp only [u32be, leBytes, BitVec.shiftLeft_or_distrib, BitVec.zero_shiftLeft, BitVec.or_zero,
    ← BitVec.shiftLeft_add, Nat.reduceAdd]
  rw [BitVec.or_comm, BitVec.or_comm _ (b3.setWidth 32 <<< 8), BitVec.or_comm (b1.setWidth 32 <<< 24)]

theorem unc21_eq_leBytes (c x1 x2 : Byte) : unc21 c x1 x2 = leBytes 21 [x2, x1, c &&& 0x1F#8] := by
  simp only [unc21, leBytes, BitVec.shiftLeft_or_distrib, BitVec.zero_shiftLeft, BitVec.or_zero,
    ← BitVec.shiftLeft_add, Nat.reduceAdd, BitVec.setWidth_and, BitVec.reduceSetWidth]
  rw [BitVec.or_comm, BitVec.or_comm (x1.setWidth 21 <<< 8)]

/-! ### The control byte of an LZMA chunk -/

/-- The top byte of a stored size is its bits 20:16. -/
theorem byteAt_two_toNat (u : BitVec 21) : (byteAt u 2).toNat = u.toNat / 2 ^ 16 := by
  have hu := u.isLt
  simp [byteAt, Nat.shiftRight_eq_div_pow]
  omega

/-- The sub-kind in bits 6:5, bits 20:16 of the stored size below it (30_encoding.md R88). -/
theorem lzmaCtrl_toNat {k : Byte} (hk : k.toNat < 4) (u : BitVec 21) :
    (lzmaCtrl k u).toNat = 128 + 32 * k.toNat + u.toNat / 2 ^ 16 := by
  have hu := u.isLt
  have hk5 : (4 + k.toNat) * 2 ^ 5 < 2 ^ 8 := by omega
  have hc : 0x80#8 ||| k <<< 5 = (4#8 ||| k) <<< 5 := by
    rw [BitVec.shiftLeft_or_distrib]
    rfl
  have h4 : (4#8 ||| k).toNat = 4 + k.toNat := by
    rw [BitVec.toNat_or]
    exact (Nat.two_pow_add_eq_or_of_lt (i := 2) hk 1).symm
  rw [lzmaCtrl, hc, BitVec.toNat_or, BitVec.toNat_shiftLeft, h4, byteAt_two_toNat, Nat.shiftLeft_eq,
    Nat.mod_eq_of_lt hk5, ← Nat.shiftLeft_eq, ← Nat.shiftLeft_add_eq_or_of_lt (by omega), Nat.shiftLeft_eq]
  omega

theorem lzmaCtrl_and_sizeBits {k : Byte} (hk : k.toNat < 4) (u : BitVec 21) :
    lzmaCtrl k u &&& 0x1F#8 = byteAt u 2 := by
  apply BitVec.eq_of_toNat_eq
  have hu := u.isLt
  calc (lzmaCtrl k u &&& 0x1F#8).toNat
    _ = (lzmaCtrl k u).toNat % 2 ^ 5 := by
      rw [BitVec.toNat_and]
      exact Nat.and_two_pow_sub_one_eq_mod _ 5
    _ = (byteAt u 2).toNat := by
      rw [lzmaCtrl_toNat hk, byteAt_two_toNat]
      omega

/-! ### Fields read back -/

theorem u16be_byteAt (u : BitVec 16) : u16be (byteAt u 1) (byteAt u 0) = u := by
  rw [u16be_eq_leBytes]
  exact leBytes_byteAt (n := 2) u (by decide)

theorem u32be_byteAt (x : Word) : u32be (byteAt x 3) (byteAt x 2) (byteAt x 1) (byteAt x 0) = x := by
  rw [u32be_eq_leBytes]
  exact leBytes_byteAt (n := 4) x (by decide)

theorem unc21_lzmaCtrl {k : Byte} (hk : k.toNat < 4) (u : BitVec 21) :
    unc21 (lzmaCtrl k u) (byteAt u 1) (byteAt u 0) = u := by
  rw [unc21_eq_leBytes, lzmaCtrl_and_sizeBits hk]
  exact leBytes_byteAt (n := 3) u (by decide)

end Sys2Proof
end

section
/-! SUPPORT. Each format decoded: what a header of it reads as, and that an encoded chunk header or symbol code is
read back (30_encoding.md R81, R82, R88 to R94, R98). -/
namespace Sys2Proof

/-! ### Headers of a fixed length, and complete symbol codes -/

theorem decode_hdr1_bytes (p d0 d1 d2 d3 u0 u1 u2 u3 u4 u5 u6 u7 : Byte) :
    decode .hdr1 (.bytes [p, d0, d1, d2, d3, u0, u1, u2, u3, u4, u5, u6, u7]) =
      .ok (.hdr1 p (leBytes 32 [d0, d1, d2, d3]) (leBytes 64 [u0, u1, u2, u3, u4, u5, u6, u7])) := rfl

theorem decode_prologue_bytes (b0 b1 b2 b3 b4 : Byte) :
    decode .prologue (.bytes [b0, b1, b2, b3, b4]) = .ok (.rcInit b0 (u32be b1 b2 b3 b4)) := rfl

/-- A complete symbol code is decoded as the operation it selects, where its bits are no bare selection of R94. -/
theorem decode_sym_encodeSym {c : SymCode} (hc : c.wf = true) (hp : symPrefix (encodeSym c) = none) :
    decode .sym (.bits (encodeSym c)) = .ok c.instr := by
  have h := symbolCodesRoundTrip c [] hc
  rw [List.append_nil] at h
  simp [decode, decodeBits, hp, h]

/-! ### Chunk headers -/

theorem decode_c2_of {bs : List Byte} {i : Instr} (h : decodeC2 bs = .ok (i, [])) :
    decode .c2 (.bytes bs) = .ok i := by
  simp [decode, exactly, h]

theorem decodeC2_rawd (x1 x2 : Byte) (rest : List Byte) :
    decodeC2 (1#8 :: x1 :: x2 :: rest) = .ok (.c2Rawd (u16be x1 x2), rest) := by
  simp [decodeC2, c2HeaderLen, chunkOf]

theorem decodeC2_raw (x1 x2 : Byte) (rest : List Byte) :
    decodeC2 (2#8 :: x1 :: x2 :: rest) = .ok (.c2Raw (u16be x1 x2), rest) := by
  simp [decodeC2, c2HeaderLen, chunkOf]

/-- A control byte of the unused range is the whole header (30_encoding.md R93). -/
theorem decodeC2_ill {c : Byte} (h1 : 3 ≤ c.toNat) (h2 : c.toNat < 128) (rest : List Byte) :
    decodeC2 (c :: rest) = .ok (.c2Ill c, rest) := by
  have hl : c2HeaderLen c = 0 := by
    simp only [c2HeaderLen, ← BitVec.toNat_inj, BitVec.lt_def, BitVec.reduceToNat]
    rw [if_neg (by omega), if_neg (by omega), if_pos h2]
  have hk (x : List Byte) : chunkOf c x = .c2Ill c := by
    simp only [chunkOf, ← BitVec.toNat_inj, BitVec.lt_def, BitVec.reduceToNat]
    rw [if_neg (by omega), if_neg (by omega), if_neg (by omega), if_pos h2]
  simp [decodeC2, hl, hk]

/-- The two sub-kinds without a property byte (30_encoding.md R88, R89). -/
theorem decodeC2_noProp {c : Byte} (h1 : 128 ≤ c.toNat) (h2 : c.toNat < 192) (x1 x2 x3 x4 : Byte)
    (rest : List Byte) : decodeC2 (c :: x1 :: x2 :: x3 :: x4 :: rest) =
      .ok (if c.toNat < 160 then .c2Lzma0 (unc21 c x1 x2) (u16be x3 x4)
        else .c2Lzma1 (unc21 c x1 x2) (u16be x3 x4), rest) := by
  have hl : c2HeaderLen c = 4 := by
    simp only [c2HeaderLen, ← BitVec.toNat_inj, BitVec.lt_def, BitVec.reduceToNat]
    rw [if_neg (by omega), if_neg (by omega), if_neg (by omega), if_pos h2]
  have hk : chunkOf c [x1, x2, x3, x4] = if c.toNat < 160
      then .c2Lzma0 (unc21 c x1 x2) (u16be x3 x4) else .c2Lzma1 (unc21 c x1 x2) (u16be x3 x4) := by
    simp only [chunkOf, ← BitVec.toNat_inj, BitVec.lt_def, BitVec.reduceToNat]
    rw [if_neg (by omega), if_neg (by omega), if_neg (by omega), if_neg (by omega), if_pos h2]
    rfl
  simp [decodeC2, hl, hk]

/-- The two sub-kinds with a property byte (30_encoding.md R88, R89). -/
theorem decodeC2_prop {c : Byte} (h : 192 ≤ c.toNat) (x1 x2 x3 x4 x5 : Byte) (rest : List Byte) :
    decodeC2 (c :: x1 :: x2 :: x3 :: x4 :: x5 :: rest) =
      .ok (if c.toNat < 224 then .c2Lzma2 (unc21 c x1 x2) (u16be x3 x4) x5
        else .c2Lzma3 (unc21 c x1 x2) (u16be x3 x4) x5, rest) := by
  have hl : c2HeaderLen c = 5 := by
    simp only [c2HeaderLen, ← BitVec.toNat_inj, BitVec.lt_def, BitVec.reduceToNat]
    rw [if_neg (by omega), if_neg (by omega), if_neg (by omega), if_neg (by omega)]
  have hk : chunkOf c [x1, x2, x3, x4, x5] = if c.toNat < 224
      then .c2Lzma2 (unc21 c x1 x2) (u16be x3 x4) x5 else .c2Lzma3 (unc21 c x1 x2) (u16be x3 x4) x5 := by
    simp only [chunkOf, ← BitVec.toNat_inj, BitVec.lt_def, BitVec.reduceToNat]
    rw [if_neg (by omega), if_neg (by omega), if_neg (by omega), if_neg (by omega), if_neg (by omega),
      if_neg (by omega)]
    rfl
  simp [decodeC2, hl, hk]

/-- An LZMA chunk header without a property byte is read back: sub-kinds 0 and 1. -/
theorem decodeC2_lzmaCtrl_noProp {k : Byte} (hk : k.toNat < 2) (u : BitVec 21) (c : BitVec 16) :
    decodeC2 (lzmaCtrl k u :: lzmaSizes u c) =
      .ok (if k.toNat = 0 then .c2Lzma0 u c else .c2Lzma1 u c, []) := by
  have hc := lzmaCtrl_toNat (by omega : k.toNat < 4) u
  have hi : (lzmaCtrl k u).toNat < 160 ↔ k.toNat = 0 := by omega
  rw [lzmaSizes, decodeC2_noProp (by omega) (by omega), unc21_lzmaCtrl (by omega), u16be_byteAt]
  simp only [hi]

/-- An LZMA chunk header with a property byte is read back: sub-kinds 2 and 3. -/
theorem decodeC2_lzmaCtrl_prop {k : Byte} (h2 : 2 ≤ k.toNat) (hk : k.toNat < 4) (u : BitVec 21) (c : BitVec 16)
    (p : Byte) : decodeC2 (lzmaCtrl k u :: (lzmaSizes u c ++ [p])) =
      .ok (if k.toNat = 2 then .c2Lzma2 u c p else .c2Lzma3 u c p, []) := by
  have hc := lzmaCtrl_toNat hk u
  have hi : (lzmaCtrl k u).toNat < 224 ↔ k.toNat = 2 := by omega
  simp only [lzmaSizes, List.cons_append, List.nil_append]
  rw [decodeC2_prop (by omega), unc21_lzmaCtrl hk, u16be_byteAt]
  simp only [hi]

end Sys2Proof
end

section
/-! PROOFS. The obligations on the encodings of operations. -/
namespace Sys2Proof

/-- Settles O1, format by format: each header's bytes are taken apart and each field is read back from its bytes;
EOS is a complete symbol code (`symbolCodesRoundTrip`). What is left, C2.EOS, PROP.DEC, the bare selections of R94
and the host commands, is decoded by evaluation. -/
theorem encodeThenDecode : Obligations.EncodeThenDecode := by
  intro i f w hwf he
  cases i <;> cases he
  case c2Rawd u => exact decode_c2_of (by rw [decodeC2_rawd, u16be_byteAt])
  case c2Raw u => exact decode_c2_of (by rw [decodeC2_raw, u16be_byteAt])
  case c2Lzma0 u c => exact decode_c2_of (decodeC2_lzmaCtrl_noProp (k := 0#8) (by decide) u c)
  case c2Lzma1 u c => exact decode_c2_of (decodeC2_lzmaCtrl_noProp (k := 1#8) (by decide) u c)
  case c2Lzma2 u c p => exact decode_c2_of (decodeC2_lzmaCtrl_prop (k := 2#8) (by decide) (by decide) u c p)
  case c2Lzma3 u c p => exact decode_c2_of (decodeC2_lzmaCtrl_prop (k := 3#8) (by decide) (by decide) u c p)
  case c2Ill c =>
    obtain ⟨h1, h2⟩ : 3#8 ≤ c ∧ c ≤ 0x7F#8 := of_decide_eq_true hwf
    exact decode_c2_of (decodeC2_ill h1 (Nat.lt_succ_of_le h2) [])
  case hdr1 p d u =>
    rw [decode_hdr1_bytes]
    exact congrArg Except.ok (congrArg₂ (Instr.hdr1 p) (leBytes_byteAt (n := 4) d (by decide))
      (leBytes_byteAt (n := 8) u (by decide)))
  case rcInit b code => rw [decode_prologue_bytes, u32be_byteAt]
  case eos => exact decode_sym_encodeSym (c := .newMatch 0 Config.endMarker) rfl rfl
  all_goals rfl

/-- Settles O5: the two fields are the digits of the header's bytes in base 256. -/
theorem headerFields : Obligations.HeaderFields := by
  intro p d0 d1 d2 d3 u0 u1 u2 u3 u4 u5 u6 u7
  refine ⟨_, _, ?_, ?_, decode_hdr1_bytes p d0 d1 d2 d3 u0 u1 u2 u3 u4 u5 u6 u7⟩
  · rw [leBytes_toNat (by simp)]
    simp [Nat.ofDigits_cons]
    omega
  · rw [leBytes_toNat (by simp)]
    simp [Nat.ofDigits_cons]
    omega

/-- Settles O3: each word is evaluated. -/
theorem wordsOfTheSpecDecode : Obligations.WordsOfTheSpecDecode :=
  ⟨rfl, rfl, rfl, rfl, rfl, rfl, rfl, rfl, rfl, rfl⟩

end Sys2Proof
end

section
/-! PROOFS. The obligations on a command of HOST and on the property byte. -/
namespace Sys2Proof.Machine

/-! ### A command of HOST -/

theorem commandTurn_ok {w : HostWord} {i : Instr} (h : decodeHost w = .ok i) (s : State) :
    commandTurn w s = exec i s := by
  simp [commandTurn, h]

/-- A number that is no command. -/
theorem decodeHost_error {w : HostWord} (h : 5 ≤ w.code) : decodeHost w = .error (.hostCode w.code) := by
  unfold decodeHost
  split
  case h_6 => rfl
  all_goals omega

/-- Settles O16: HOST's move is listed, and what it runs is what the number decodes to. -/
theorem stepRunsTheCommand : Obligations.StepRunsTheCommand := by
  intro s ts w hs
  rw [step_listed hs]
  constructor
  · intro i hi
    exact commandTurn_ok hi _
  · intro h5
    simp [takeTurn, commandTurn, decodeHost_error h5, State.withEnv]

/-! ### The property byte -/

theorem exec_propDec (d : Byte) (s : State) : exec (.propDec d) s =
    settleRet s (fun _ => .props (propLc d) (propLp d) (propPb d)) (propCheck d s) := rfl

theorem settleRet_raise {α : Type} (s0 s : State) (ret : α → Ret) (c : Cause) (x : Word) :
    settleRet s0 ret (raise c x s) = .next (raiseState c x s) := rfl

/-- A property byte from its parts (30_encoding.md R83). -/
theorem prop_toNat_eq {d : Byte} (hd : d.toNat < 225) :
    d.toNat = (propLc d).toNat + 9 * ((propLp d).toNat + 5 * (propPb d).toNat) := by
  simp [propLc, propLp, propPb]
  omega

/-- Settles O45: the byte is checked as in the three `propCheck` lemmas, and taken apart as in `prop_toNat_eq`. -/
theorem propDec : Obligations.PropDec := by
  intro d s
  refine ⟨fun h => ⟨propLc d, propLp d, propPb d, ?_, prop_toNat_eq h.1, propLc_le d, propLp_le d, propPb_le h.1⟩,
    fun h => ?_, fun h1 h2 => ?_⟩
  · rw [exec_propDec, propCheck_legal h, settleRet_ok]
    rfl
  · rw [exec_propDec, propCheck_illegal h, settleRet_raise]
    rfl
  · rw [exec_propDec, propCheck_unsupported h1 h2, settleRet_raise]
    rfl

end Sys2Proof.Machine
end

section
/-! SUPPORT. RC.NORM case by case, and the operations that end with it: what each answers when no byte is needed,
when one is pulled, and when the pull fails (40_range_decoder.md R121 to R123). -/
namespace Sys2Proof.Machine

/-! ### The instructions -/

theorem exec_rcNorm (s : State) : exec .rcNorm s = settle s (rcNorm s) := rfl

theorem exec_rcBit (T : Table) (i : Nat) (s : State) :
    exec (.rcBit T i) s = settleRet s .bit (rcBit T i s) := rfl

theorem exec_rcDirect (n : Nat) (s : State) :
    exec (.rcDirect n) s = settleRet s .word (rcDirect n 0#32 s) := rfl

/-! ### RC.NORM -/

theorem rcNorm_of_top_le {s : State} (hr : Config.top ≤ s.rc.range) : rcNorm s = .ok () s := by
  simp [rcNorm, BitVec.not_lt.mpr hr]

/-- A pull that completes, as one state. -/
theorem pull_eq_afterPulls {s : State} {b : Byte} {rest : List SrcAnswer} (hs : s.env.src = .byte b :: rest)
    (hl : limitActive s = true → s.c2.compLeft ≠ 0#17) : pull s = .ok b (afterPulls 1 rest s) := by
  rw [pull_byte hs hl]
  cases h : limitActive s <;> simp [countPull, afterPulls, h] <;> rfl

theorem rcNorm_of_byte {s : State} {b : Byte} {rest : List SrcAnswer} (hr : s.rc.range < Config.top)
    (hs : s.env.src = .byte b :: rest) (hl : limitActive s = true → s.c2.compLeft ≠ 0#17) :
    rcNorm s = .ok () { afterPulls 1 rest s with rc := rcShift b s.rc } := by
  simp only [rcNorm, hr, if_true, pull_eq_afterPulls hs hl, Res.bind_ok]
  rfl

theorem rcNorm_of_pullFails {s t : State} (hr : s.rc.range < Config.top) (hf : pullFails s t) :
    rcNorm s = .raised t := by
  simp [rcNorm, hr, pull_raised_iff.mpr hf]

/-! ### A decision that ends with RC.NORM, as an instruction of its own -/

/-- The end of a decision: the writes before RC.NORM have led to `u`, and after it the answer is `a`. -/
def thenNorm {α : Type} (u : State) (a : α) : Res α := (rcNorm u).bind fun _ t => .ok a t

theorem rcBit_eq_thenNorm {T : Table} {i : Nat} {s : State} (hi : i < tableSize s.cfg T) :
    rcBit T i s = thenNorm (rcDecide T i s) (rcBitOf s.rc (probAt s T i)) := by
  simp [rcBit, hi, thenNorm]

theorem rcDirect_one (s : State) :
    rcDirect 1 0#32 s = thenNorm (s.withRc (directAfter s.rc)) (BitVec.ofNat 32 (directBitOf s.rc).toNat) := by
  simp [rcDirect, rcDirectBit, thenNorm, Res.bind_assoc]

section
variable {α : Type} {s u : State} {ret : α → Ret} {a : α}

theorem settleRet_thenNorm_of_top_le (hr : Config.top ≤ u.rc.range) :
    settleRet s ret (thenNorm u a) = .next { u with ret := ret a } := by
  rw [thenNorm, rcNorm_of_top_le hr]
  rfl

theorem settleRet_thenNorm_of_byte {b : Byte} {rest : List SrcAnswer} (hr : u.rc.range < Config.top)
    (hs : u.env.src = .byte b :: rest) (hl : limitActive u = true → u.c2.compLeft ≠ 0#17) :
    settleRet s ret (thenNorm u a) =
      .next { afterPulls 1 rest u with rc := rcShift b u.rc, ret := ret a } := by
  rw [thenNorm, rcNorm_of_byte hr hs hl]
  rfl

theorem settleRet_thenNorm_of_pullFails {t : State} (hr : u.rc.range < Config.top) (hf : pullFails u t) :
    settleRet s ret (thenNorm u a) = .next t := by
  rw [thenNorm, rcNorm_of_pullFails hr hf]
  rfl

end

/-! ### The arithmetic of one decision -/

/-- Also a slot above 2017, which no run reaches, moves up without a carry (R126). -/
theorem probUp_toNat_eq (p : BitVec 11) : (probUp p).toNat = p.toNat + (2048 - p.toNat) / 32 := by
  have := p.isLt
  rw [probUp, BitVec.toNat_ofNat, Nat.mod_eq_of_lt (by omega)]

theorem probAfter_toNat (rc : Rc) (p : BitVec 11) :
    (probAfter rc p).toNat =
      if rcBitOf rc p then p.toNat - p.toNat / 32 else p.toNat + (2048 - p.toNat) / 32 := by
  rw [probAfter, apply_ite BitVec.toNat, probDown_toNat, probUp_toNat_eq]

theorem rcBound_eq (r : Word) (p : BitVec 11) : rcBound r p = (r >>> 11) * BitVec.ofNat 32 p.toNat := by
  rw [rcBound, BitVec.ofNat_toNat]

theorem rcBitOf_eq (rc : Rc) (p : BitVec 11) : rcBitOf rc p = decide (¬ rc.code < rcBound rc.range p) :=
  (decide_not).symm

theorem rcAfter_eq (rc : Rc) (p : BitVec 11) :
    rcAfter rc p =
      { range := if rcBitOf rc p then rc.range - rcBound rc.range p else rcBound rc.range p
        code := if rcBitOf rc p then rc.code - rcBound rc.range p else rc.code
        corrupted := rc.corrupted } := by
  unfold rcAfter
  split <;> rfl

/-- RC.BIT writes `rc` and PROB before RC.NORM, and nothing else (R122). -/
theorem rcDecide_eq (T : Table) (i : Nat) (s : State) :
    rcDecide T i s = { s with rc := rcAfter s.rc (probAt s T i), prob := (rcDecide T i s).prob } := rfl

theorem initCorrupted_eq (b0 : Byte) (code : Word) :
    initCorrupted b0 code = (decide (b0 ≠ 0#8) || decide (code = 0xFFFFFFFF#32)) := by
  simp [initCorrupted, bne, beq_eq_decide]

theorem directCorrupted_eq (old : Bool) (range code : Word) :
    directCorrupted old range code = (old || decide (code = range)) := by
  simp [directCorrupted, beq_eq_decide]

/-! ### RC.DIRECT -/

/-- One more bit below the bits read so far (R123). -/
theorem ofNat_shiftLeft_or_bit (v : Nat) (b : Bool) :
    BitVec.ofNat 32 v <<< 1 ||| BitVec.ofNat 32 b.toNat = BitVec.ofNat 32 (2 * v + b.toNat) := by
  apply BitVec.eq_of_getLsbD_eq
  intro i hi
  simp only [BitVec.getLsbD_or, BitVec.getLsbD_shiftLeft, BitVec.getLsbD_ofNat]
  cases i with
  | zero => cases b <;> simp
  | succ i =>
    have h : (2 * v + b.toNat) / 2 = v := by have := b.toNat_lt; omega
    have h0 : b.toNat / 2 = 0 := Nat.div_eq_of_lt b.toNat_lt
    simp [Nat.testBit_succ, h, h0, hi, Nat.lt_of_succ_lt hi]

/-- RC.DIRECT along its decisions reads the bits most significant first (R123). -/
theorem rcDirect_path (bs : List Bool) {v : Nat} {s t : State} (h : decides (bs.map .direct) s = some t) :
    rcDirect bs.length (BitVec.ofNat 32 v) s =
      .ok (BitVec.ofNat 32 (bs.foldl (fun v b => 2 * v + b.toNat) v)) t := by
  induction bs generalizing v s with
  | nil => cases h; rfl
  | cons b bs ih =>
    obtain ⟨u, h1, h2⟩ := decides_direct.mp h
    simp only [List.length_cons, rcDirect, h1, Res.bind_ok, ofNat_shiftLeft_or_bit, List.foldl_cons]
    exact ih h2

end Sys2Proof.Machine
end

section
/-! SUPPORT. What a run of decisions did, decision by decision; how many decisions the fields take. -/
namespace Sys2Proof.Machine

/-! ### The frame of a run -/

/-- In `s` the range decoder takes the decision `d`, and `t` is the state after it. -/
def Decision.Takes (d : Decision) (s t : State) : Prop :=
  match d with
  | .slot T i b => rcBit T i s = .ok b t
  | .direct b => rcDirectBit s = .ok b t

theorem decides_cons {d : Decision} {ds : List Decision} {s t : State} :
    decides (d :: ds) s = some t ↔ ∃ u, d.Takes s u ∧ decides ds u = some t := by
  cases d with
  | slot T i b => exact decides_slot
  | direct b => exact decides_direct

theorem Decision.Takes.frame {d : Decision} {s t : State} (h : d.Takes s t) :
    decodeFrame s t ∧ (∀ k, d.key ≠ some k → slotGet t.prob k = slotGet s.prob k) ∧
      ∃ bs : List Byte, bs.length ≤ 1 ∧ tookBytes s t bs := by
  cases d with
  | slot T i b =>
    obtain ⟨hf, hp, hb⟩ := rcBit_frame h
    refine ⟨hf, fun k hk => ?_, hb⟩
    rw [hp, slotGet_slotPut, if_neg fun e => hk (congrArg some e.symm)]
  | direct b =>
    obtain ⟨hf, hp, hb⟩ := rcDirectBit_frame h
    exact ⟨hf, fun k _ => by rw [hp], hb⟩

theorem decides_frame {ds : List Decision} {s t : State} (h : decides ds s = some t) :
    decodeFrame s t ∧ (∀ k, (∀ d ∈ ds, d.key ≠ some k) → slotGet t.prob k = slotGet s.prob k) ∧
      ∃ bs : List Byte, bs.length ≤ ds.length ∧ tookBytes s t bs := by
  induction ds generalizing s with
  | nil =>
    cases h
    exact ⟨.refl _, fun _ _ => rfl, [], Nat.le_refl 0, .refl _⟩
  | cons d ds ih =>
    obtain ⟨u, h1, h2⟩ := decides_cons.mp h
    obtain ⟨hf1, hp1, as, hl1, hb1⟩ := h1.frame
    obtain ⟨hf2, hp2, bs, hl2, hb2⟩ := ih h2
    refine ⟨hf1.trans hf2, fun k hk => ?_, as ++ bs, ?_, hb1.trans hf1 hb2⟩
    · obtain ⟨hd, hds⟩ := List.forall_mem_cons.mp hk
      rw [hp2 k hds, hp1 k hd]
    · simp only [List.length_append, List.length_cons]
      omega

/-! ### Lengths of the paths (40_range_decoder.md R132) -/

@[simp] theorem length_matchedPath (base : Nat) (same : Bool) (m : Nat) (r : List (Bool × Bool)) :
    (matchedPath base same m r).length = r.length := by
  induction r generalizing same m with
  | nil => cases same <;> rfl
  | cons p r ih => cases same <;> simp [matchedPath, ih]

@[simp] theorem length_litPath (ls : Nat) (b : Byte) : (litPath ls b).length = 8 := by simp [litPath]

@[simp] theorem length_litmPath (ls : Nat) (mb b : Byte) : (litmPath ls mb b).length = 8 := by simp [litmPath]

theorem length_lenPath_le (l : LenInst) (ps : BitVec 4) (n : Nat) : (lenPath l ps n).length ≤ 10 := by
  unfold lenPath
  split
  · simp
  · split <;> simp

theorem length_distPath_le (n : Nat) (d : Word) : (distPath n d).length ≤ 36 := by
  have hs := slotOf_lt d
  simp only [distPath, slotDirectBits, List.length_append, length_treePath, length_msbBits]
  split
  · simp
  · split <;> simp <;> omega

end Sys2Proof.Machine
end

section
/-! SUPPORT. Fed runs: whatever bits come, they are the decisions of some value (40_range_decoder.md R132;
41_bittree_length.md R140, R141, R144; 42_literal_distance.md R162 to R165). -/
namespace Sys2Proof.Machine

/-! ### Bits and the numbers they spell -/

theorem msbValue_cons (b : Bool) (bs : List Bool) :
    msbValue (b :: bs) = 2 ^ bs.length * b.toNat + msbValue bs := by
  rw [Nat.mul_comm]
  simpa [msbValue] using foldl_bits bs b.toNat

theorem msbValue_lt (bs : List Bool) : msbValue bs < 2 ^ bs.length := by
  induction bs with
  | nil => decide
  | cons b bs ih =>
    have hb : 2 ^ bs.length * b.toNat ≤ 2 ^ bs.length * 1 := Nat.mul_le_mul_left _ b.toNat_le
    rw [msbValue_cons, List.length_cons, pow_succ]
    omega

theorem lsbValue_lt (bs : List Bool) : lsbValue bs < 2 ^ bs.length := by
  induction bs with
  | nil => decide
  | cons b bs ih =>
    have hb := b.toNat_lt
    rw [lsbValue, List.length_cons, pow_succ]
    omega

theorem msbBits_congr {n v w : Nat} (h : ∀ i < n, v.testBit i = w.testBit i) : msbBits n v = msbBits n w := by
  induction n with
  | zero => rfl
  | succ n ih => rw [msbBits, msbBits, h n (by omega), ih fun i hi => h i (by omega)]

theorem msbBits_msbValue (bs : List Bool) : msbBits bs.length (msbValue bs) = bs := by
  induction bs with
  | nil => rfl
  | cons b bs ih =>
    have ht := Nat.testBit_two_pow_mul_add b.toNat (msbValue_lt bs)
    rw [msbValue_cons, List.length_cons, msbBits, msbBits_congr fun i hi => (ht i).trans (if_pos hi), ih, ht]
    cases b <;> simp

theorem lsbBits_lsbValue (bs : List Bool) : lsbBits bs.length (lsbValue bs) = bs := by
  induction bs with
  | nil => rfl
  | cons b bs ih =>
    have h : (b.toNat + 2 * lsbValue bs) / 2 = lsbValue bs := by have := b.toNat_lt; omega
    rw [List.length_cons, lsbValue, lsbBits, h, ih]
    cases b <;> simp

/-! ### Fed runs -/

/-- From `s` the listed decisions are taken, and what is left feeds `k` more. -/
structure Reaches (ds : List Decision) (k : Nat) (s t : State) : Prop where
  run : decides ds s = some t
  fed : feeds k t = true
  cfg : t.cfg = s.cfg

theorem Reaches.append {as bs : List Decision} {j k : Nat} {s t u : State} (h1 : Reaches as j s t)
    (h2 : Reaches bs k t u) : Reaches (as ++ bs) k s u where
  run := by rw [decides_append, h1.run]; exact h2.run
  fed := h2.fed
  cfg := h2.cfg.trans h1.cfg

theorem reaches_slot {k : Nat} {s : State} (h : feeds (k + 1) s = true) {T : Table} {i : Nat}
    (hi : i < tableSize s.cfg T) : ∃ b t, Reaches [.slot T i b] k s t := by
  obtain ⟨b, t, h1, h2, h3⟩ := rcBit_fed h hi
  exact ⟨b, t, decides_slot.mpr ⟨t, h1, rfl⟩, h2, h3⟩

theorem reaches_directs (n : Nat) {k : Nat} {s : State} (h : feeds (k + n) s = true) :
    ∃ (bs : List Bool) (t : State), bs.length = n ∧ Reaches (bs.map .direct) k s t := by
  induction n generalizing s with
  | zero => exact ⟨[], s, rfl, rfl, h, rfl⟩
  | succ n ih =>
    obtain ⟨b, u, h1, h2, h3⟩ := rcDirectBit_fed h
    obtain ⟨bs, t, rfl, h4⟩ := ih h2
    exact ⟨b :: bs, t, rfl, .append (as := [_]) ⟨decides_direct.mpr ⟨u, h1, rfl⟩, h2, h3⟩ h4⟩

/-- A node with `n + 1` levels below it, in a tree of `size` leaves, is a slot of the tree, and so are its children
with `n` levels below them (41_bittree_length.md R143). -/
theorem tree_node_fits {m n size : Nat} (b : Bool) (h : (m + 1) * 2 ^ (n + 1) ≤ 2 * size) :
    m < size ∧ (2 * m + b.toNat + 1) * 2 ^ n ≤ 2 * size := by
  rw [pow_succ, ← mul_assoc, mul_right_comm] at h
  have hchild : (2 * m + b.toNat + 1) * 2 ^ n ≤ (m + 1) * 2 * 2 ^ n :=
    Nat.mul_le_mul_right _ (by have := b.toNat_lt; omega)
  have hnode : (m + 1) * 2 ≤ (m + 1) * 2 * 2 ^ n := Nat.le_mul_of_pos_right _ (by positivity)
  omega

/-- A walk of `n` levels from node `m` stays among the first `size` slots from `base`. -/
theorem reaches_treePath {T : Table} {base size : Nat} (n : Nat) {k m : Nat} {s : State}
    (h : feeds (k + n) s = true) (hm : (m + 1) * 2 ^ n ≤ 2 * size) (hT : base + size ≤ tableSize s.cfg T) :
    ∃ bs t, bs.length = n ∧ Reaches (treePath T base m bs) k s t := by
  induction n generalizing m s with
  | zero => exact ⟨[], s, rfl, rfl, h, rfl⟩
  | succ n ih =>
    have hnode := (tree_node_fits false hm).1
    obtain ⟨b, u, h1⟩ := reaches_slot h (T := T) (i := base + m) (by omega)
    obtain ⟨bs, t, rfl, h2⟩ := ih h1.fed (tree_node_fits b hm).2 (by rwa [h1.cfg])
    exact ⟨b :: bs, t, rfl, h1.append h2⟩

theorem matchedPath_cons (base : Nat) (same x b : Bool) (m : Nat) (r : List (Bool × Bool)) :
    matchedPath base same m ((x, b) :: r) =
      [.slot .lit (base + (if same then 0x100 * (1 + x.toNat) else 0) + m) b] ++
        matchedPath base (same && b == x) (2 * m + b.toNat) r := by
  cases same <;> rfl

theorem reaches_matchedPath {base : Nat} (xs : List Bool) {same : Bool} {k m : Nat} {s : State}
    (h : feeds (k + xs.length) s = true) (hm : (m + 1) * 2 ^ xs.length ≤ 2 * 0x100)
    (hT : base + 0x300 ≤ tableSize s.cfg .lit) :
    ∃ bs t, bs.length = xs.length ∧ Reaches (matchedPath base same m (xs.zip bs)) k s t := by
  induction xs generalizing same m s with
  | nil => exact ⟨[], s, rfl, by cases same <;> rfl, h, rfl⟩
  | cons x xs ih =>
    have hnode := (tree_node_fits false hm).1
    have hsub : (if same then 0x100 * (1 + x.toNat) else 0) ≤ 0x200 := by
      have := x.toNat_lt
      split <;> omega
    obtain ⟨b, u, h1⟩ := reaches_slot h (T := .lit)
      (i := base + (if same then 0x100 * (1 + x.toNat) else 0) + m) (by omega)
    obtain ⟨bs, t, hbs, h2⟩ := ih h1.fed (tree_node_fits b hm).2 (by rwa [h1.cfg])
    refine ⟨b :: bs, t, by simp [hbs], ?_⟩
    rw [List.zip_cons_cons, matchedPath_cons]
    exact h1.append h2

/-! ### Fed, some value is decoded -/

section
variable {T : Table} {base n k : Nat} {s : State}

theorem reaches_msb_treePath (h : feeds (k + n) s = true) (hT : base + 2 ^ n ≤ tableSize s.cfg T) :
    ∃ v t, v < 2 ^ n ∧ Reaches (treePath T base 1 (msbBits n v)) k s t := by
  obtain ⟨bs, t, rfl, hr⟩ := reaches_treePath n h le_rfl hT
  exact ⟨msbValue bs, t, msbValue_lt bs, by rwa [msbBits_msbValue]⟩

theorem reaches_lsb_treePath (h : feeds (k + n) s = true) (hT : base + 2 ^ n ≤ tableSize s.cfg T) :
    ∃ v t, v < 2 ^ n ∧ Reaches (treePath T base 1 (lsbBits n v)) k s t := by
  obtain ⟨bs, t, rfl, hr⟩ := reaches_treePath n h le_rfl hT
  exact ⟨lsbValue bs, t, lsbValue_lt bs, by rwa [lsbBits_lsbValue]⟩

theorem reaches_msb_directs (h : feeds (k + n) s = true) :
    ∃ v t, v < 2 ^ n ∧ Reaches ((msbBits n v).map .direct) k s t := by
  obtain ⟨bs, t, rfl, hr⟩ := reaches_directs n h
  exact ⟨msbValue bs, t, msbValue_lt bs, by rwa [msbBits_msbValue]⟩

end

/-! ### Lengths -/

theorem lenPath_low (l : LenInst) (ps : BitVec 4) {v : Nat} (h : v < 8) :
    lenPath l ps v = .slot (.choice l) 0 false :: treePath (.low l ps) 0 1 (msbBits 3 v) := by
  simp [lenPath, h]

theorem lenPath_mid (l : LenInst) (ps : BitVec 4) {v : Nat} (h : v < 8) :
    lenPath l ps (8 + v) = .slot (.choice l) 0 true :: .slot (.choice2 l) 0 false ::
      treePath (.mid l ps) 0 1 (msbBits 3 v) := by
  simp [lenPath, show 8 + v < 16 by omega]

theorem lenPath_high (l : LenInst) (ps : BitVec 4) (v : Nat) :
    lenPath l ps (16 + v) = .slot (.choice l) 0 true :: .slot (.choice2 l) 0 true ::
      treePath (.high l) 0 1 (msbBits 8 v) := by
  simp [lenPath, show ¬ 16 + v < 8 by omega]

theorem reaches_lenPath (l : LenInst) (ps : BitVec 4) {s : State} (h : feeds 10 s = true) :
    ∃ n t, n ≤ 271 ∧ Reaches (lenPath l ps n) 0 s t := by
  obtain ⟨c, s1, r1⟩ := reaches_slot (k := 9) h (T := .choice l) (i := 0) Nat.one_pos
  cases c with
  | false =>
    obtain ⟨v, t, hv, r2⟩ := reaches_msb_treePath (T := .low l ps) (base := 0) (n := 3)
      (feeds_mono r1.fed (by decide : 0 + 3 ≤ 9)) (Nat.le_refl 8)
    exact ⟨v, t, by omega, by rw [lenPath_low l ps hv]; exact r1.append r2⟩
  | true =>
    obtain ⟨c2, s2, r2⟩ := reaches_slot (k := 8) r1.fed (T := .choice2 l) (i := 0) Nat.one_pos
    cases c2 with
    | false =>
      obtain ⟨v, t, hv, r3⟩ := reaches_msb_treePath (T := .mid l ps) (base := 0) (n := 3)
        (feeds_mono r2.fed (by decide : 0 + 3 ≤ 8)) (Nat.le_refl 8)
      exact ⟨8 + v, t, by omega, by rw [lenPath_mid l ps hv]; exact (r1.append r2).append r3⟩
    | true =>
      obtain ⟨v, t, hv, r3⟩ := reaches_msb_treePath (T := .high l) (base := 0) (n := 8)
        (feeds_mono r2.fed (by decide : 0 + 8 ≤ 8)) (Nat.le_refl 256)
      exact ⟨16 + v, t, by omega, by rw [lenPath_high]; exact (r1.append r2).append r3⟩

/-! ### Literals -/

/-- A sub-table of literals fits the table of its properties (10_state.md R24). -/
theorem litTable_le_tableSize {cfg : Cfg} {ls : Nat} (h : ls < 2 ^ (cfg.lc.toNat + cfg.lp.toNat)) :
    0x300 * ls + 0x300 ≤ tableSize cfg .lit := Nat.mul_le_mul_left 0x300 h

section
variable {s : State} {ls : Nat} (h : feeds 8 s = true) (hls : ls < 2 ^ (s.cfg.lc.toNat + s.cfg.lp.toNat))
include h hls

theorem decides_litPath_fed : ∃ b t, decides (litPath ls b) s = some t := by
  have hT : 0x300 * ls + 2 ^ 8 ≤ tableSize s.cfg .lit := le_trans (by omega) (litTable_le_tableSize hls)
  obtain ⟨v, t, hv, hr, -⟩ := reaches_msb_treePath (k := 0) h hT
  exact ⟨BitVec.ofNat 8 v, t, by rwa [litPath, BitVec.toNat_ofNat, Nat.mod_eq_of_lt hv]⟩

theorem decides_litmPath_fed (mb : Byte) : ∃ b t, decides (litmPath ls mb b) s = some t := by
  obtain ⟨bs, t, hbs, hr, -⟩ := reaches_matchedPath (msbBits 8 mb.toNat) (same := true) (k := 0) (m := 1)
    h (by simp) (litTable_le_tableSize hls)
  rw [length_msbBits] at hbs
  have hv : (BitVec.ofNat 8 (msbValue bs)).toNat = msbValue bs := Nat.mod_eq_of_lt (hbs ▸ msbValue_lt bs)
  have hb : msbBits 8 (msbValue bs) = bs := hbs ▸ msbBits_msbValue bs
  exact ⟨BitVec.ofNat 8 (msbValue bs), t, by rwa [litmPath, hv, hb]⟩

end

/-! ### Distances -/

/-- The slot of a distance whose leading bit is at `k + 1`, with `r` the bit below it. -/
theorem slotOf_eq {k r v : Nat} (hk : 1 ≤ k) (hr : r < 2) (hv : v < 2 ^ k) :
    slotOf ((2 + r) * 2 ^ k + v) = 2 * (k + 1) + r := by
  have hp : 2 ≤ 2 ^ k := Nat.pow_le_pow_right (n := 2) (by decide) hk
  have hlo : 2 * 2 ^ k ≤ (2 + r) * 2 ^ k := Nat.mul_le_mul_right _ (by omega)
  have hhi : (2 + r) * 2 ^ k ≤ 3 * 2 ^ k := Nat.mul_le_mul_right _ (by omega)
  have hlog : Nat.log2 ((2 + r) * 2 ^ k + v) = k + 1 :=
    (Nat.log2_eq_iff (by omega)).mpr ⟨by rw [pow_succ]; omega, by rw [pow_succ, pow_succ]; omega⟩
  have hq : ((2 + r) * 2 ^ k + v) / 2 ^ k = 2 + r := by
    rw [Nat.mul_comm, Nat.mul_add_div (by omega), Nat.div_eq_of_lt hv, Nat.add_zero]
  rw [slotOf, if_neg (by omega), hlog, Nat.add_sub_cancel, hq]
  omega

theorem slotDirectBits_le {slot : Nat} (h : slot < 64) : slotDirectBits slot ≤ 30 := by
  unfold slotDirectBits
  omega

/-- The direct bits of a distance, and the bits above them, leave it below 2^32 (R165). -/
theorem slot_distance_lt {slot off : Nat} (h : slot < 64) (ho : off < 2 ^ slotDirectBits slot) :
    (2 + slot % 2) * 2 ^ slotDirectBits slot + off < 2 ^ 32 := by
  have hp := Nat.pow_le_pow_right (n := 2) (by decide) (slotDirectBits_le h)
  have hb : (2 + slot % 2) * 2 ^ slotDirectBits slot ≤ 3 * 2 ^ 30 := Nat.mul_le_mul (by omega) hp
  omega

theorem slotBase_toNat {slot : Nat} (h : slot < 64) :
    (slotBase slot).toNat = (2 + slot % 2) * 2 ^ slotDirectBits slot := by
  have hlt := slot_distance_lt h (off := 0) (by positivity)
  rw [slotBase, BitVec.toNat_shiftLeft, BitVec.toNat_ofNat, Nat.shiftLeft_eq,
    Nat.mod_eq_of_lt (a := 2 + slot % 2) (by omega), Nat.mod_eq_of_lt (by omega)]

/-- Every position slot and every value of its direct bits belong to a distance (R165). -/
theorem exists_distPath_eq {slot off : Nat} (n : Nat) (h4 : 4 ≤ slot) (h64 : slot < 64)
    (ho : off < 2 ^ slotDirectBits slot) :
    ∃ d, distPath n d = treePath (.posSlot (BitVec.ofNat 2 (min n 3))) 0 1 (msbBits 6 slot) ++
      if slot < 14 then treePath .posDec ((slotBase slot).toNat - slot) 1 (lsbBits (slotDirectBits slot) off)
      else (msbBits (slotDirectBits slot - 4) (off / 16)).map .direct ++
        treePath .align 0 1 (lsbBits 4 (off % 16)) := by
  have hbase := slotBase_toNat h64
  have hk : slotDirectBits slot = slot / 2 - 1 := rfl
  have hslot : slotOf ((slotBase slot).toNat + off) = slot := by
    rw [hbase, slotOf_eq (by omega) (by omega) ho, hk]
    omega
  have hd : (BitVec.ofNat 32 ((slotBase slot).toNat + off)).toNat = (slotBase slot).toNat + off :=
    Nat.mod_eq_of_lt (hbase ▸ slot_distance_lt h64 ho)
  refine ⟨BitVec.ofNat 32 ((slotBase slot).toNat + off), ?_⟩
  simp only [distPath, hd, hslot, Nat.add_sub_cancel_left, Nat.not_lt.mpr h4, if_false]

/-- The distances below 4 are their position slots. -/
theorem distPath_of_lt_four {v : Nat} (n : Nat) (h : v < 4) : distPath n (BitVec.ofNat 32 v) =
    treePath (.posSlot (BitVec.ofNat 2 (min n 3))) 0 1 (msbBits 6 v) := by
  have hd : (BitVec.ofNat 32 v).toNat = v := Nat.mod_eq_of_lt (by omega)
  simp [distPath, hd, slotOf, h]

/-- The slots of `posDec` that a position slot uses exist (10_state.md R23). -/
theorem posDec_fits {slot : Nat} (cfg : Cfg) (h14 : slot < 14) :
    (slotBase slot).toNat - slot + 2 ^ slotDirectBits slot ≤ tableSize cfg .posDec := by
  show _ ≤ 115
  interval_cases slot <;> decide

theorem decides_distPath_fed (n : Nat) {s : State} (h : feeds 36 s = true) :
    ∃ d t, decides (distPath n d) s = some t := by
  obtain ⟨slot, u, h64, r1⟩ := reaches_msb_treePath (T := .posSlot (BitVec.ofNat 2 (min n 3))) (base := 0)
    (n := 6) (k := 30) h (Nat.le_refl 64)
  by_cases h4 : slot < 4
  · exact ⟨_, u, by rw [distPath_of_lt_four n h4]; exact r1.run⟩
  have hk : slotDirectBits slot = slot / 2 - 1 := rfl
  by_cases h14 : slot < 14
  · obtain ⟨off, t, ho, r2⟩ := reaches_lsb_treePath (T := .posDec) (n := slotDirectBits slot) (k := 0)
      (feeds_mono r1.fed (by omega)) (posDec_fits u.cfg h14)
    obtain ⟨d, hd⟩ := exists_distPath_eq n (Nat.not_lt.mp h4) h64 ho
    rw [if_pos h14] at hd
    exact ⟨d, t, by rw [hd]; exact (r1.append r2).run⟩
  · obtain ⟨hi, v, hhi, r2⟩ := reaches_msb_directs (n := slotDirectBits slot - 4) (k := 4)
      (feeds_mono r1.fed (by omega))
    obtain ⟨lo, t, hlo, r3⟩ := reaches_lsb_treePath (T := .align) (base := 0) (n := 4) (k := 0)
      r2.fed (Nat.le_refl 16)
    have ho : 16 * hi + lo < 2 ^ slotDirectBits slot := by
      rw [show slotDirectBits slot = slotDirectBits slot - 4 + 4 by omega, pow_add]
      omega
    obtain ⟨d, hd⟩ := exists_distPath_eq n (Nat.not_lt.mp h4) h64 ho
    rw [if_neg h14, show (16 * hi + lo) / 16 = hi by omega, show (16 * hi + lo) % 16 = lo by omega] at hd
    exact ⟨d, t, by rw [hd]; exact (r1.append (r2.append r3)).run⟩

end Sys2Proof.Machine
end

section
/-! PROOFS. The obligations on the range decoder. (In a namespace of their own: the model's operations have the
names of these statements.) -/
namespace Sys2Proof.RangeDecoder
open Machine

/-- Settles O21: RC.BIT is `rcDecide`, which writes one slot (`probAt_probPut`) and `rc` (`rcAfter_eq`), then
RC.NORM in its three cases. -/
theorem rcBit : Obligations.RcBit := by
  intro T i s hi p bound bit range code
  have hbound : rcBound s.rc.range (probAt s T i) = bound := rcBound_eq _ _
  have hbit : rcBitOf s.rc (probAt s T i) = bit := by rw [rcBitOf_eq, hbound]
  have hrc : rcAfter s.rc (probAt s T i) = ⟨range, code, s.rc.corrupted⟩ := by rw [rcAfter_eq, hbit, hbound]
  refine ⟨(rcDecide T i s).prob, ?_⟩
  intro u
  have hu : rcDecide T i s = u := by rw [rcDecide_eq, hrc]
  have hslot {T' j} (hj : j < tableSize s.cfg T') : probAt u T' j =
      if T' = T ∧ j = i then probAfter s.rc (probAt s T i) else probAt s T' j := probAt_probPut _ hi hj
  rw [exec_rcBit, rcBit_eq_thenNorm hi, hbit, hu]
  refine ⟨?_, fun T' j hj hne => ?_, fun hr => settleRet_thenNorm_of_top_le (u := u) hr,
    fun b rest hr hs hl => settleRet_thenNorm_of_byte (u := u) hr hs hl,
    fun t hr hf => settleRet_thenNorm_of_pullFails (u := u) hr hf⟩
  · rw [hslot hi, if_pos ⟨rfl, rfl⟩, probAfter_toNat, hbit]
  · rw [hslot hj, if_neg (by simpa using hne)]

/-- Settles O22: one iteration is `directAfter`, then RC.NORM in its three cases; `n` of them are followed along
their decisions. -/
theorem rcDirect : Obligations.RcDirect := by
  intro s
  refine ⟨?_, fun n => ⟨?_, fun h => ?_, ?_⟩⟩
  · intro range bit code corrupted
    let u : State := { s with rc := { range := range, code := code, corrupted := corrupted } }
    have hu : s.withRc (directAfter s.rc) = u :=
      congrArg (fun c => s.withRc { range := range, code := code, corrupted := c }) (directCorrupted_eq _ _ _)
    have hbit : directBitOf s.rc = bit := rfl
    rw [exec_rcDirect, rcDirect_one, hu, hbit]
    exact ⟨fun hr => settleRet_thenNorm_of_top_le (u := u) hr,
      fun hr b rest hs hl => settleRet_thenNorm_of_byte (u := u) hr hs hl,
      fun t hr hf => settleRet_thenNorm_of_pullFails (u := u) hr hf⟩
  · rintro bs t rfl h
    rw [exec_rcDirect, rcDirect_path bs h]
    rfl
  · obtain ⟨bs, t, hbs, hr, -⟩ := reaches_directs n (k := 0) (by rwa [Nat.zero_add])
    exact ⟨bs, t, hbs, hr⟩
  · rintro bs k t rfl h
    rw [exec_rcDirect, rcDirect_fails bs h]
    rfl

/-- Settles O24: the frame of a run by `decides_frame`, the numbers by the lengths of the paths. -/
theorem decisionsFrame : Obligations.DecisionsFrame := by
  constructor
  · intro ds s t h
    obtain ⟨hf, hkeys, bs, hlen, hb⟩ := decides_frame h
    have ⟨hsrc, _, hroom, _⟩ := hb
    exact ⟨hkeys, bs, hlen, hsrc, hroom, eq_of_tookBytes hf hb⟩
  · intro s0 ps l ls n d mb b _
    have hlen := length_lenPath_le l ps n
    have hdist := length_distPath_le n d
    simp only [prefixPath, List.length_append, List.length_cons, List.length_nil, length_litPath,
      length_litmPath, true_and]
    omega

/-- Settles O29: each decoder's fed run, from RC.BIT and RC.DIRECT that complete when fed. -/
theorem decodersComplete : Obligations.DecodersComplete := by
  refine fun s => ⟨fun T base n hT h => ?_, fun l ps h => ?_, fun ls hls h => ?_, fun n h => ?_⟩
  · obtain ⟨bs, t, hbs, hr, -⟩ := reaches_treePath n (k := 0) (m := 1) (by rwa [Nat.zero_add]) le_rfl hT
    exact ⟨bs, t, hbs, hr⟩
  · obtain ⟨n, t, hn, hr, -⟩ := reaches_lenPath l ps h
    exact ⟨n, t, hn, hr⟩
  · exact ⟨decides_litPath_fed h hls, decides_litmPath_fed h hls⟩
  · exact decides_distPath_fed n h

/-- Settles O19: the flag of `rcLoad` is the two tests of R120. -/
theorem rcInit : Obligations.RcInit := by
  intro b0 code s
  rw [← initCorrupted_eq]
  rfl

/-- Settles O20: RC.NORM in its three cases. -/
theorem rcNorm : Obligations.RcNorm := by
  intro s
  rw [exec_rcNorm]
  refine ⟨fun hr => ?_, fun b rest hr hs hl => ?_, fun t hr hf => ?_⟩
  · rw [rcNorm_of_top_le hr, settle_ok]
  · rw [rcNorm_of_byte hr hs hl, settle_ok]
    rfl
  · rw [rcNorm_of_pullFails hr hf, settle_raised]

/-- Settles O23: each test is a completed rule that leaves the state and answers its flag. -/
theorem testsOnlyRead : Obligations.TestsOnlyRead := by
  intro s dist
  refine ⟨?_, rfl, ?_, rfl⟩
  · rw [← beq_eq_decide]
    rfl
  · rw [← beq_eq_decide]
    rfl

end Sys2Proof.RangeDecoder
end

section
/-! SUPPORT. Trees and lengths along their decisions, and which slots a reset writes (41_bittree_length.md R140 to
R146; 43_state_machine.md R202). -/
namespace Sys2Proof.Machine

/-! ### The instructions -/

theorem exec_btDec (T : Table) (base n : Nat) (s : State) :
    exec (.btDec T base n) s = settleRet s .num (btDec T base n s) := rfl

theorem exec_btRdec (T : Table) (base n : Nat) (s : State) :
    exec (.btRdec T base n) s = settleRet s .num (btRdec T base n s) := rfl

theorem exec_lenDec (l : LenInst) (ps : BitVec 4) (s : State) :
    exec (.lenDec l ps) s = settleRet s .num (lenDec l ps s) := rfl

theorem exec_btReset (T : Table) (s : State) : exec (.btReset T) s = .next (tableReset T s) := rfl

theorem exec_lenReset (l : LenInst) (s : State) : exec (.lenReset l) s = .next (lenReset l s) := rfl

theorem exec_smReset (s : State) : exec .smReset s = .next (smReset s) := rfl

/-! ### Trees -/

theorem msbValue_msbBits (n v : Nat) : msbValue (msbBits n v) = v % 2 ^ n := by
  induction n with
  | zero => rw [pow_zero, Nat.mod_one]; rfl
  | succ n ih =>
    rw [msbBits, msbValue_cons, length_msbBits, ih, Nat.toNat_testBit, Nat.mod_pow_succ, Nat.add_comm]

theorem msbValue_msbBits_of_lt {n v : Nat} (h : v < 2 ^ n) : msbValue (msbBits n v) = v := by
  rw [msbValue_msbBits, Nat.mod_eq_of_lt h]

section
variable {T : Table} {base : Nat} {s t : State}

theorem btDec_path {bs : List Bool} (h : decides (treePath T base 1 bs) s = some t) :
    btDec T base bs.length s = .ok (msbValue bs) t := by
  rw [btDec, btWalk_path bs h, Res.bind_ok, Nat.one_mul, Nat.add_sub_cancel_left]

theorem btRdec_path {bs : List Bool} (h : decides (treePath T base 1 bs) s = some t) :
    btRdec T base bs.length s = .ok (lsbValue bs) t := by
  rw [btRdec, btRwalk_path bs h, pow_zero, Nat.one_mul, Nat.zero_add]

theorem btDec_msbBits {n v : Nat} (hv : v < 2 ^ n) (h : decides (treePath T base 1 (msbBits n v)) s = some t) :
    btDec T base n s = .ok v t := by
  have hd := btDec_path h
  rwa [length_msbBits, msbValue_msbBits_of_lt hv] at hd

end

/-! ### Lengths -/

/-- LEN.DEC in each of the three ranges of the length index (R144). -/
theorem lenDec_path {l : LenInst} {ps : BitVec 4} {n : Nat} {s t : State} (hn : n ≤ 271)
    (h : decides (lenPath l ps n) s = some t) : lenDec l ps s = .ok n t := by
  by_cases h8 : n < 8
  · rw [lenPath_low l ps h8] at h
    obtain ⟨u, hc, htree⟩ := decides_slot.mp h
    simp [lenDec, hc, btDec_msbBits h8 htree]
  by_cases h16 : n < 16
  · obtain ⟨v, rfl⟩ := Nat.exists_eq_add_of_le (Nat.not_lt.mp h8)
    have hv : v < 8 := by omega
    rw [lenPath_mid l ps hv] at h
    obtain ⟨u, hc, h⟩ := decides_slot.mp h
    obtain ⟨w, hc2, htree⟩ := decides_slot.mp h
    simp [lenDec, hc, hc2, btDec_msbBits hv htree]
  · obtain ⟨v, rfl⟩ := Nat.exists_eq_add_of_le (Nat.not_lt.mp h16)
    have hv : v < 2 ^ 8 := by omega
    rw [lenPath_high l ps v] at h
    obtain ⟨u, hc, h⟩ := decides_slot.mp h
    obtain ⟨w, hc2, htree⟩ := decides_slot.mp h
    simp [lenDec, hc, hc2, btDec_msbBits hv htree]

/-! ### Resets -/

/-- BT.RESET writes the slots of its table and no slot of another (R142). -/
theorem probAt_tableReset {s : State} {T T' : Table} {i : Nat} (hi : i < tableSize s.cfg T') :
    probAt (tableReset T s) T' i = if T' = T then 1024#11 else probAt s T' i := by
  simp only [probAt, tableReset, State.withProb_prob, slotGet_cellDrop]
  by_cases hT : T' = T
  · subst hT
    rw [if_pos (by omega), if_pos rfl]
    rfl
  · rw [if_neg hT, if_neg]
    rintro ⟨hlo, hhi⟩
    obtain ⟨j, hj⟩ := Nat.exists_eq_add_of_le hlo
    exact slotKey_ne hT hi (show j < tableSize s.cfg T by omega) hj

/-- `T` is a table of the length instance `l` (41_bittree_length.md R146). -/
abbrev IsLenTable (l : LenInst) (T : Table) : Prop :=
  T ∈ [.choice l, .choice2 l, .high l] ∨ ∃ ps, T = .low l ps ∨ T = .mid l ps

/-- The tables of a length instance stand among its 514 slots (20_memory.md R54). -/
theorem IsLenTable.key_mem {l : LenInst} {T : Table} {cfg : Cfg} {i : Nat} (h : IsLenTable l T)
    (hi : i < tableSize cfg T) : lenBase l ≤ tableBase T + i ∧ tableBase T + i < lenBase l + 514 := by
  simp only [IsLenTable, List.mem_cons, List.not_mem_nil, or_false] at h
  obtain (rfl | rfl | rfl) | ⟨ps, rfl | rfl⟩ := h <;>
    simp only [tableBase, tableSize, Table.maxSize] at hi ⊢ <;> omega

/-- A slot between the tables before the length instances and the literal table is of a length instance. -/
theorem isLenTable_of_key_mem {T : Table} {cfg : Cfg} {i : Nat} (hi : i < tableSize cfg T)
    (hlo : 819 ≤ tableBase T + i) (hhi : tableBase T + i < 1847) : ∃ l, IsLenTable l T := by
  cases T with
  | choice l | choice2 l | high l => exact ⟨l, .inl (by simp)⟩
  | low l ps => exact ⟨l, .inr ⟨ps, .inl rfl⟩⟩
  | mid l ps => exact ⟨l, .inr ⟨ps, .inr rfl⟩⟩
  | _ =>
    simp only [tableBase, tableSize, Table.maxSize] at hi hlo hhi
    omega

theorem key_mem_iff_isLenTable {l : LenInst} {T : Table} {cfg : Cfg} {i : Nat} (hi : i < tableSize cfg T) :
    (lenBase l ≤ tableBase T + i ∧ tableBase T + i < lenBase l + 514) ↔ IsLenTable l T := by
  refine ⟨fun ⟨hlo, hhi⟩ => ?_, fun h => h.key_mem hi⟩
  have hl : 819 ≤ lenBase l ∧ lenBase l + 514 ≤ 1847 := by cases l <;> decide
  obtain ⟨l', h'⟩ := isLenTable_of_key_mem hi (by omega) (by omega)
  obtain ⟨hlo', hhi'⟩ := h'.key_mem hi
  have hll : l' = l := by cases l <;> cases l' <;> simp only [lenBase] at * <;> omega
  exact hll ▸ h'

/-- LEN.RESET writes the slots of its instance and no others (R145). -/
theorem probAt_lenReset {s : State} {l : LenInst} {T : Table} {i : Nat} (hi : i < tableSize s.cfg T) :
    probAt (lenReset l s) T i = if IsLenTable l T then 1024#11 else probAt s T i := by
  simp only [probAt, lenReset, State.withProb_prob, slotGet_cellDrop, key_mem_iff_isLenTable hi]
  rfl

/-- SM.RESET leaves 1024 in every slot (43_state_machine.md R202). -/
theorem probAt_smReset (s : State) (T : Table) (i : Nat) : probAt (smReset s) T i = 1024#11 := rfl

end Sys2Proof.Machine
end

section
/-! PROOFS. The obligations on trees, lengths and the resets of slots. (In a namespace of their own: the model's
operations have the names of these statements.) -/
namespace Sys2Proof.BitTree
open Machine

/-- Settles O25: each walk is followed along its path. -/
theorem treeWalks : Obligations.TreeWalks := by
  intro T base bs s t h
  rw [exec_btDec, exec_btRdec, btDec_path h, btRdec_path h]
  exact ⟨rfl, rfl⟩

/-- Settles O26: the three ranges of the length index are the cases of `lenDec_path`. -/
theorem lenDec : Obligations.LenDec := by
  intro l ps n s t hn h
  rw [exec_lenDec, lenDec_path hn h]
  rfl

/-- Settles O30: BT.RESET and LEN.RESET drop a range of keys, SM.RESET drops all; whose keys are in the range
is `slotKey_ne` and `key_mem_iff_isLenTable`. -/
theorem probabilityResets : Obligations.ProbabilityResets := fun s =>
  ⟨fun T => ⟨tableReset T s, exec_btReset T s, rfl, fun _ hi => (probAt_tableReset hi).trans (if_pos rfl),
      fun _ _ hT hi => (probAt_tableReset hi).trans (if_neg hT)⟩,
    fun l => ⟨lenReset l s, exec_lenReset l s, rfl, fun _ _ hi => probAt_lenReset hi⟩,
    smReset s, exec_smReset s, rfl, probAt_smReset s⟩

end Sys2Proof.BitTree
end

section
/-! SUPPORT. Literals and distances along their decisions (42_literal_distance.md R162 to R169). -/
namespace Sys2Proof.Machine

/-! ### The instructions -/

theorem exec_litDec (ls : Nat) (s : State) : exec (.litDec ls) s = settleRet s .byte (litDec ls s) := rfl

theorem exec_litDecm (ls : Nat) (mb : Byte) (s : State) :
    exec (.litDecm ls mb) s = settleRet s .byte (litDecm ls mb s) := rfl

theorem exec_distDec (n : Nat) (s : State) : exec (.distDec n) s = settleRet s .word (distDec n s) := rfl

/-! ### Literals -/

/-- The leaf of a byte in an 8-bit tree names the byte (R162). -/
theorem ofNat_leaf (b : Byte) : BitVec.ofNat 8 (1 * 2 ^ 8 + b.toNat - 0x100) = b := by
  have hleaf : 1 * 2 ^ 8 + b.toNat - 0x100 = b.toNat := by omega
  rw [hleaf, BitVec.ofNat_toNat, BitVec.setWidth_eq]

/-- LIT.DEC along the decisions of a byte (R162). -/
theorem litDec_path {ls : Nat} {b : Byte} {s t : State} (h : decides (litPath ls b) s = some t) :
    litDec ls s = .ok b t := by
  have hw := btWalk_path _ h
  rw [length_msbBits, msbValue_msbBits_of_lt b.isLt] at hw
  rw [litDec, litTable, Config.litSubtable, hw, Res.bind_ok, ofNat_leaf]

/-- One level of LIT.DECM's two loops: while `same`, bit `n` of the match byte chooses the half of the
sub-table (R163). -/
theorem litMatched_succ (base : Nat) (mb : Byte) (n : Nat) (same : Bool) (m : Nat) (s : State) :
    litMatched base mb (n + 1) same m s =
      (rcBit .lit (base + (if same then 0x100 * (1 + (mb.toNat.testBit n).toNat) else 0) + m) s).bind fun b s =>
        litMatched base mb n (same && b == mb.toNat.testBit n) (2 * m + b.toNat) s := by
  cases same with
  | false => rfl
  | true => rw [litMatched, Nat.mul_comm]; rfl

/-- LIT.DECM's loops along their decisions end at the node the bits spell, whichever slots the match byte
chose (R163). -/
theorem litMatched_path {base : Nat} {mb : Byte} (bs : List Bool) {same : Bool} {m : Nat} {s t : State}
    (h : decides (matchedPath base same m ((msbBits bs.length mb.toNat).zip bs)) s = some t) :
    litMatched base mb bs.length same m s = .ok (m * 2 ^ bs.length + msbValue bs) t := by
  rw [← foldl_bits]
  induction bs generalizing same m s with
  | nil => cases same <;> cases h <;> rfl
  | cons b bs ih =>
    rw [List.length_cons, msbBits, List.zip_cons_cons, matchedPath_cons] at h
    obtain ⟨u, hbit, hrest⟩ := decides_slot.mp h
    rw [List.length_cons, litMatched_succ, hbit, Res.bind_ok, List.foldl_cons, ih hrest]

/-- LIT.DECM along the decisions of a byte (R163). -/
theorem litDecm_path {ls : Nat} {mb b : Byte} {s t : State} (h : decides (litmPath ls mb b) s = some t) :
    litDecm ls mb s = .ok b t := by
  have hw := litMatched_path (mb := mb) (msbBits 8 b.toNat) (by rwa [length_msbBits])
  rw [length_msbBits, msbValue_msbBits_of_lt b.isLt] at hw
  rw [litDecm, litTable, Config.litSubtable, hw, Res.bind_ok, ofNat_leaf]

/-! ### Distances -/

theorem lsbValue_lsbBits (n v : Nat) : lsbValue (lsbBits n v) = v % 2 ^ n := by
  induction n generalizing v with
  | zero => rw [pow_zero, Nat.mod_one]; rfl
  | succ n ih => rw [lsbBits, lsbValue, ih, Nat.toNat_testBit, pow_zero, Nat.div_one, pow_succ', Nat.mod_mul]

theorem btRdec_lsbBits {T : Table} {base n v : Nat} {s t : State} (hv : v < 2 ^ n)
    (h : decides (treePath T base 1 (lsbBits n v)) s = some t) : btRdec T base n s = .ok v t := by
  have hd := btRdec_path h
  rwa [length_lsbBits, lsbValue_lsbBits, Nat.mod_eq_of_lt hv] at hd

theorem rcDirect_msbBits {n v : Nat} {s t : State} (hv : v < 2 ^ n)
    (h : decides ((msbBits n v).map .direct) s = some t) : rcDirect n 0#32 s = .ok (BitVec.ofNat 32 v) t := by
  have hd := rcDirect_path (v := 0) _ h
  rwa [length_msbBits, ← msbValue, msbValue_msbBits_of_lt hv] at hd

/-- `lenState` is the minimum R166 gives. -/
theorem lenState_eq (n : Nat) : lenState n = BitVec.ofNat 2 (min n 3) := by
  unfold lenState
  split
  · rw [Nat.min_eq_left (by omega)]
  · rw [Nat.min_eq_right (by omega)]

section
variable {slot off : Nat} {s t : State}

/-- A slot below 4 is the distance (R167). -/
theorem distLow_of_lt_four (h4 : slot < 4) : distLow slot s = .ok (BitVec.ofNat 32 slot) s := by
  simp only [distLow, h4, if_true]

/-- The direct bits of the slots 4 to 13 are read from `posDec` (R168). -/
theorem distLow_posDec (h4 : ¬ slot < 4) (h14 : slot < 14) (hoff : off < 2 ^ slotDirectBits slot)
    (h : decides (treePath .posDec ((slotBase slot).toNat - slot) 1 (lsbBits (slotDirectBits slot) off)) s =
      some t) : distLow slot s = .ok (slotBase slot + BitVec.ofNat 32 off) t := by
  simp only [distLow, h4, h14, if_false, if_true, btRdec_lsbBits hoff h, Res.bind_ok]

/-- The direct bits of the slots from 14 on are read by RC.DIRECT, the lowest four from `align` (R169). -/
theorem distLow_align (h14 : ¬ slot < 14) (hoff : off < 2 ^ slotDirectBits slot)
    (h : decides ((msbBits (slotDirectBits slot - 4) (off / 16)).map .direct ++
      treePath .align 0 1 (lsbBits 4 (off % 16))) s = some t) :
    distLow slot s =
      .ok (slotBase slot + BitVec.ofNat 32 (off / 16) <<< 4 + BitVec.ofNat 32 (off % 16)) t := by
  have h4 : ¬ slot < 4 := by omega
  have hhi : off / 16 < 2 ^ (slotDirectBits slot - 4) := by
    have hnd : slotDirectBits slot = 4 + (slotDirectBits slot - 4) := by unfold slotDirectBits; omega
    exact Nat.div_lt_of_lt_mul (by rwa [hnd, pow_add] at hoff)
  have hlo : off % 16 < 2 ^ 4 := Nat.mod_lt _ (by decide)
  rw [decides_append, Option.bind_eq_some_iff] at h
  obtain ⟨u, hdirect, halign⟩ := h
  simp only [distLow, h4, h14, if_false, rcDirect_msbBits hhi hdirect, btRdec_lsbBits hlo halign, Res.bind_ok]

end

/-- The direct bits of a distance are what it exceeds the base of its slot by, and fit their number (R165). -/
theorem slotBase_add_sub {d : Nat} (h4 : 4 ≤ d) (hd : d < 2 ^ 32) :
    (slotBase (slotOf d)).toNat + (d - (slotBase (slotOf d)).toNat) = d ∧
      d - (slotBase (slotOf d)).toNat < 2 ^ slotDirectBits (slotOf d) := by
  have hsum := slotBase_slotOf_add h4 hd
  have hlt : d % 2 ^ slotDirectBits (slotOf d) < 2 ^ slotDirectBits (slotOf d) := Nat.mod_lt _ (by positivity)
  omega

/-- DIST.DEC along the decisions of a distance, for each of the three kinds of slot (R165 to R169). -/
theorem distDec_path {n : Nat} {d : Word} {s t : State} (h : decides (distPath n d) s = some t) :
    distDec n s = .ok d t := by
  rw [distPath, decides_append, Option.bind_eq_some_iff] at h
  obtain ⟨u, hslot, hlow⟩ := h
  rw [distDec, lenState_eq, btDec_msbBits (slotOf_lt d) hslot, Res.bind_ok]
  by_cases h4 : slotOf d.toNat < 4
  · have hd : slotOf d.toNat = d.toNat := if_pos ((slotOf_lt_4_iff d.isLt).mp h4)
    rw [if_pos h4] at hlow
    cases hlow
    rw [distLow_of_lt_four h4, hd, BitVec.ofNat_toNat, BitVec.setWidth_eq]
  rw [if_neg h4] at hlow
  obtain ⟨hsum, hoff⟩ := slotBase_add_sub (not_lt.mp (mt (slotOf_lt_4_iff d.isLt).mpr h4)) d.isLt
  by_cases h14 : slotOf d.toNat < 14
  · rw [if_pos h14] at hlow
    rw [distLow_posDec h4 h14 hoff hlow, add_ofNat_eq hsum]
  · rw [if_neg h14] at hlow
    rw [distLow_align h14 hoff hlow, add_ofNat_div_add_mod_eq hsum]

end Sys2Proof.Machine
end

section
/-! PROOFS. The obligations on literals and distances. (In a namespace of their own: the model's operations have the
names of these statements.) -/
namespace Sys2Proof.LiteralDistance
open Machine

/-- Settles O27: the plain literal is the walk of a tree (`litDec_path`), the conditioned one the two loops of
`litMatched_path`. -/
theorem literalDecoders : Obligations.LiteralDecoders := by
  refine fun ls mb b s t => ⟨fun h => ?_, fun h => ?_⟩
  · rw [exec_litDec, litDec_path h, settleRet_ok]
    rfl
  · rw [exec_litDecm, litDecm_path h, settleRet_ok]
    rfl

/-- Settles O28: the three kinds of position slot are the cases of `distDec_path`. -/
theorem distDec : Obligations.DistDec := by
  intro n d s t h
  rw [exec_distDec, distDec_path h, settleRet_ok]
  rfl

end Sys2Proof.LiteralDistance
end

section
/-! SUPPORT. WIN.COPY along its bytes: what `advanced` and `copied` say of one byte more, and that a copy from a
distance the window holds completes, however many bytes are pending (44_window.md R221 to R224, R344). -/
namespace Sys2Proof.Machine

/-! ### The window's invariant without its pending bytes -/

/-- The window's invariant but for how many bytes are pending: what reading and writing cells rests on. -/
def Win.Readable (w : Win) : Prop := WinOk { w with pending := 0 }

theorem WinOk.readable {w : Win} (h : WinOk w) : w.Readable := h.lessPending (Nat.zero_le _)

theorem Win.Readable.cursor {w : Win} (h : w.Readable) : w.pos < w.size :=
  WinOk.cursor (w := { w with pending := 0 }) h

theorem Win.Readable.size {w : Win} (h : w.Readable) : 4096 ≤ w.size.toNat := BitVec.le_def.mp (WinOk.size h)

theorem Win.Readable.putWin {w : Win} (h : w.Readable) (b : Byte) : (putWin b w).Readable := by
  have hroom : ({ w with pending := 0 } : Win).pending < w.size.toNat := by
    have := h.size
    dsimp only
    omega
  exact (WinOk.putWin h hroom b).readable

/-- WIN.GET reads the cell it names. -/
theorem winGet_of_cell {s : State} (hc : s.win.pos < s.win.size) {d : Nat} {b : Byte} (h1 : 1 ≤ d)
    (h2 : d ≤ winValid s.win) (hb : cellGet s.win.buf (winCell s.win d) = some b) : winGet d s = .ok b s := by
  have := winCell_lt hc h1 (Nat.le_trans h2 (winValid_le hc))
  simp [winGet, h1, h2, memRead, this, hb]

theorem winValid_le_putWin {w : Win} (hc : w.pos < w.size) (b : Byte) : winValid w ≤ winValid (putWin b w) := by
  rw [winValid_putWin w hc, winValid]
  split <;> omega

/-! ### Several bytes -/

theorem advanced_zero {w : Win} (hc : w.pos < w.size) : advanced w w 0 := by
  have hlt := BitVec.lt_def.mp hc
  refine ⟨rfl, rfl, (Nat.mod_eq_of_lt hlt).symm, ?_, rfl, rfl, fun _ _ => rfl⟩
  rw [decide_eq_false (by omega), Bool.or_false]

/-- The `k`-th byte after the first `m`. -/
theorem cellAfter_of_advanced {w w1 : Win} {m : Nat} (h : advanced w w1 m) (k : Nat) :
    cellAfter w1 k = cellAfter w (m + k) := by
  obtain ⟨hsize, -, hpos, -⟩ := h
  rw [cellAfter, cellAfter, hsize, hpos, Nat.mod_add_mod, Nat.add_assoc]

theorem advanced.trans {w w1 w2 : Win} {m n : Nat} (hc : w.pos < w.size) (h1 : advanced w w1 m)
    (h2 : advanced w1 w2 n) : advanced w w2 (m + n) := by
  have hcell := cellAfter_of_advanced h1
  have hlt := BitVec.lt_def.mp hc
  obtain ⟨hsize1, halloc1, hpos1, hfull1, hpend1, htot1, hcells1⟩ := h1
  obtain ⟨hsize2, halloc2, hpos2, hfull2, hpend2, htot2, hcells2⟩ := h2
  refine ⟨hsize2.trans hsize1, halloc2.trans halloc1, ?_, ?_, by omega, by omega, fun a ha => ?_⟩
  · rw [hpos2, hpos1, hsize1, Nat.mod_add_mod, Nat.add_assoc]
  · rw [hfull2, hfull1, hpos1, hsize1, Bool.or_assoc, ← Bool.decide_or]
    congr 2
    by_cases hw : w.pos.toNat + m < w.size.toNat
    · rw [Nat.mod_eq_of_lt hw]
      exact propext (by omega)
    · exact propext (by omega)
  · rw [hcells2 a fun k hk => hcell k ▸ ha (m + k) (by omega), hcells1 a fun k hk => ha k (by omega)]

/-- The first byte of a copy, then the others from the window it left (R224). -/
theorem copied_succ {w w' : Win} {b : Byte} {dist n : Nat} (hc : w.pos < w.size) (h1 : 1 ≤ dist)
    (h2 : dist ≤ w.size.toNat) (hn : n < w.size.toNat) (hb : cellGet w.buf (winCell w dist) = some b)
    (h : copied (putWin b w) w' dist n) : copied w w' dist (n + 1) := by
  obtain ⟨hadv, hcells⟩ := h
  have hlt := BitVec.lt_def.mp hc
  have hput := advanced_putWin hc b
  have hcell k : cellAfter (putWin b w) k = cellAfter w (k + 1) := by
    rw [cellAfter_of_advanced hput, Nat.add_comm]
  have hzero : cellAfter w 0 = w.pos.toNat := Nat.mod_eq_of_lt hlt
  have hne k (hk : k < n) : w.pos.toNat ≠ cellAfter w (k + 1) := by
    rw [cellAfter]
    intro e
    rcases Nat.lt_or_ge (w.pos.toNat + (k + 1)) w.size.toNat with hw | hw
    · rw [Nat.mod_eq_of_lt hw] at e
      omega
    · rw [Nat.mod_eq_sub_mod hw, Nat.mod_eq_of_lt (by omega)] at e
      omega
  have hfirst : cellGet w'.buf (cellAfter w 0) = some b := by
    obtain ⟨-, -, -, -, -, -, hkeeps⟩ := hadv
    rw [hzero, hkeeps _ fun k hk => hcell k ▸ hne k hk, putWin_buf, cellGet_cellPut, if_pos rfl]
  refine ⟨Nat.add_comm 1 n ▸ hput.trans hc hadv, fun k hk => ?_⟩
  cases k with
  | zero => rw [if_pos (by omega), hfirst, Nat.sub_zero, hb]
  | succ k =>
    rw [← hcell, hcells k (by omega)]
    rcases Nat.lt_trichotomy (k + 1) dist with hd | rfl | hd
    · have hold := winCell_putWin_succ hc b (d := dist - (k + 1)) (by omega) (by omega)
      have hpos := winCell_ne_pos hc (d := dist - (k + 1)) (by omega) (by omega)
      rw [if_pos (by omega), if_pos hd, show dist - k = dist - (k + 1) + 1 by omega, hold, putWin_buf,
        cellGet_cellPut_other _ _ _ _ hpos]
    · rw [if_pos (by omega), if_neg (by omega), Nat.add_sub_cancel_left, winCell_putWin_one hc, Nat.sub_self,
        hfirst, putWin_buf, cellGet_cellPut, if_pos rfl]
    · rw [if_neg (by omega), if_neg (by omega), hcell, Nat.sub_add_comm (by omega)]

/-- WIN.COPY from a distance the window holds (R224). -/
theorem winCopy_ok {dist : Nat} (n : Nat) {s : State} (hw : s.win.Readable) (h1 : 1 ≤ dist)
    (h2 : dist ≤ winValid s.win) (hn : n ≤ s.win.size.toNat) :
    ∃ w, copied s.win w dist n ∧ winCopy dist n s = .ok () (s.withWin w) := by
  induction n generalizing s with
  | zero => exact ⟨s.win, ⟨advanced_zero hw.cursor, fun _ hk => absurd hk (Nat.not_lt_zero _)⟩, rfl⟩
  | succ n ih =>
    have hc := hw.cursor
    obtain ⟨b, hb⟩ := Option.isSome_iff_exists.mp (WinOk.written hw dist h1 h2)
    obtain ⟨w, hcopied, hrun⟩ := ih (s := s.withWin (putWin b s.win)) (hw.putWin b)
      (h2.trans (winValid_le_putWin hc b)) (Nat.le_of_succ_le hn)
    refine ⟨w, copied_succ hc h1 (h2.trans (winValid_le hc)) hn hb hcopied, ?_⟩
    rw [winCopy, winGet_of_cell hc h1 h2 hb, Res.bind_ok, winPut_ok hc, Res.bind_ok, hrun]
    rfl

end Sys2Proof.Machine
end

section
/-! SUPPORT. The operations of the main loop along their decisions: where a run of decisions completes or fails, and
what CHK_BACK and COPY do after it (43_state_machine.md R188 to R204). -/
namespace Sys2Proof.Machine

/-! ### The instructions -/

theorem exec_lit (s : State) : exec .lit s = settle s (lit s) := rfl

theorem exec_simpleMatch (s : State) : exec .simpleMatch s = settle s (simpleMatch s) := rfl

theorem exec_eos (s : State) : exec .eos s = settle s (eos s) := rfl

theorem exec_srep (s : State) : exec .srep s = settle s (srep s) := rfl

theorem exec_chkBack (s : State) : exec .chkBack s = settle s (chkBack s) := rfl

theorem exec_copy (n : Nat) (s : State) : exec (.copy n) s = settle s (copy n s) := rfl

theorem exec_chunkEnd (s : State) : exec .chunkEnd s = settle s (chunkEnd s) := rfl

/-! ### The tests -/

theorem winIsEmpty_iff {w : Win} : winIsEmpty w = true ↔ w.pos = 0#32 ∧ w.isFull = false := by
  simp [winIsEmpty]

theorem sizeDone_iff {s : State} : sizeDone s = true ↔ s.sizeDefined = true ∧ s.rem = 0#64 := by
  simp [sizeDone]

theorem finOk_iff {s : State} : finOk s = true ↔ s.rc.code = 0#32 := by
  simp [finOk]

theorem winValid_pos {w : Win} (hs : 0 < w.size.toNat) (h : ¬ winIsEmpty w = true) : 1 ≤ winValid w := by
  rw [winIsEmpty_iff] at h
  unfold winValid
  split
  · exact hs
  · rename_i hf
    exact Nat.pos_of_ne_zero fun h0 => h ⟨BitVec.eq_of_toNat_eq h0, by simpa using hf⟩

/-! ### The FSM -/

theorem afterLiteral_eq (x : BitVec 4) :
    afterLiteral x = if x.toNat < 4 then 0#4 else if x.toNat < 10 then x - 3#4 else x - 6#4 := rfl

theorem afterMatch_eq (x : BitVec 4) : afterMatch x = if x.toNat < 7 then 7#4 else 10#4 := rfl

theorem afterRep_eq (x : BitVec 4) : afterRep x = if x.toNat < 7 then 8#4 else 11#4 := rfl

theorem afterShortRep_eq (x : BitVec 4) : afterShortRep x = if x.toNat < 7 then 9#4 else 11#4 := rfl

/-- The FSM registers once MATCH has decoded its distance (R182, R190). -/
def matchFsm (d : Word) (f : Fsm) : Fsm := { rotateReps f with state := afterMatch f.state, rep0 := d }

/-- The FSM registers once a rep match has decoded its length (R183, R199). -/
def repFsm (f : Fsm) : Fsm := { f with state := afterRep f.state }

/-! ### What the operations read is not changed by decisions -/

/-- What the operations of the main loop read of the state beside the range decoder. -/
theorem decides_keeps {ds : List Decision} {s u : State} (h : decides ds s = some u) :
    u.st = s.st ∧ u.sizeDefined = s.sizeDefined ∧ u.rem = s.rem ∧ u.cfg = s.cfg ∧ u.win = s.win := by
  obtain ⟨-, -, -, -, hst, hsize, hrem, hcfg, -, hwin, -⟩ := decodeFrame_iff.mp (decides_frame h).1
  exact ⟨hst, hsize, hrem, hcfg, hwin⟩

theorem decides_append_iff {a b : List Decision} {s t : State} :
    decides (a ++ b) s = some t ↔ ∃ u, decides a s = some u ∧ decides b u = some t := by
  rw [decides_append, Option.bind_eq_some_iff]

/-! ### CHK_BACK and COPY -/

section
variable {s : State} (hc : s.win.pos < s.win.size) (hd : s.cfg.dictSize = s.win.size)
include hc hd

theorem chkBack_reached (hr : s.st.rep0.toNat + 1 ≤ winValid s.win) : chkBack s = .ok () s := by
  rw [chkBack, if_pos ((backOk_iff hc hd).mpr hr)]

theorem chkBack_unreached (hr : ¬ s.st.rep0.toNat + 1 ≤ winValid s.win) :
    chkBack s = raise .badDistance s.st.rep0 s := by
  rw [chkBack, if_neg (mt (backOk_iff hc hd).mp hr)]

end

section
variable {s : State} {n : Nat} (hw : s.win.Readable) (hn : n ≤ 271)
  (hr : s.st.rep0.toNat + 1 ≤ winValid s.win)
include hw hn hr

/-- COPY with enough bytes remaining (R200). -/
theorem copy_whole (hrem : s.sizeDefined = true → n + 2 ≤ s.rem.toNat) :
    ∃ w, copied s.win w (s.st.rep0.toNat + 1) (n + 2) ∧
      copy n s = .ok () { s with
        win := w, rem := if s.sizeDefined then s.rem - BitVec.ofNat 64 (n + 2) else s.rem } := by
  have hsize := hw.size
  have hlen : ¬ (s.sizeDefined && decide (s.rem.toNat < n + 2)) = true := by simpa using hrem
  obtain ⟨w, hcopied, hrun⟩ := winCopy_ok (n + 2) hw (Nat.le_add_left 1 _) hr (by omega)
  have hcopy : copy n s = (winCopy (s.st.rep0.toNat + 1) (n + 2) s).bind fun _ s =>
      .ok () (useRem (BitVec.ofNat 64 (n + 2)) s) := if_neg hlen
  refine ⟨w, hcopied, ?_⟩
  rw [hcopy, hrun, Res.bind_ok, useRem_eq]
  rfl

/-- COPY with fewer bytes remaining than its length (R200). -/
theorem copy_short (hdef : s.sizeDefined = true) (hrem : s.rem.toNat < n + 2) :
    ∃ w, copied s.win w (s.st.rep0.toNat + 1) s.rem.toNat ∧
      copy n s = .raised (faulted .resultError .lenOverrun 0#32 { s with win := w, rem := 0#64 }) := by
  have hsize := hw.size
  have hlen : (s.sizeDefined && decide (s.rem.toNat < n + 2)) = true := by simp [hdef, hrem]
  obtain ⟨w, hcopied, hrun⟩ := winCopy_ok s.rem.toNat hw (Nat.le_add_left 1 _) hr (by omega)
  have hcopy : copy n s = (winCopy (s.st.rep0.toNat + 1) s.rem.toNat s).bind fun _ s =>
      raise .lenOverrun 0#32 (s.withRem 0#64) := if_pos hlen
  refine ⟨w, hcopied, ?_⟩
  rw [hcopy, hrun, Res.bind_ok]
  rfl

end

/-- The end of MATCH and of the rep matches: CHK_BACK, then COPY (R192, R199). -/
def checkedCopy (n : Nat) (s : State) : Res Unit := (chkBack s).bind fun _ s => copy n s

section
variable {i : Instr} {s u : State} {f : Fsm} {n : Nat} {ds : List Decision} (hs : Ready s)
  (hu : decides ds s = some u)
include hs hu

/-- CHK_BACK after decisions, whichever FSM registers the operation has written meanwhile. -/
theorem chkBack_after_decides :
    chkBack (u.withSt f) =
      if f.rep0.toNat + 1 ≤ winValid s.win then .ok () (u.withSt f) else raise .badDistance f.rep0 (u.withSt f) := by
  obtain ⟨-, -, -, hcfg, hwin⟩ := decides_keeps hu
  have hc : u.win.pos < u.win.size := hwin ▸ hs.window.cursor
  have hd : u.cfg.dictSize = u.win.size := by rw [hcfg, hwin, hs.dict]
  rw [← hwin]
  split
  case isTrue hr => exact chkBack_reached (s := u.withSt f) hc hd hr
  case isFalse hr => exact chkBack_unreached (s := u.withSt f) hc hd hr

variable (he : exec i s = settle s (checkedCopy n (u.withSt f)))
include he

/-- An instruction that ends with CHK_BACK and COPY, on a distance the window does not hold (R204). -/
theorem exec_of_checkedCopy_unreached (hr : ¬ f.rep0.toNat + 1 ≤ winValid s.win) :
    exec i s = .next (faulted .resultError .badDistance f.rep0 { u with st := f }) := by
  rw [he, checkedCopy, chkBack_after_decides hs hu, if_neg hr]
  rfl

variable (hn : n ≤ 271) (hr : f.rep0.toNat + 1 ≤ winValid s.win)
include hn hr

/-- An instruction that ends with CHK_BACK and COPY, with enough bytes remaining (R200). -/
theorem exec_of_checkedCopy_whole (hrem : s.sizeDefined = true → n + 2 ≤ s.rem.toNat) :
    ∃ t, exec i s = .next t ∧ copied s.win t.win (f.rep0.toNat + 1) (n + 2) ∧
      t = { u with
        win := t.win, st := f, rem := if s.sizeDefined then s.rem - BitVec.ofNat 64 (n + 2) else s.rem } := by
  obtain ⟨-, hsize, hrem', -, hwin⟩ := decides_keeps hu
  obtain ⟨w, hcopied, hrun⟩ := copy_whole (s := u.withSt f) (hwin ▸ hs.window.readable) hn (hwin ▸ hr)
    (hsize ▸ hrem' ▸ hrem)
  refine ⟨_, by rw [he, checkedCopy, chkBack_after_decides hs hu, if_pos hr, Res.bind_ok, hrun, settle_ok],
    hwin ▸ hcopied, ?_⟩
  rw [← hsize, ← hrem']
  rfl

/-- An instruction that ends with CHK_BACK and COPY, with fewer bytes remaining than its length (R200). -/
theorem exec_of_checkedCopy_short (hdef : s.sizeDefined = true) (hrem : s.rem.toNat < n + 2) :
    ∃ t, exec i s = .next t ∧ copied s.win t.win (f.rep0.toNat + 1) s.rem.toNat ∧
      t = faulted .resultError .lenOverrun 0#32 { u with st := f, win := t.win, rem := 0#64 } := by
  obtain ⟨-, hsize, hrem', -, hwin⟩ := decides_keeps hu
  obtain ⟨w, hcopied, hrun⟩ := copy_short (s := u.withSt f) (hwin ▸ hs.window.readable) hn (hwin ▸ hr)
    (hsize ▸ hdef) (hrem' ▸ hrem)
  refine ⟨_, by rw [he, checkedCopy, chkBack_after_decides hs hu, if_pos hr, Res.bind_ok, hrun, settle_raised],
    ?_, rfl⟩
  rw [← hrem', ← hwin]
  exact hcopied

end

/-! ### LIT -/

/-- The byte before the cursor, 0 in an empty window (42_literal_distance.md R161). -/
abbrev PrevByte (s : State) (prev : Byte) : Prop :=
  (s.win.pos = 0#32 ∧ s.win.isFull = false) ∧ prev = 0#8 ∨
    ¬(s.win.pos = 0#32 ∧ s.win.isFull = false) ∧ cellGet s.win.buf (winCell s.win 1) = some prev

section
variable {s : State} (hs : Ready s)
include hs

theorem size_pos_of_ready : 0 < s.win.size.toNat := by
  have := hs.window.readable.size
  omega

theorem exists_prevByte : ∃ prev, PrevByte s prev := by
  by_cases he : winIsEmpty s.win = true
  · exact ⟨0#8, .inl ⟨winIsEmpty_iff.mp he, rfl⟩⟩
  · obtain ⟨b, hb⟩ := Option.isSome_iff_exists.mp
      (hs.window.written 1 le_rfl (winValid_pos (size_pos_of_ready hs) he))
    exact ⟨b, .inr ⟨mt winIsEmpty_iff.mpr he, hb⟩⟩

/-- What a literal is decoded with, the byte before it read (R164, R188). -/
theorem litByte_of_prevByte {prev : Byte} (hp : PrevByte s prev) :
    litByte s =
      if 7#4 ≤ s.st.state then
        (chkBack s).bind fun _ s => (winGet (s.st.rep0.toNat + 1) s).bind fun mb s => litDecm (litState s prev) mb s
      else litDec (litState s prev) s := by
  rcases hp with ⟨he, rfl⟩ | ⟨he, hb⟩
  · rw [litByte, if_pos (winIsEmpty_iff.mpr he), Res.bind_ok]
  · have hne := mt winIsEmpty_iff.mp he
    rw [litByte, if_neg hne, winGet_of_cell hs.window.cursor le_rfl
      (winValid_pos (size_pos_of_ready hs) hne) hb, Res.bind_ok]

/-- The decisions of a literal are those of LIT.DEC or of LIT.DECM (R164, R188). -/
theorem litByte_of_litDecisions {b : Byte} {ds : List Decision} (h : litDecisions s b ds) :
    (∃ ls, ds = litPath ls b ∧ litByte s = litDec ls s) ∨
      ∃ ls mb, ds = litmPath ls mb b ∧ litByte s = litDecm ls mb s := by
  obtain ⟨prev, hp, ⟨hstate, rfl⟩ | ⟨hstate, hr, mb, hmb, rfl⟩⟩ := h
  · refine .inl ⟨_, rfl, ?_⟩
    rw [litByte_of_prevByte hs hp, if_neg (BitVec.not_le.mpr hstate)]
    rfl
  · refine .inr ⟨_, mb, rfl, ?_⟩
    rw [litByte_of_prevByte hs hp, if_pos hstate, chkBack_reached hs.window.cursor hs.dict hr, Res.bind_ok,
      winGet_of_cell hs.window.cursor (Nat.le_add_left 1 _) hr hmb, Res.bind_ok]
    rfl

theorem litByte_decides {b : Byte} {ds : List Decision} {u : State} (h : litDecisions s b ds)
    (hu : decides ds s = some u) : litByte s = .ok b u := by
  rcases litByte_of_litDecisions hs h with ⟨ls, rfl, e⟩ | ⟨ls, mb, rfl, e⟩
  · rw [e, litDec_path hu]
  · rw [e, litDecm_path hu]

theorem litByte_fails {b : Byte} {ds : List Decision} {k : Nat} {t : State} (h : litDecisions s b ds)
    (hf : failsAfter k ds s t) : litByte s = .raised t := by
  rcases litByte_of_litDecisions hs h with ⟨ls, rfl, e⟩ | ⟨ls, mb, rfl, e⟩
  · rw [e, litDec_fails hf]
  · rw [e, litDecm_fails hf]

/-- A matched literal on a distance the window does not hold (R204). -/
theorem litByte_unreached (hstate : 7#4 ≤ s.st.state) (hr : ¬ s.st.rep0.toNat + 1 ≤ winValid s.win) :
    litByte s = raise .badDistance s.st.rep0 s := by
  obtain ⟨prev, hp⟩ := exists_prevByte hs
  rw [litByte_of_prevByte hs hp, if_pos hstate, chkBack_unreached hs.window.cursor hs.dict hr, raise_bind]

end

/-- LIT with size left decodes its byte first (R188). -/
theorem lit_of_not_done {s : State} (h : ¬(s.sizeDefined = true ∧ s.rem = 0#64)) :
    lit s = (litByte s).bind fun b s =>
      (winPut b s).bind fun _ s => .ok () (useRem 1#64 (setFsm (afterLiteral s.st.state) s)) := by
  rw [lit, if_neg (mt sizeDone_iff.mp h)]

/-! ### EOS -/

theorem eos_ne_held (s : State) : eos s ≠ .held := by
  simp only [eos, stop, chunkEnd, raise]
  split
  · simp
  split
  · simp
  split
  · split <;> simp
  · simp

/-- An instruction that is not held does not look at the state it is held in. -/
theorem settle_congr {r : Res Unit} (h : r ≠ .held) (s0 s1 : State) : settle s0 r = settle s1 r := by
  cases r with
  | held => exact absurd rfl h
  | ok a s => rfl
  | raised s => rfl
  | bad f => rfl

/-- With a clean finish and no byte missing EOS stops the loop (R191). -/
theorem eos_of_done {s : State} (hcode : s.rc.code = 0#32) (hrem : s.sizeDefined = true → s.rem = 0#64) :
    eos s = stop .endMarker s := by
  have hfin : (!finOk s) = false := by simp [finOk, hcode]
  have hmiss : (s.sizeDefined && s.rem != 0#64) = false := by simpa using hrem
  simp only [eos, hfin, hmiss, Bool.false_eq_true, if_false]

theorem eos_badMarker {s : State} (hcode : s.rc.code ≠ 0#32) : eos s = raise .badMarker 0#32 s := by
  have hfin : (!finOk s) = true := by simp [finOk, hcode]
  rw [eos, if_pos hfin]

theorem eos_sizeNotReached {s : State} (hcode : s.rc.code = 0#32) (hdef : s.sizeDefined = true)
    (hrem : s.rem ≠ 0#64) : eos s = raise .sizeNotReached 0#32 s := by
  have hfin : (!finOk s) = false := by simp [finOk, hcode]
  have hmiss : (s.sizeDefined && s.rem != 0#64) = true := by simp [hdef, hrem]
  simp only [eos, hfin, hmiss, Bool.false_eq_true, if_false, if_true]

theorem stop_of_ne_lzma2 {s : State} (c : Cause) (hm : s.mode ≠ .lzma2) : stop c s = .ok () (finish c s) := by
  rw [stop, if_neg hm]

theorem stop_of_lzma2 {s : State} (c : Cause) (hm : s.mode = .lzma2) : stop c s = chunkEnd s := by
  rw [stop, if_pos hm]

/-! ### MATCH and the rep matches -/

/-- DIST.DEC raises where a decision of the path of some distance does. -/
theorem distDec_fails {n k : Nat} {d : Word} {s t : State} (h : failsAfter k (distPath n d) s t) :
    distDec n s = .raised t := by
  rw [distPath, failsAfter_append] at h
  rcases h with ⟨-, hslot⟩ | ⟨-, u, hslot, hlow⟩
  · have hw := btWalk_fails _ hslot
    rw [length_msbBits] at hw
    rw [distDec, lenState_eq, btDec, hw, Res.bind_raised, Res.bind_raised]
  rw [distDec, lenState_eq, btDec_msbBits (slotOf_lt d) hslot, Res.bind_ok]
  by_cases h4 : slotOf d.toNat < 4
  · rw [if_pos h4] at hlow
    exact absurd hlow (not_failsAfter_nil _ _ _)
  rw [if_neg h4] at hlow
  by_cases h14 : slotOf d.toNat < 14
  · rw [if_pos h14] at hlow
    have hw := btRwalk_fails (i := 0) (v := 0) _ hlow
    rw [length_lsbBits] at hw
    simp only [distLow, h4, h14, if_false, if_true, btRdec, hw, Res.bind_raised]
  rw [if_neg h14, failsAfter_append] at hlow
  rcases hlow with ⟨-, hdirect⟩ | ⟨-, v, hdirect, halign⟩
  · have hw := rcDirect_fails (v := 0#32) _ hdirect
    rw [length_msbBits] at hw
    simp only [distLow, h4, h14, if_false, hw, Res.bind_raised]
  · have hd := rcDirect_path (v := 0) _ hdirect
    have hw := btRwalk_fails (i := 0) (v := 0) _ halign
    rw [length_msbBits] at hd
    rw [length_lsbBits] at hw
    simp only [distLow, h4, h14, if_false, hd, Res.bind_ok, btRdec, hw, Res.bind_raised]

/-- MATCH along its decisions (R190). -/
theorem simpleMatch_path {n : Nat} {d : Word} {s u : State} (hn : n ≤ 271)
    (h : decides (lenPath .len (posState s) n ++ distPath n d) s = some u) :
    simpleMatch s =
      if d = Config.endMarker then eos (u.withSt (matchFsm d s.st))
      else checkedCopy n (u.withSt (matchFsm d s.st)) := by
  obtain ⟨v, hlen, hdist⟩ := decides_append_iff.mp h
  have hlen' := lenDec_path hn (decides_withSt (rotateReps s.st) _ hlen)
  have hdist' := distDec_path (decides_withSt { rotateReps s.st with state := afterMatch s.st.state } _ hdist)
  rw [simpleMatch, hlen', Res.bind_ok]
  exact congrArg (fun r => Res.bind r _) hdist'

/-- MATCH at a pull that fails: the state has moved on once the length is decoded (R190). -/
theorem simpleMatch_fails {n k : Nat} {d : Word} {s t : State} (hn : n ≤ 271)
    (h : failsAfter k (lenPath .len (posState s) n ++ distPath n d) s t) :
    simpleMatch s = .raised (t.withSt { rotateReps s.st with
      state := if k < (lenPath .len (posState s) n).length then s.st.state else afterMatch s.st.state }) := by
  rcases failsAfter_append.mp h with ⟨hk, hlen⟩ | ⟨hk, v, hlen, hdist⟩
  · have hlen' : lenDec .len (posState s) (s.withSt (rotateReps s.st)) = .raised (t.withSt (rotateReps s.st)) :=
      lenDec_fails (failsAfter_withSt _ hlen)
    rw [simpleMatch, hlen', Res.bind_raised, if_pos hk]
    rfl
  · have hlen' := lenDec_path hn (decides_withSt (rotateReps s.st) _ hlen)
    have hdist' := distDec_fails (failsAfter_withSt { rotateReps s.st with state := afterMatch s.st.state } hdist)
    rw [simpleMatch, hlen', Res.bind_ok, if_neg (Nat.not_lt.mpr hk)]
    exact congrArg (fun r => Res.bind r _) hdist'

/-- MATCH with a distance that is no end marker ends with CHK_BACK and COPY (R190, R192). -/
theorem exec_simpleMatch_eq {n : Nat} {d : Word} {s u : State} (hd : d ≠ Config.endMarker) (hn : n ≤ 271)
    (h : decides (lenPath .len (posState s) n ++ distPath n d) s = some u) :
    exec .simpleMatch s = settle s (checkedCopy n (u.withSt (matchFsm d s.st))) := by
  rw [exec_simpleMatch, simpleMatch_path hn h, if_neg hd]

/-- A rep match along its decisions ends with CHK_BACK and COPY, `f` the registers with the chosen one in front
(R195 to R199). -/
theorem exec_rep_eq {i : Instr} {n : Nat} {f : Fsm} {s u : State}
    (hi : exec i s = settle s (repTail (s.withSt f))) (hn : n ≤ 271)
    (h : decides (lenPath .repLen (posState s) n) s = some u) :
    exec i s = settle s (checkedCopy n (u.withSt (repFsm f))) := by
  have hlen : lenDec .repLen (posState s) (s.withSt f) = .ok n (u.withSt f) :=
    lenDec_path hn (decides_withSt f _ h)
  have htail : repTail (s.withSt f) = checkedCopy n (u.withSt (repFsm f)) := congrArg (fun r => Res.bind r _) hlen
  rw [hi, htail]

/-- A rep match at a pull that fails: the state has not moved on (R199). -/
theorem repTail_fails {n k : Nat} {s t : State} (h : failsAfter k (lenPath .repLen (posState s) n) s t) :
    repTail s = .raised t :=
  congrArg (fun r => Res.bind r _) (lenDec_fails h)

end Sys2Proof.Machine
end

section
/-! SUPPORT. The leading bits of a symbol along their decisions, and CORE's move in phase RUN (43_state_machine.md
R185 to R193). -/
namespace Sys2Proof.Machine

/-! ### The leading bits of a symbol -/

/-- The operations of the rep family. -/
abbrev repFamily : List Instr := [.srep, .rep0, .rep1, .rep2, .rep3]

/-- The two decisions every symbol of the rep family begins with (R187, R189). -/
def repHead (s0 ps : BitVec 4) : List Decision :=
  [.slot .isMatch (stateIndex s0 ps) true, .slot .isRep s0.toNat true]

/-- The decisions that select within the rep family, after the pre-checks (R193). -/
def repRest (s0 ps : BitVec 4) : Instr → List Decision
  | .srep => [.slot .isRepG0 s0.toNat false, .slot .isRep0Long (stateIndex s0 ps) false]
  | .rep0 => [.slot .isRepG0 s0.toNat false, .slot .isRep0Long (stateIndex s0 ps) true]
  | .rep1 => [.slot .isRepG0 s0.toNat true, .slot .isRepG1 s0.toNat false]
  | .rep2 => [.slot .isRepG0 s0.toNat true, .slot .isRepG1 s0.toNat true, .slot .isRepG2 s0.toNat false]
  | _ => [.slot .isRepG0 s0.toNat true, .slot .isRepG1 s0.toNat true, .slot .isRepG2 s0.toNat true]

theorem eq_lit_or_simpleMatch_or_mem_repFamily {i : Instr}
    (h : i ∈ [Instr.lit, .simpleMatch, .srep, .rep0, .rep1, .rep2, .rep3]) :
    i = .lit ∨ i = .simpleMatch ∨ i ∈ repFamily := by
  simpa using h

theorem prefixPath_of_repFamily (s0 ps : BitVec 4) {i : Instr} (h : i ∈ repFamily) :
    prefixPath s0 ps i = repHead s0 ps ++ repRest s0 ps i := by
  simp only [repFamily, List.mem_cons, List.not_mem_nil, or_false] at h
  rcases h with rfl | rfl | rfl | rfl | rfl <;> rfl

/-- A symbol of the rep family is fetched after the first two decisions by the pre-checks and the
decisions after them (R193). -/
theorem fetchSymbol_of_repHead {s u : State} (h : decides (repHead s.st.state (posState s)) s = some u) :
    fetchSymbol s = fetchRep (posState s) u := by
  obtain ⟨v, h1, h2⟩ := decides_slot.mp h
  obtain ⟨w, h3, h4⟩ := decides_slot.mp h2
  cases h4
  simp only [fetchSymbol, h1, h3, Res.bind_ok, if_true]

section
variable {ps : BitVec 4} {s t : State} {i : Instr} (hne : ¬(s.win.pos = 0#32 ∧ s.win.isFull = false))
  (hnd : ¬(s.sizeDefined = true ∧ s.rem = 0#64)) (hi : i ∈ repFamily)
include hne hnd

/-- The decisions after the two pre-checks, both passed (R193). -/
theorem fetchRep_of_prechecks :
    fetchRep ps s = (rcBit .isRepG0 s.st.state.toNat s).bind fun g0 u =>
      if g0 then
        (rcBit .isRepG1 s.st.state.toNat u).bind fun g1 v =>
          if g1 then
            (rcBit .isRepG2 s.st.state.toNat v).bind fun g2 w => .ok (if g2 then .rep3 else .rep2) w
          else .ok .rep1 v
      else
        (rcBit .isRep0Long (stateIndex s.st.state ps) u).bind fun l v => .ok (if l then .rep0 else .srep) v := by
  have he : ¬ winIsEmpty s.win = true := mt winIsEmpty_iff.mp hne
  have hd : ¬ sizeDone s = true := mt sizeDone_iff.mp hnd
  exact (if_neg he).trans (if_neg hd)

include hi

theorem fetchRep_path (h : decides (repRest s.st.state ps i) s = some t) : fetchRep ps s = .ok i t := by
  rw [fetchRep_of_prechecks hne hnd]
  simp only [repFamily, List.mem_cons, List.not_mem_nil, or_false] at hi
  rcases hi with rfl | rfl | rfl | rfl | rfl <;> obtain ⟨u, h1, h⟩ := decides_slot.mp h <;>
    obtain ⟨v, h2, h⟩ := decides_slot.mp h
  case inl | inr.inl | inr.inr.inl =>
    cases h
    simp [h1, h2]
  all_goals
    obtain ⟨w, h3, h⟩ := decides_slot.mp h
    cases h
    simp [h1, h2, h3]

theorem fetchRep_fails {k : Nat} (h : failsAfter k (repRest s.st.state ps i) s t) :
    fetchRep ps s = .raised t := by
  rw [fetchRep_of_prechecks hne hnd]
  simp only [repFamily, List.mem_cons, List.not_mem_nil, or_false] at hi
  rcases hi with rfl | rfl | rfl | rfl | rfl <;>
    (rcases failsAfter_slot h with h1 | ⟨_, u, -, h1, h⟩
     · rw [h1, Res.bind_raised]
     rcases failsAfter_slot h with h2 | ⟨_, v, -, h2, h⟩
     · simp [h1, h2])
  case inl | inr.inl | inr.inr.inl => exact absurd h (not_failsAfter_nil _ _ _)
  all_goals
    rcases failsAfter_slot h with h3 | ⟨_, w, -, -, h⟩
    · simp [h1, h2, h3]
    · exact absurd h (not_failsAfter_nil _ _ _)

end

theorem fetchSymbol_fails_in_repHead {k : Nat} {s t : State}
    (h : failsAfter k (repHead s.st.state (posState s)) s t) : fetchSymbol s = .raised t := by
  rcases failsAfter_slot h with h1 | ⟨_, u, -, h1, h⟩
  · simp only [fetchSymbol, h1, Res.bind_raised]
  rcases failsAfter_slot h with h2 | ⟨_, v, -, -, h⟩
  · simp only [fetchSymbol, h1, h2, Res.bind_ok, Res.bind_raised, if_true]
  · exact absurd h (not_failsAfter_nil _ _ _)

section
variable {s t : State} {i : Instr}
  (hi : i ∈ [Instr.lit, .simpleMatch, .srep, .rep0, .rep1, .rep2, .rep3])
include hi

/-- The leading decisions of an operation select it (R187, R189, R193). -/
theorem fetchSymbol_path
    (hpre : i ∈ repFamily → ¬(s.win.pos = 0#32 ∧ s.win.isFull = false) ∧ ¬(s.sizeDefined = true ∧ s.rem = 0#64))
    (h : decides (prefixPath s.st.state (posState s) i) s = some t) : fetchSymbol s = .ok i t := by
  rcases eq_lit_or_simpleMatch_or_mem_repFamily hi with rfl | rfl | hi
  · obtain ⟨u, h1, h⟩ := decides_slot.mp h
    cases h
    simp [fetchSymbol, stateIndex, h1]
  · obtain ⟨u, h1, h⟩ := decides_slot.mp h
    obtain ⟨v, h2, h⟩ := decides_slot.mp h
    cases h
    simp [fetchSymbol, stateIndex, h1, h2]
  · rw [prefixPath_of_repFamily _ _ hi] at h
    obtain ⟨u, hhead, hrest⟩ := decides_append_iff.mp h
    obtain ⟨hst, hsize, hrem, -, hwin⟩ := decides_keeps hhead
    obtain ⟨hne, hnd⟩ := hpre hi
    rw [fetchSymbol_of_repHead hhead]
    exact fetchRep_path (hwin ▸ hne) (by rwa [hsize, hrem]) hi (hst ▸ hrest)

/-- The leading decisions at a pull that fails (R187, R189, R193). -/
theorem fetchSymbol_fails {k : Nat}
    (hpre : 2 ≤ k → ¬(s.win.pos = 0#32 ∧ s.win.isFull = false) ∧ ¬(s.sizeDefined = true ∧ s.rem = 0#64))
    (h : failsAfter k (prefixPath s.st.state (posState s) i) s t) : fetchSymbol s = .raised t := by
  rcases eq_lit_or_simpleMatch_or_mem_repFamily hi with rfl | rfl | hi
  · rcases failsAfter_slot h with h1 | ⟨_, u, -, -, h⟩
    · simp [fetchSymbol, stateIndex, h1]
    · exact absurd h (not_failsAfter_nil _ _ _)
  · rcases failsAfter_slot h with h1 | ⟨_, u, -, h1, h⟩
    · simp [fetchSymbol, stateIndex, h1]
    rcases failsAfter_slot h with h2 | ⟨_, v, -, -, h⟩
    · simp [fetchSymbol, stateIndex, h1, h2]
    · exact absurd h (not_failsAfter_nil _ _ _)
  · rw [prefixPath_of_repFamily _ _ hi] at h
    rcases failsAfter_append.mp h with ⟨-, hhead⟩ | ⟨hk, u, hhead, hrest⟩
    · exact fetchSymbol_fails_in_repHead hhead
    · obtain ⟨hst, hsize, hrem, -, hwin⟩ := decides_keeps hhead
      obtain ⟨hne, hnd⟩ := hpre hk
      rw [fetchSymbol_of_repHead hhead]
      exact fetchRep_fails (hwin ▸ hne) (by rwa [hsize, hrem]) hi (hst ▸ hrest)

end

/-! ### CORE's move -/

section
variable {s : State} {ts : List Turn} (hm : coreMoves ts s) (hw : s.wait = none)
include hm hw

theorem step_run (hp : s.phase = .run) (hpend : s.win.pending = 0) : step s = runPass (atTurn ts s) := by
  have hphase : (atTurn ts s).phase = .run := hp
  rw [step_core hm hw]
  simp only [corePhase, hphase]
  exact if_pos hpend

/-- A pass that does not stop at the declared size runs what it fetches (R185). -/
theorem step_pass (hp : s.phase = .run) (hpend : s.win.pending = 0)
    (hgo : ¬(s.sizeDefined = true ∧ s.rem = 0#64 ∧ s.rc.code = 0#32)) :
    step s = execFetched (atTurn ts s) (fetchSymbol (atTurn ts s)) := by
  have hstop : ¬ (sizeDone (atTurn ts s) && finOk (atTurn ts s)) = true := by
    rw [Bool.and_eq_true, sizeDone_iff, finOk_iff, and_assoc]
    exact hgo
  rw [step_run hm hw hp hpend, runPass, if_neg hstop]

theorem step_c2raw (hp : s.phase = .c2raw) : step s = afterExec (atTurn ts s) (exec .rawCopy (atTurn ts s)) := by
  have hphase : (atTurn ts s).phase = .c2raw := hp
  rw [step_core hm hw]
  simp only [corePhase, hphase]

end

theorem afterExec_of_not_atPull {s t : State} (h : ∀ n, t.env.hold ≠ .src n) : afterExec s (.next t) = .next t := by
  have hpull : ¬ t.env.hold.atPull = true := by
    cases hh : t.env.hold with
    | src n => exact absurd hh (h n)
    | none | snk | host => exact Bool.false_ne_true
  exact if_neg hpull

theorem afterExec_of_atPull {s t : State} {n : Nat} (h : t.env.hold = .src n) :
    afterExec s (.next t) = .next (holdAtPull s) := by
  have hpull : t.env.hold.atPull = true := by rw [h]; rfl
  exact if_pos hpull

end Sys2Proof.Machine
end

section
/-! PROOFS. The obligations on the state machine. (In a namespace of their own: the model's operations have the names
of these statements; `match_` because `match` is a keyword.) -/
namespace Sys2Proof.StateMachine
open Machine

/-! ### The leading bits of a symbol, and the pass -/

/-- Settles O17: the leading bits are followed along their decisions, and after the first two of the rep family come the
pre-checks of `fetchRep`. -/
theorem prefixSelectsTheOperation : Obligations.PrefixSelectsTheOperation := by
  refine fun s t => ⟨fun i hi hpre h => fetchSymbol_path hi hpre h, fun h => ?_⟩
  obtain ⟨-, hsize, hrem, -, hwin⟩ := decides_keeps h
  rw [fetchSymbol_of_repHead h, ← hsize, ← hrem, ← hwin]
  refine ⟨fun he => ?_, fun he hdef hdone => ?_⟩
  · exact if_pos (winIsEmpty_iff.mpr he)
  · exact (if_neg (mt winIsEmpty_iff.mp he)).trans (if_pos (sizeDone_iff.mpr ⟨hdef, hdone⟩))

/-- Settles O15: what is due is executed by `afterExec`, which looks at the hold only; a fetch that raises, is held
or stops ends the step by `execFetched`. -/
theorem stepRunsTheOperation : Obligations.StepRunsTheOperation := by
  intro s ts hm hw held pass
  have hheld : holdAtPull (atTurn ts s) = held := rfl
  have hpass (h : pass) : step s = execFetched (atTurn ts s) (fetchSymbol (atTurn ts s)) := by
    obtain ⟨hp, hpend, hgo⟩ := h
    exact step_pass hm hw hp hpend hgo
  refine ⟨fun i u hdue => ?_, fun h => ?_⟩
  · have hstep : step s = afterExec (atTurn ts s) (exec i u) := by
      rcases hdue with ⟨h, hfetch⟩ | ⟨hp, rfl, rfl⟩
      · rw [hpass h, hfetch]
        rfl
      · exact step_c2raw hm hw hp
    rw [hstep, ← hheld]
    refine ⟨fun t he hfree => ?_, fun t n he hhold => ?_, fun f he => ?_⟩
    · rw [he, afterExec_of_not_atPull hfree]
    · rw [he, afterExec_of_atPull hhold]
    · rw [he]
      rfl
  · rw [hpass h, ← hheld]
    have hraised {t} (e : fetchSymbol (atTurn ts s) = .raised t) :
        execFetched (atTurn ts s) (fetchSymbol (atTurn ts s)) = .next t := by
      rw [e]
      rfl
    refine ⟨fun t => hraised, fun e => ?_, fun f e => ?_, fun i k t hi hpre hf => ?_⟩
    · rw [e]
      rfl
    · rw [e]
      rfl
    · exact hraised (fetchSymbol_fails hi hpre hf)

/-- Settles O18: the pass is the `stop` of its first step, CHUNKEND in mode LZMA2. -/
theorem stopAtDeclaredSize : Obligations.StopAtDeclaredSize := by
  intro s ts hm hw hp hpend hdef hrem hcode
  have hstop : (sizeDone (atTurn ts s) && finOk (atTurn ts s)) = true := by
    rw [Bool.and_eq_true, sizeDone_iff, finOk_iff]
    exact ⟨⟨hdef, hrem⟩, hcode⟩
  rw [step_run hm hw hp hpend, runPass, if_pos hstop]
  refine ⟨fun hmode => ?_, fun hmode => ?_⟩
  · rw [stop_of_ne_lzma2 (s := atTurn ts s) _ hmode]
    rfl
  · rw [stop_of_lzma2 (s := atTurn ts s) _ hmode, exec_chunkEnd]

/-! ### CHK_BACK and COPY -/

/-- Settles O37: the two tests of `backOk`. -/
theorem chkBack : Obligations.ChkBack := by
  intro s
  have hback : backOk s = true ↔
      s.st.rep0 < s.cfg.dictSize ∧ (s.st.rep0.toNat + 1 ≤ s.win.pos.toNat ∨ s.win.isFull = true) := by
    simp [backOk, winReaches]
  rw [exec_chkBack, Machine.chkBack, ← hback]
  refine ⟨fun hd hr => ?_, fun h => ?_⟩
  · rw [if_pos (hback.mpr ⟨hd, hr⟩), settle_ok]
  · rw [if_neg h]
    rfl

/-- Settles O38: the two cases of COPY, each a WIN.COPY. -/
theorem copy : Obligations.Copy := by
  intro n s hw hn hr
  rw [exec_copy]
  refine ⟨fun hrem => ?_, fun hdef hrem => ?_⟩
  · obtain ⟨w, hcopied, hrun⟩ := copy_whole hw.readable hn hr hrem
    exact ⟨_, by rw [hrun, settle_ok], hcopied, rfl⟩
  · obtain ⟨w, hcopied, hrun⟩ := copy_short hw.readable hn hr hdef hrem
    exact ⟨_, by rw [hrun, settle_raised], hcopied, rfl⟩

/-! ### The symbol-level operations -/

/-- Settles O39: the byte by `litByte_decides`, then one WIN.PUT. -/
theorem literal : Obligations.Literal := by
  intro s u prev b hs hnd hprev ls hdec
  obtain ⟨ds, hlit, hu⟩ : ∃ ds, litDecisions s b ds ∧ decides ds s = some u := by
    rcases hdec with ⟨hstate, hu⟩ | ⟨hstate, hr, mb, hmb, hu⟩
    · exact ⟨_, ⟨prev, hprev, .inl ⟨hstate, rfl⟩⟩, hu⟩
    · exact ⟨_, ⟨prev, hprev, .inr ⟨hstate, hr, mb, hmb, rfl⟩⟩, hu⟩
  obtain ⟨hst, hsize, hrem, -, hwin⟩ := decides_keeps hu
  have hc := hs.window.cursor
  have hput : winPut b u = .ok () (u.withWin (putWin b s.win)) := by
    rw [winPut_ok (hwin ▸ hc), hwin]
  refine ⟨_, by rw [exec_lit, lit_of_not_done hnd, litByte_decides hs hlit hu, Res.bind_ok, hput, Res.bind_ok,
    settle_ok, useRem_eq], advanced_putWin hc b, cellGet_cellPut_same _ _ _, ?_⟩
  rw [← afterLiteral_eq, ← hst, ← hsize, ← hrem]
  rfl

/-- Settles O40: CHK_BACK passes, and WIN.GET then WIN.PUT is a WIN.COPY of one byte. -/
theorem shortRep : Obligations.ShortRep := by
  intro s hs hr
  have hsize := hs.window.readable.size
  obtain ⟨w, hcopied, hrun⟩ := winCopy_ok 1 hs.window.readable (Nat.le_add_left 1 _) hr (by omega)
  have hsrep : srep s = (winCopy (s.st.rep0.toNat + 1) 1 s).bind fun _ s =>
      .ok () (useRem 1#64 (setFsm (afterShortRep s.st.state) s)) := by
    simp only [srep, chkBack_reached hs.window.cursor hs.dict hr, winCopy, Res.bind_assoc, Res.bind_ok]
  refine ⟨_, by rw [exec_srep, hsrep, hrun, Res.bind_ok, settle_ok, useRem_eq], hcopied, ?_⟩
  rw [← afterShortRep_eq]
  rfl

/-- Settles O41: a distance the window holds is not the end marker, so MATCH ends with CHK_BACK and COPY. -/
theorem match_ : Obligations.Match := by
  intro s u n d hs hn hu hr hrem
  have hne : d ≠ Config.endMarker := by
    rintro rfl
    have := winValid_le hs.window.cursor
    have := s.win.size.isLt
    have : Config.endMarker.toNat = 2 ^ 32 - 1 := rfl
    omega
  exact exec_of_checkedCopy_whole hs hu (exec_simpleMatch_eq hne hn hu) hn hr hrem

/-- Settles O42: the three cases of EOS; a MATCH with that distance goes on as EOS, which is never held. -/
theorem endMarker : Obligations.EndMarker := by
  refine ⟨fun s => ⟨fun hcode hrem => ?_, fun hcode => ?_, fun hcode hdef hrem => ?_⟩, fun s u n hn hu => ?_⟩
  · rw [exec_eos, eos_of_done hcode hrem]
    refine ⟨fun hmode => ?_, fun hmode => ?_⟩
    · rw [stop_of_ne_lzma2 _ hmode]
      rfl
    · rw [stop_of_lzma2 _ hmode, exec_chunkEnd]
  · rw [exec_eos, eos_badMarker hcode]
    rfl
  · rw [exec_eos, eos_sizeNotReached hcode hdef hrem]
    rfl
  · have hmarker : 0xFFFFFFFF#32 = Config.endMarker := rfl
    rw [exec_simpleMatch, simpleMatch_path hn hu, if_pos hmarker, settle_congr (eos_ne_held _), ← exec_eos]
    rfl

/-- Settles O43: the four promotions, then the same end. -/
theorem repMatches : Obligations.RepMatches := by
  intro s u n hs hn hu hrem after runs
  have hrun {i f} (hi : exec i s = settle s (repTail (s.withSt f))) (hr : f.rep0.toNat + 1 ≤ winValid s.win) :=
    exec_of_checkedCopy_whole hs hu (exec_rep_eq hi hn hu) hn hr hrem
  exact ⟨hrun (f := s.st) rfl, hrun (f := promote1 s.st) rfl, hrun (f := promote2 s.st) rfl,
    hrun (f := promote3 s.st) rfl⟩

/-- Settles O44: the size is tested first; CHK_BACK raises where the window does not hold the distance, and COPY where
too little remains; a decision that fails raises out of the decoder it is made in. -/
theorem operationsThatRaise : Obligations.OperationsThatRaise := by
  refine ⟨fun s hdef hrem => ?_, fun s hs hr => ⟨?_, fun hstate hnd => ?_⟩,
    ?_, fun s t k => ⟨fun b ds hs hnd hlit hf => ?_, fun n d hn hf => ?_, fun n _ hf => ?_⟩⟩
  · rw [exec_lit, lit, if_pos (sizeDone_iff.mpr ⟨hdef, hrem⟩)]
    rfl
  · rw [exec_srep, srep, chkBack_unreached hs.window.cursor hs.dict hr]
    rfl
  · rw [exec_lit, lit_of_not_done hnd, litByte_unreached hs hstate hr]
    rfl
  · intro s u n hs hn raises
    have hraises {i f ds} (hu : decides ds s = some u) (he : exec i s = settle s (checkedCopy n (u.withSt f))) :
        raises i f :=
      ⟨exec_of_checkedCopy_unreached hs hu he, exec_of_checkedCopy_short hs hu he hn⟩
    refine ⟨fun d hne hu => hraises hu (exec_simpleMatch_eq hne hn hu), ?_⟩
    · intro hu after
      have hrep {i f} (hi : exec i s = settle s (repTail (s.withSt f))) : raises i (repFsm f) :=
        hraises hu (exec_rep_eq hi hn hu)
      exact ⟨hrep (f := s.st) rfl, hrep (f := promote1 s.st) rfl, hrep (f := promote2 s.st) rfl,
        hrep (f := promote3 s.st) rfl⟩
  · rw [exec_lit, lit_of_not_done hnd, litByte_fails hs hlit hf]
    rfl
  · rw [exec_simpleMatch, simpleMatch_fails hn hf, settle_raised]
    rfl
  · have hrep {i} (f : Fsm) (hi : exec i s = settle s (repTail (s.withSt f))) : exec i s = .next (t.withSt f) := by
      rw [hi, repTail_fails (failsAfter_withSt f hf), settle_raised]
    have hrep0 : exec .rep0 s = .next t := settle_eq_next.mpr (.inr (.inl (repTail_fails hf)))
    exact ⟨hrep0, hrep (promote1 s.st) rfl, hrep (promote2 s.st) rfl, hrep (promote3 s.st) rfl⟩

end Sys2Proof.StateMachine
end

section
/-! SUPPORT. No rule stops the machine: its slot indices stay inside their tables and its window accesses inside what
was written (44_window.md R229; 20_memory.md R54, R69). Where a rule goes on from a decision, `Res.Yields` says what
holds there. -/
namespace Sys2Proof.Machine

/-! ### Rules that do not stop -/

/-- The rule does not stop the machine, and if it completes, then as `P` says. -/
def Res.Surely {α : Type} (r : Res α) (P : α → State → Prop) : Prop :=
  match r with
  | .ok a s => P a s
  | .raised _ => True
  | .held => True
  | .bad _ => False

/-- The rule does not stop the machine. -/
abbrev Res.NeverStops {α : Type} (r : Res α) : Prop := r.Surely fun _ _ => True

theorem Res.neverStops_iff {α : Type} {r : Res α} : r.NeverStops ↔ ∀ f, r ≠ .bad f := by
  cases r <;> simp [Res.Surely]

theorem Res.NeverStops.surely {α : Type} {r : Res α} {P : α → State → Prop} (h : r.NeverStops)
    (hP : ∀ a s, r = .ok a s → P a s) : r.Surely P := by
  cases r with
  | ok a s => exact hP a s rfl
  | raised s => trivial
  | held => trivial
  | bad f => exact h

theorem Res.Surely.mono {α : Type} {r : Res α} {P Q : α → State → Prop} (h : r.Surely P)
    (hPQ : ∀ a s, P a s → Q a s) : r.Surely Q := by
  cases r with
  | ok a s => exact hPQ a s h
  | raised s => trivial
  | held => trivial
  | bad f => exact h

theorem Res.Yields.surely {α : Type} {r : Res α} {P : α → State → Prop} (hP : r.Yields P) (h : r.NeverStops) :
    r.Surely P :=
  h.surely (Res.yields_iff.mp hP).1

theorem Res.Surely.bind {α β : Type} {r : Res α} {f : α → State → Res β} {P : α → State → Prop}
    {Q : β → State → Prop} (h : r.Surely P) (hf : ∀ a s, P a s → (f a s).Surely Q) : (r.bind f).Surely Q := by
  cases r with
  | ok a s => exact hf a s h
  | raised s => trivial
  | held => trivial
  | bad f => exact h

/-- The outcome is a next state. -/
def GoesOn (o : Outcome) : Prop := ∃ t, o = .next t

theorem GoesOn.next (t : State) : GoesOn (.next t) := ⟨t, rfl⟩

theorem Res.NeverStops.goesOn {r : Res Unit} (h : r.NeverStops) (s : State) : GoesOn (settle s r) :=
  settle_ne_fault (Res.neverStops_iff.mp h)

/-! ### Pulls and decisions -/

section
variable {T : Table} {base size n m i : Nat} {s : State}

theorem pull_neverStops (s : State) : (pull s).NeverStops := Res.neverStops_iff.mpr (pull_ne_bad s)

theorem pullN_neverStops (n : Nat) (s : State) : (pullN n s).NeverStops := by
  induction n generalizing s with
  | zero => trivial
  | succ n ih => exact (pull_neverStops s).bind fun _ t _ => (ih t).bind fun _ _ _ => trivial

theorem rcNorm_neverStops (s : State) : (rcNorm s).NeverStops := by
  unfold rcNorm
  split
  · exact (pull_neverStops s).bind fun _ _ _ => trivial
  · trivial

/-- RC.BIT on a slot of its table (R122); the properties, which give the literal table its size, stay. -/
theorem rcBit_surely (hi : i < tableSize s.cfg T) : (rcBit T i s).Surely fun _ t => t.cfg = s.cfg := by
  have hgo : (rcBit T i s).NeverStops := by
    rw [rcBit, if_pos hi]
    exact (rcNorm_neverStops _).bind fun _ _ _ => trivial
  refine hgo.surely fun b t e => ?_
  obtain ⟨-, -, -, -, -, -, -, hcfg, -⟩ := decodeFrame_iff.mp (rcBit_frame e).1
  exact hcfg

theorem rcBit_neverStops (hi : i < tableSize s.cfg T) : (rcBit T i s).NeverStops :=
  (rcBit_surely hi).mono fun _ _ _ => trivial

theorem rcDirect_neverStops (n : Nat) (v : Word) (s : State) : (rcDirect n v s).NeverStops := by
  induction n generalizing v s with
  | zero => trivial
  | succ n ih =>
    have hbit : (rcDirectBit s).NeverStops := (rcNorm_neverStops _).bind fun _ _ _ => trivial
    exact hbit.bind fun _ t _ => ih _ t

/-! ### Trees, lengths, literals and distances -/

theorem btWalk_neverStops (hm : (m + 1) * 2 ^ n ≤ 2 * size) (hT : base + size ≤ tableSize s.cfg T) :
    (btWalk T base n m s).NeverStops := by
  induction n generalizing m s with
  | zero => trivial
  | succ n ih =>
    have hnode := (tree_node_fits false hm).1
    exact (rcBit_surely (by omega)).bind fun b t ht => ih (tree_node_fits b hm).2 (by rwa [ht])

theorem btRwalk_neverStops {v : Nat} (hm : (m + 1) * 2 ^ n ≤ 2 * size) (hT : base + size ≤ tableSize s.cfg T) :
    (btRwalk T base n i m v s).NeverStops := by
  induction n generalizing i m v s with
  | zero => trivial
  | succ n ih =>
    have hnode := (tree_node_fits false hm).1
    exact (rcBit_surely (by omega)).bind fun b t ht => ih (tree_node_fits b hm).2 (by rwa [ht])

theorem btDec_neverStops (hT : base + 2 ^ n ≤ tableSize s.cfg T) : (btDec T base n s).NeverStops :=
  (btWalk_neverStops le_rfl hT).bind fun _ _ _ => trivial

theorem btRdec_neverStops (hT : base + 2 ^ n ≤ tableSize s.cfg T) : (btRdec T base n s).NeverStops :=
  btRwalk_neverStops le_rfl hT

theorem lenDec_neverStops (l : LenInst) (ps : BitVec 4) (s : State) : (lenDec l ps s).NeverStops := by
  refine (rcBit_neverStops Nat.one_pos).bind fun c t _ => ?_
  split
  · refine (rcBit_neverStops Nat.one_pos).bind fun c2 u _ => ?_
    split
    · exact (btDec_neverStops (Nat.le_refl 256)).bind fun _ _ _ => trivial
    · exact (btDec_neverStops (Nat.le_refl 8)).bind fun _ _ _ => trivial
  · exact btDec_neverStops (Nat.le_refl 8)

/-- The sub-table of `litState` is one of the literal table (42_literal_distance.md R160). -/
theorem litState_lt (hlc : s.cfg.lc ≤ 8#4) (prev : Byte) :
    litState s prev < 2 ^ (s.cfg.lc.toNat + s.cfg.lp.toNat) := by
  have hlc8 : s.cfg.lc.toNat ≤ 8 := BitVec.le_def.mp hlc
  have hpos : s.win.totalPos % 2 ^ s.cfg.lp.toNat + 1 ≤ 2 ^ s.cfg.lp.toNat := Nat.mod_lt _ (by positivity)
  have hprev : prev.toNat / 2 ^ (8 - s.cfg.lc.toNat) < 2 ^ s.cfg.lc.toNat := by
    rw [Nat.div_lt_iff_lt_mul (by positivity), ← pow_add, Nat.add_sub_cancel' hlc8]
    exact prev.isLt
  calc litState s prev
      < (s.win.totalPos % 2 ^ s.cfg.lp.toNat + 1) * 2 ^ s.cfg.lc.toNat := by
        rw [litState, add_one_mul]
        omega
    _ ≤ 2 ^ s.cfg.lp.toNat * 2 ^ s.cfg.lc.toNat := Nat.mul_le_mul_right _ hpos
    _ = 2 ^ (s.cfg.lc.toNat + s.cfg.lp.toNat) := by rw [← pow_add, Nat.add_comm]

theorem litDec_neverStops {ls : Nat} (hls : ls < 2 ^ (s.cfg.lc.toNat + s.cfg.lp.toNat)) :
    (litDec ls s).NeverStops := by
  have hT : litTable ls + 0x100 ≤ tableSize s.cfg .lit :=
    le_trans (Nat.add_le_add_left (by decide) _) (litTable_le_tableSize hls)
  exact (btWalk_neverStops (m := 1) (n := 8) le_rfl hT).bind fun _ _ _ => trivial

/-- While the match byte counts, a node stands in the second or third part of its sub-table (R163). -/
theorem litMatched_neverStops {mb : Byte} {same : Bool} (hm : (m + 1) * 2 ^ n ≤ 2 * 0x100)
    (hT : base + 0x300 ≤ tableSize s.cfg .lit) : (litMatched base mb n same m s).NeverStops := by
  induction n generalizing same m s with
  | zero => trivial
  | succ n ih =>
    have hnode := (tree_node_fits false hm).1
    have hbit := (mb.getLsbD n).toNat_lt
    cases same with
    | true => exact (rcBit_surely (by omega)).bind fun b t ht => ih (tree_node_fits b hm).2 (by rwa [ht])
    | false => exact (rcBit_surely (by omega)).bind fun b t ht => ih (tree_node_fits b hm).2 (by rwa [ht])

theorem litDecm_neverStops {ls : Nat} (hls : ls < 2 ^ (s.cfg.lc.toNat + s.cfg.lp.toNat)) (mb : Byte) :
    (litDecm ls mb s).NeverStops :=
  (litMatched_neverStops (m := 1) (n := 8) le_rfl (litTable_le_tableSize hls)).bind fun _ _ _ => trivial

theorem distDec_neverStops (n : Nat) (s : State) : (distDec n s).NeverStops := by
  refine (btDec_neverStops (Nat.le_refl 64)).bind fun slot t _ => ?_
  unfold distLow
  split
  · trivial
  · split
    · exact (btRdec_neverStops (posDec_fits t.cfg ‹_›)).bind fun _ _ _ => trivial
    · refine (rcDirect_neverStops _ _ t).bind fun _ u _ => ?_
      exact (btRdec_neverStops (Nat.le_refl 16)).bind fun _ _ _ => trivial

end

end Sys2Proof.Machine
end

section
/-! SUPPORT. A pass of phase RUN never stops the machine: CHK_BACK stands before every read of the window, and the FSM
state and the position state name slots of their tables (43_state_machine.md R187, R204). -/
namespace Sys2Proof.Machine

variable {R : Prop} {n : Nat} {s : State}

/-! ### Parts of the operations -/

theorem Running.ready (h : Running R n s) : Ready s where
  window := h.window.1
  dict := h.window.2
  lc := h.stored.lc
  lp := h.stored.lp
  pb := h.stored.pb
  fsm := h.stored.fsm

theorem winGet_surely (hw : WinOk s.win) {d : Nat} (h1 : 1 ≤ d) (h2 : d ≤ winValid s.win) :
    (winGet d s).Surely fun _ t => t = s := by
  obtain ⟨b, -, e⟩ := winGet_ok hw h1 h2
  rw [e]
  rfl

theorem winPut_neverStops (hc : s.win.pos < s.win.size) (b : Byte) : (winPut b s).NeverStops := by
  rw [winPut_ok hc]
  trivial

/-- CHK_BACK lets a distance pass that the window holds (R204). -/
theorem chkBack_surely (h : Ready s) :
    (chkBack s).Surely fun _ t => t = s ∧ s.st.rep0.toNat + 1 ≤ winValid s.win := by
  unfold chkBack
  split
  · exact ⟨rfl, (backOk_iff h.window.cursor h.dict).mp ‹_›⟩
  · trivial

theorem copy_neverStops (h : Ready s) (hn : n ≤ 271) (hr : s.st.rep0.toNat + 1 ≤ winValid s.win) :
    (copy n s).NeverStops := by
  have hsize := h.window.readable.size
  have hcopy {k : Nat} (hk : k ≤ n + 2) : (winCopy (s.st.rep0.toNat + 1) k s).NeverStops := by
    obtain ⟨w, -, e⟩ := winCopy_ok k h.window.readable (Nat.le_add_left 1 _) hr (by omega)
    rw [e]
    trivial
  unfold copy
  dsimp only
  split
  case isTrue hrem =>
    have hlt : s.rem.toNat < n + 2 := of_decide_eq_true (Bool.and_eq_true_iff.mp hrem).2
    exact (hcopy hlt.le).bind fun _ _ _ => trivial
  case isFalse => exact (hcopy le_rfl).bind fun _ _ _ => trivial

theorem checkedCopy_neverStops (h : Ready s) (hn : n ≤ 271) : (checkedCopy n s).NeverStops :=
  (chkBack_surely h).bind fun _ _ ⟨ht, hr⟩ => ht ▸ copy_neverStops h hn hr

theorem stop_neverStops (c : Cause) (s : State) : (stop c s).NeverStops := by
  unfold stop chunkEnd
  split_ifs <;> trivial

/-! ### The symbol-level operations -/

theorem litByte_neverStops (h : Ready s) : (litByte s).NeverStops := by
  obtain ⟨prev, hp⟩ := exists_prevByte h
  rw [litByte_of_prevByte h hp]
  have hls := litState_lt h.lc prev
  split
  · refine (chkBack_surely h).bind fun _ t ⟨ht, hr⟩ => ?_
    subst ht
    refine (winGet_surely h.window (Nat.le_add_left 1 _) hr).bind fun mb u hu => ?_
    subst hu
    exact litDecm_neverStops hls mb
  · exact litDec_neverStops hls

theorem lit_neverStops (h : Running R 273 s) : (lit s).NeverStops := by
  unfold lit
  split
  · trivial
  · refine ((litByte_yields h).surely (litByte_neverStops h.ready)).bind fun b t ht => ?_
    exact (winPut_neverStops ht.window.1.cursor b).bind fun _ _ _ => trivial

theorem eos_neverStops (s : State) : (eos s).NeverStops := by
  unfold eos
  split
  · trivial
  · split
    · trivial
    · exact stop_neverStops _ s

theorem simpleMatch_neverStops (h : Running R 273 s) : (simpleMatch s).NeverStops := by
  have hlen := lenDec_yields (h.withSt (f := rotateReps s.st) h.stored.fsm) .len (posState s)
  refine (hlen.surely (lenDec_neverStops _ _ _)).bind fun n t ⟨ht, hn⟩ => ?_
  have hdist := distDec_yields (ht.withSt (f := { t.st with state := afterMatch t.st.state }) (afterMatch_lt _)) n
  refine (hdist.surely (distDec_neverStops _ _)).bind fun d u hu => ?_
  dsimp only
  split
  · exact eos_neverStops _
  · exact checkedCopy_neverStops (hu.withSt (f := { u.st with rep0 := d }) hu.stored.fsm).ready hn

theorem srep_neverStops (h : Ready s) : (srep s).NeverStops := by
  refine (chkBack_surely h).bind fun _ t ⟨ht, hr⟩ => ?_
  subst ht
  refine (winGet_surely h.window (Nat.le_add_left 1 _) hr).bind fun b u hu => ?_
  subst hu
  exact (winPut_neverStops h.window.cursor b).bind fun _ _ _ => trivial

theorem repTail_neverStops (h : Running R 273 s) : (repTail s).NeverStops := by
  refine ((lenDec_yields h _ _).surely (lenDec_neverStops _ _ _)).bind fun n t ⟨ht, hn⟩ => ?_
  exact checkedCopy_neverStops (ht.withSt (afterRep_lt _)).ready hn

/-! ### Fetching a symbol -/

/-- The slot of `state` and `posState` is one of the 12 times 16 (R187). -/
theorem stateIndex_lt {x : BitVec 4} (hx : x < 12#4) (ps : BitVec 4) : stateIndex x ps < 192 := by
  have hx' : x.toNat < 12 := BitVec.lt_def.mp hx
  have := ps.isLt
  unfold stateIndex
  omega

theorem Running.rcBit_surely (h : Running R n s) {T : Table} {i : Nat} (hi : i < tableSize s.cfg T) :
    (rcBit T i s).Surely fun _ t => Running R n t :=
  (rcBit_yields h T i).surely (rcBit_neverStops hi)

theorem fetchRep_surely (h : Running R 273 s) (ps : BitVec 4) :
    (fetchRep ps s).Surely fun i t => GoesOn (exec i t) := by
  have hfsm := h.stored.fsm
  have hstate : s.st.state.toNat < 12 := BitVec.lt_def.mp hfsm
  have rep {t : State} (ht : Running R 273 t) {f : Fsm} (hf : f.state < 12#4) :
      GoesOn (settle t (repTail (t.withSt f))) := (repTail_neverStops (ht.withSt hf)).goesOn t
  unfold fetchRep
  dsimp only
  split
  · trivial
  split
  · trivial
  refine (h.rcBit_surely hstate).bind fun g0 t ht => ?_
  split
  · refine (ht.rcBit_surely hstate).bind fun g1 u hu => ?_
    split
    · refine (hu.rcBit_surely hstate).bind fun g2 v hv => ?_
      cases g2 with
      | true => exact rep hv (f := promote3 v.st) hv.stored.fsm
      | false => exact rep hv (f := promote2 v.st) hv.stored.fsm
    · exact rep hu (f := promote1 u.st) hu.stored.fsm
  · refine (ht.rcBit_surely (stateIndex_lt hfsm ps)).bind fun l u hu => ?_
    cases l with
    | true => exact (repTail_neverStops hu).goesOn u
    | false => exact (srep_neverStops hu.ready).goesOn u

theorem fetchSymbol_surely (h : Running R 273 s) : (fetchSymbol s).Surely fun i t => GoesOn (exec i t) := by
  refine (h.rcBit_surely (stateIndex_lt h.stored.fsm _)).bind fun m t ht => ?_
  split
  · refine (ht.rcBit_surely (BitVec.lt_def.mp h.stored.fsm)).bind fun r u hu => ?_
    split
    · exact fetchRep_surely hu _
    · exact (simpleMatch_neverStops hu).goesOn u
  · exact (lit_neverStops ht).goesOn t

end Sys2Proof.Machine
end

section
/-! SUPPORT. Headers, commands, chunk kinds and SNK never stop the machine, so no move of an agent does. -/
namespace Sys2Proof.Machine

/-! ### Checks and headers -/

theorem propCheck_neverStops (d : Byte) (s : State) : (propCheck d s).NeverStops := by
  unfold propCheck
  split_ifs <;> trivial

theorem dictCheck_neverStops (d : Word) (s : State) : (dictCheck d s).NeverStops := by
  unfold dictCheck
  split <;> trivial

theorem hdr1_neverStops (d : Byte) (dict : Word) (u : BitVec 64) (s : State) : (hdr1 d dict u s).NeverStops :=
  (propCheck_neverStops d s).bind fun _ t _ => (dictCheck_neverStops dict t).bind fun _ _ _ => trivial

theorem fetchHdr1_surely (s : State) : (fetchHdr1 s).Surely fun i t => GoesOn (exec i t) :=
  (pullN_neverStops 13 s).bind fun _ t _ => (hdr1_neverStops _ _ _ t).goesOn t

theorem fetchPrologue_surely (s : State) : (fetchPrologue s).Surely fun i t => GoesOn (exec i t) := by
  have hpull := pullN_neverStops 5 s
  unfold fetchPrologue
  cases e : pullN 5 s with
  | ok b t => exact GoesOn.next _
  | raised t => trivial
  | held => trivial
  | bad f => exact Res.neverStops_iff.mp hpull f e

/-! ### Commands of HOST -/

theorem startRaw_neverStops (d : Byte) (dict : Word) (sd : Bool) (u : BitVec 64) (shared : Bool) (s : State) :
    (startRaw d dict sd u shared s).NeverStops := by
  refine (propCheck_neverStops _ _).bind fun _ t _ => ?_
  cases shared with
  | true => trivial
  | false => exact (dictCheck_neverStops dict t).bind fun _ _ _ => trivial

theorem startLzma2_neverStops (dict : Word) (s : State) : (startLzma2 dict s).NeverStops :=
  (dictCheck_neverStops dict _).bind fun _ _ _ => trivial

theorem reopen_neverStops (sd : Bool) (u : BitVec 64) (rs np : Bool) (d : Byte) (rd : Bool) (s : State) :
    (reopen sd u rs np d rd s).NeverStops := by
  refine Res.Surely.bind (P := fun _ _ => True) ?_ fun _ t _ => ?_
  · cases np with
    | true => exact (propCheck_neverStops d _).bind fun _ _ _ => trivial
    | false => trivial
  · dsimp only
    split_ifs <;> trivial

/-- A command that is not accepted changes nothing (R250). -/
theorem Res.NeverStops.command {c : Prop} {_ : Decidable c} {r : Res Unit} (hr : r.NeverStops) (s : State) :
    GoesOn (if c then settle s r else .next s) := by
  split
  · exact hr.goesOn s
  · exact .next s

theorem commandTurn_goesOn (w : HostWord) (s : State) : GoesOn (commandTurn w s) := by
  unfold commandTurn decodeHost
  split
  · rename_i i hi
    split at hi <;> cases hi
    · exact .next _
    · exact Res.NeverStops.command (r := .ok () (startLzma1 s)) trivial s
    · exact (startRaw_neverStops _ _ _ _ _ s).command s
    · exact (startLzma2_neverStops _ s).command s
    · exact (reopen_neverStops _ _ _ _ _ _ s).command s
  · exact .next s

/-! ### Chunk kinds and the raw copy -/

theorem oldDecoder_neverStops (s : State) : (oldDecoder s).NeverStops := by
  unfold oldDecoder
  split <;> trivial

theorem newDecoder_neverStops (d : Byte) (s : State) : (newDecoder d s).NeverStops :=
  (propCheck_neverStops d _).bind fun _ _ _ => trivial

theorem c2Lzma3_neverStops (u : BitVec 21) (c : BitVec 16) (d : Byte) (s : State) :
    (c2Lzma3 u c d s).NeverStops := by
  refine (newDecoder_neverStops d _).bind fun _ t _ => ?_
  split <;> trivial

/-- Whatever the control byte, its operation is one of the table (R272). -/
theorem chunkOf_goesOn (c : Byte) (x : List Byte) (s : State) : GoesOn (exec (chunkOf c x) s) := by
  have ends {r : Res Unit} (hr : r.NeverStops) (f : State → State) :
      GoesOn (settle s (r.bind fun _ t => .ok () (f t))) := by
    have hgo : (r.bind fun _ t => Res.ok () (f t)).NeverStops := hr.bind fun _ _ _ => trivial
    exact hgo.goesOn s
  unfold chunkOf
  split_ifs
  · exact .next _
  · exact .next _
  · exact .next _
  · exact .next _
  · exact ends (oldDecoder_neverStops _) lzmaEnd
  · exact ends (oldDecoder_neverStops _) fun t => lzmaEnd (smReset t)
  · exact ends (newDecoder_neverStops _ _) lzmaEnd
  · exact (c2Lzma3_neverStops _ _ _ s).goesOn s

theorem fetchC2Rest_surely (c : Byte) (s : State) : (fetchC2Rest c s).Surely fun i t => GoesOn (exec i t) :=
  (pullN_neverStops _ s).bind fun x t _ => chunkOf_goesOn c x t

theorem fetchChunk_surely (s : State) : (fetchChunk s).Surely fun i t => GoesOn (exec i t) :=
  (pull_neverStops s).bind fun c _ _ => fetchC2Rest_surely c _

variable {R : Prop} {s : State}

theorem rawCopy_neverStops (h : Kept R s) (hp : s.phase = .c2raw) : (rawCopy s).NeverStops := by
  obtain ⟨⟨hm, ha, hw, hst⟩, -⟩ : Chunked s ∧ 1 ≤ s.c2.rawLeft.toNat ∧ s.c2.rawLeft.toNat ≤ 65536 := by
    simpa only [Control, hp] using h.control
  have hwin := (h.stored.window ha).1
  have hmay : MayRaise s := ⟨h.stored, by simp [hm], hw⟩
  unfold rawCopy
  rw [if_pos hp]
  split
  · trivial
  split
  · trivial
  · refine ((pull_yields hmay).surely (pull_neverStops s)).bind fun b t ⟨_, _, _, ht⟩ => ?_
    have hc : t.win.pos < t.win.size := by
      rw [ht]
      exact hwin.cursor
    exact (winPut_neverStops hc b).bind fun _ _ _ => trivial

/-! ### A move of CORE -/

theorem GoesOn.afterExec {o : Outcome} (h : GoesOn o) (s : State) : GoesOn (afterExec s o) := by
  obtain ⟨t, rfl⟩ := h
  simp only [Machine.afterExec]
  split <;> exact .next _

theorem Res.Surely.execFetched {r : Res Instr} (h : r.Surely fun i t => GoesOn (exec i t)) (s : State) :
    GoesOn (execFetched s r) := by
  cases r with
  | ok i t => exact GoesOn.afterExec h s
  | raised t => exact .next t
  | held => exact .next _
  | bad f => exact h.elim

theorem runPass_goesOn (h : Running R 273 s) : GoesOn (runPass s) := by
  unfold runPass
  split
  · exact (stop_neverStops _ s).goesOn s
  · exact (fetchSymbol_surely h).execFetched s

theorem corePhase_goesOn (h : Kept R s) : GoesOn (corePhase s) := by
  unfold corePhase
  split <;> rename_i hp
  · exact .next _
  · exact (fetchHdr1_surely s).execFetched s
  · exact (fetchPrologue_surely s).execFetched s
  · split
    · exact runPass_goesOn (h.running hp ‹_›)
    · exact .next _
  · exact (fetchChunk_surely s).execFetched s
  · exact (fetchC2Rest_surely _ s).execFetched s
  · exact ((rawCopy_neverStops h hp).goesOn s).afterExec s
  · exact .next _
  · exact .next _

theorem coreTurn_goesOn (h : Kept R s) : GoesOn (coreTurn s) := by
  simp only [coreTurn]
  split
  · split <;> exact .next _
  · exact corePhase_goesOn (h.withEnv _)

/-! ### A move of SNK -/

/-- What is pending is in the window (R227). -/
theorem winDrain_neverStops (h : Stored s) : (winDrain s).NeverStops := by
  unfold winDrain
  split
  · trivial
  · rename_i hp
    have ha : s.win.allocated = true := by
      refine Bool.of_not_eq_false fun hb => hp ?_
      rw [h.bare hb]
      rfl
    have hw := (h.window ha).1
    exact (winGet_surely hw (Nat.pos_of_ne_zero hp) hw.pending).bind fun _ _ _ => trivial

theorem faultTurn_goesOn (h : Stored s) : GoesOn (faultTurn s) := by
  unfold faultTurn
  dsimp only
  split
  · exact .next _
  split
  · exact .next _
  split
  · exact .next _
  · exact (winDrain_neverStops h).goesOn s
  · split
    · exact (winDrain_neverStops (s := s.withFree (s.free + 1)) h).goesOn _
    · exact .next _

theorem snkTurn_goesOn (h : Stored s) : GoesOn (snkTurn s) := by
  unfold snkTurn
  split
  · exact faultTurn_goesOn h
  split
  · exact (winDrain_neverStops h).goesOn s
  split <;> exact .next _

/-! ### A step -/

theorem takeTurn_goesOn (h : Kept R s) (m : Turn) : GoesOn (takeTurn m s) := by
  cases m with
  | core => exact coreTurn_goesOn h
  | snk => exact snkTurn_goesOn h.stored
  | src a => exact .next _
  | command w => exact commandTurn_goesOn w s
  | readStatus => exact .next _
  | attach a => exact .next _

theorem step_goesOn (h : Kept R s) : GoesOn (step s) := by
  cases hm : s.env.turns with
  | nil => exact step_unlisted hm ▸ takeTurn_goesOn h _
  | cons m ms => exact step_listed hm ▸ takeTurn_goesOn (h.withEnv _) m

end Sys2Proof.Machine
end

section
/-! PROOFS. The obligation that no step stops. -/
namespace Sys2Proof.Machine

/-- Settles O9: whoever's move it is, its rule never stops the machine (`step_goesOn`). -/
theorem stepsNeverStop : Obligations.StepsNeverStop := by
  intro s h
  have hs : Kept False s := kept_iff.mpr ⟨h, False.elim⟩
  exact step_goesOn hs

end Sys2Proof.Machine
end

section
/-! SUPPORT. The window's instructions on the cells that distances name: what WIN.PUT does to them and to the pending
bytes (44_window.md R221, R222, R227), and SNK's move case by case (60_exceptions.md R304, R306). -/
namespace Sys2Proof.Machine

/-! ### The instructions -/

theorem exec_winPut (b : Byte) (s : State) : exec (.winPut b) s = settle s (winPut b s) := rfl

theorem exec_winGet (d : Nat) (s : State) : exec (.winGet d) s = settleRet s .byte (winGet d s) := rfl

theorem exec_winCopy (d n : Nat) (s : State) : exec (.winCopy d n) s = settle s (winCopy d n s) := rfl

theorem exec_winDrain (s : State) : exec .winDrain s = settle s (winDrain s) := rfl

theorem exec_winPut_of_cursor {s : State} (hc : s.win.pos < s.win.size) (b : Byte) :
    exec (.winPut b) s = .next (s.withWin (putWin b s.win)) := by
  rw [exec_winPut, winPut_ok hc, settle_ok]

theorem exec_winGet_of_cell {s : State} (hc : s.win.pos < s.win.size) {d : Nat} {b : Byte} (h1 : 1 ≤ d)
    (h2 : d ≤ winValid s.win) (hb : cellGet s.win.buf (winCell s.win d) = some b) :
    exec (.winGet d) s = .next { s with ret := .byte b } := by
  rw [exec_winGet, winGet_of_cell hc h1 h2 hb, settleRet_ok]
  rfl

/-- What WIN.GET answered stands in the cell it names. -/
theorem cell_of_exec_winGet {d : Nat} {s : State} {x : Byte} (hw : WinOk s.win) (h1 : 1 ≤ d)
    (h2 : d ≤ winValid s.win) (h : exec (.winGet d) s = .next { s with ret := .byte x }) :
    cellGet s.win.buf (winCell s.win d) = some x := by
  obtain ⟨b, hb, hget⟩ := winGet_ok hw h1 h2
  rw [exec_winGet, hget, settleRet_ok] at h
  injection h with h
  have hret : Ret.byte b = .byte x := congrArg State.ret h
  cases hret
  exact hb

/-- WIN.DRAIN hands SNK the byte it reads. -/
theorem exec_winDrain_of_cell {s : State} (hw : WinOk s.win) (hp : 0 < s.win.pending) {b : Byte}
    (hb : cellGet s.win.buf (winCell s.win s.win.pending) = some b) :
    exec .winDrain s = .next { s with
      win := { s.win with pending := s.win.pending - 1 }
      env := { s.env with out := s.env.out ++ [.byte b] } } := by
  rw [exec_winDrain, winDrain, if_neg (Nat.ne_of_gt hp), winGet_of_cell hw.cursor hp hw.pending hb, Res.bind_ok,
    settle_ok]
  rfl

/-! ### WIN.PUT and the cells of distances -/

theorem winCell_withPending (w : Win) (n d : Nat) : winCell { w with pending := n } d = winCell w d := rfl

/-- The byte WIN.PUT writes is at distance 1. -/
theorem cellGet_putWin_one {w : Win} (hc : w.pos < w.size) (b : Byte) :
    cellGet (putWin b w).buf (winCell (putWin b w) 1) = some b := by
  rw [winCell_putWin_one hc, putWin_buf, cellGet_cellPut_same]

/-- Every other byte is one further on. -/
theorem cellGet_putWin_succ {w : Win} (hc : w.pos < w.size) (b : Byte) {d : Nat} (h1 : 1 ≤ d)
    (h2 : d < w.size.toNat) :
    cellGet (putWin b w).buf (winCell (putWin b w) (d + 1)) = cellGet w.buf (winCell w d) := by
  rw [winCell_putWin_succ hc b h1 h2, putWin_buf, cellGet_cellPut_other _ _ _ _ (winCell_ne_pos hc h1 h2)]

/-- WIN.PUT makes one more cell reachable at most. -/
theorem winValid_putWin_le {w : Win} (hc : w.pos < w.size) (b : Byte) :
    winValid (putWin b w) ≤ winValid w + 1 := by
  rw [winValid_putWin w hc, winValid]
  split <;> omega

theorem winValid_putWin_pos {w : Win} (hc : w.pos < w.size) (b : Byte) : 1 ≤ winValid (putWin b w) := by
  have := BitVec.lt_def.mp hc
  rw [winValid_putWin w hc]
  split <;> omega

/-! ### The pending bytes -/

theorem pendingBytes_putWin {w : Win} (hc : w.pos < w.size) (hp : w.pending < w.size.toNat) (b : Byte) :
    pendingBytes (putWin b w) = pendingBytes w ++ [some b] := by
  have hold : ∀ k ∈ List.range w.pending, cellGet (putWin b w).buf (winCell (putWin b w) (w.pending + 1 - k)) =
      cellGet w.buf (winCell w (w.pending - k)) := by
    intro k hk
    have hlt := List.mem_range.mp hk
    rw [Nat.sub_add_comm hlt.le]
    exact cellGet_putWin_succ hc b (by omega) (by omega)
  rw [pendingBytes, putWin_pending, List.range_succ, List.map_append, List.map_congr_left hold, List.map_singleton,
    Nat.add_sub_cancel_left, cellGet_putWin_one hc]
  rfl

/-- The oldest pending byte is the one `pending` back. -/
theorem pendingBytes_eq_cons {w : Win} (hp : 0 < w.pending) :
    pendingBytes w = cellGet w.buf (winCell w w.pending) :: pendingBytes { w with pending := w.pending - 1 } := by
  obtain ⟨n, hn⟩ := Nat.exists_eq_succ_of_ne_zero hp.ne'
  rw [pendingBytes, pendingBytes, hn, List.range_succ_eq_map, List.map_cons, List.map_map, Nat.sub_zero]
  congr 1
  exact List.map_congr_left fun k _ => by simp [winCell_withPending]

/-! ### SNK's move -/

section
variable {s : State}

/-- A run goes on or has ended cleanly: SNK takes what is pending (20_memory.md R61). -/
theorem snkTurn_of_pending (hf : s.phase ≠ .fault) (hp : s.win.pending ≠ 0) : snkTurn s = exec .winDrain s := by
  rw [snkTurn, if_neg hf, if_pos (Nat.pos_of_ne_zero hp)]
  rfl

/-- After the last byte of a run that has ended SNK is told so once (45_lzma1_reader.md R247). -/
theorem snkTurn_of_done (hd : s.phase = .done) (hp : s.win.pending = 0) (hw : s.wait = none) :
    snkTurn s = .next (if s.env.indGiven then s else indicate .endOfStream s) := by
  have hf : s.phase ≠ .fault := by simp [hd]
  have hdue : endDue s = !s.env.indGiven := by simp [endDue, hd, hw]
  rw [snkTurn, if_neg hf, if_neg (by omega), hdue]
  cases s.env.indGiven <;> rfl

variable (hf : s.phase = .fault)
include hf

theorem snkTurn_of_told (hi : s.env.indGiven = true) : snkTurn s = .next s := by
  rw [snkTurn, if_pos hf, faultTurn, if_pos hi]

variable (hi : s.env.indGiven = false)
include hi

/-! After a fault, before SNK is told: `DRAIN_ON_FAULT` decides on the pending bytes (60_exceptions.md R306). -/

theorem snkTurn_error (h : s.win.pending = 0 ∨ s.par.drainOnFault = .nothing) :
    snkTurn s = .next (indicate .error s) := by
  rw [snkTurn, if_pos hf, faultTurn, if_neg (by simp [hi])]
  by_cases hp : s.win.pending = 0
  · exact if_pos hp
  · rw [if_neg hp, h.resolve_left hp]

theorem snkTurn_drains (hp : s.win.pending ≠ 0) (hd : s.par.drainOnFault = .all) :
    snkTurn s = exec .winDrain s := by
  rw [snkTurn, if_pos hf, faultTurn, if_neg (by simp [hi]), if_neg hp, hd]
  rfl

theorem snkTurn_drains_or_error (hp : s.win.pending ≠ 0) (hd : s.par.drainOnFault = .any) :
    snkTurn s = exec .winDrain (s.withFree (s.free + 1)) ∨
      snkTurn s = .next (indicate .error (s.withFree (s.free + 1))) := by
  rw [snkTurn, if_pos hf, faultTurn, if_neg (by simp [hi]), if_neg hp, hd]
  dsimp only
  split
  · exact .inl rfl
  · exact .inr rfl

end

end Sys2Proof.Machine
end

section
/-! PROOFS. The obligations on the window. (In a namespace of their own: the model's operations have the names of these
statements.) -/
namespace Sys2Proof.Window
open Machine

/-- Settles O31: WIN.INIT is always performed, WIN.RESET with nothing pending. -/
theorem windowResets : Obligations.WindowResets :=
  fun _ _ => ⟨rfl, fun hp => if_pos hp, fun hp => if_neg hp⟩

/-- Settles O32: one WIN.PUT, as `advanced_putWin` says it. -/
theorem winPut : Obligations.WinPut := by
  intro b s hc
  refine ⟨_, exec_winPut_of_cursor hc b, rfl, advanced_putWin hc b, ?_⟩
  exact cellGet_cellPut_same _ _ _

/-- Settles O33: inside the range the cell has been written (`winGet_ok`), outside it WIN.GET reads nothing. -/
theorem winGet : Obligations.WinGet := by
  refine fun dist s => ⟨fun hw h1 h2 => ?_, fun h => ?_⟩
  · obtain ⟨b, hb, -⟩ := winGet_ok hw h1 h2
    exact ⟨b, hb, exec_winGet_of_cell hw.cursor h1 h2 hb⟩
  · have hget : Machine.winGet dist s = .bad .winGetRange := if_neg h
    rw [exec_winGet, hget]
    rfl

/-- Settles O34: after WIN.PUT the new byte is at distance 1 (`cellGet_putWin_one`) and every other one further on
(`cellGet_putWin_succ`). -/
theorem getReturnsThePuts : Obligations.GetReturnsThePuts := by
  intro b s t hw hput
  have hc := hw.cursor
  rw [exec_winPut_of_cursor hc] at hput
  injection hput with ht
  subst ht
  have hc' := (hw.readable.putWin b).cursor
  refine ⟨exec_winGet_of_cell hc' le_rfl (winValid_putWin_pos hc b) (cellGet_putWin_one hc b), ?_⟩
  intro d x h1 h2 hget
  have hvalid : d ≤ winValid s.win := Nat.le_of_succ_le_succ (h2.trans (winValid_putWin_le hc b))
  have hlt : d < s.win.size.toNat := h2.trans (winValid_le hc')
  refine exec_winGet_of_cell hc' (Nat.le_add_left 1 d) h2 ?_
  exact (cellGet_putWin_succ hc b h1 hlt).trans (cell_of_exec_winGet hw h1 hvalid hget)

/-- Settles O35: the copy of `winCopy_ok`; a window has at least 4096 cells. -/
theorem winCopy : Obligations.WinCopy := by
  intro dist n s hw h1 h2 hn
  have hsize := hw.readable.size
  obtain ⟨w, hcopied, hrun⟩ := winCopy_ok n hw.readable h1 h2 (by omega)
  exact ⟨s.withWin w, by rw [exec_winCopy, hrun, settle_ok], rfl, hcopied⟩

/-- Settles O36: what is pending by `pendingBytes_putWin` and `pendingBytes_eq_cons`; SNK's move by the lemmas of
`snkTurn`, one per case. -/
theorem pendingBytesInOrder : Obligations.PendingBytesInOrder := by
  refine ⟨fun s hw => ⟨fun b t hroom hput => ?_, fun hp => ?_, fun hp => ?_⟩, fun s ts hm => ?_⟩
  · rw [exec_winPut_of_cursor hw.cursor] at hput
    injection hput with ht
    subst ht
    exact pendingBytes_putWin hw.cursor hroom b
  · obtain ⟨b, hb, -⟩ := winGet_ok hw hp hw.pending
    exact ⟨b, by rw [pendingBytes_eq_cons hp, hb], exec_winDrain_of_cell hw hp hb⟩
  · have hdrain : winDrain s = .ok () s := if_pos hp
    rw [exec_winDrain, hdrain, settle_ok]
  · intro u told
    have hstep : step s = snkTurn u := step_of_snkMoves hm
    rw [hstep]
    exact ⟨snkTurn_of_pending (s := u), snkTurn_of_done (s := u), snkTurn_of_told (s := u), fun hf hi =>
      ⟨snkTurn_error (s := u) hf hi, snkTurn_drains (s := u) hf hi, snkTurn_drains_or_error (s := u) hf hi⟩⟩

end Sys2Proof.Window
end

section
/-! SUPPORT. The LZMA1 driver and the commands of HOST in whole states: what a header check refuses, what CONSTRUCT and
CMD.REOPEN write, and in which phases a command is accepted (45_lzma1_reader.md R242 to R250). -/
namespace Sys2Proof.Machine

variable {s : State}

/-! ### The header checks, and CONSTRUCT -/

/-- A property byte that is refused raises with its cause (30_encoding.md R84, R85). -/
theorem propCheck_refused {d : Byte} {c : Cause} (h : propsRefused s.par.litBitsCap d c) :
    propCheck d s = .raised (faulted .incorrectProperties c (d.setWidth 32) s) := by
  rcases h with ⟨h225, rfl⟩ | ⟨hlt, hcap, rfl⟩
  · exact propCheck_illegal h225
  · exact propCheck_unsupported hlt hcap

theorem sizeIsDefined_eq (u : BitVec 64) : sizeIsDefined u = decide (u ≠ 0xFFFFFFFFFFFFFFFF#64) := by
  by_cases h : u = 0xFFFFFFFFFFFFFFFF#64 <;> simp [sizeIsDefined, Config.sizeUndefined, h]

/-! The parts of CONSTRUCT as single updates. -/

theorem allocate_eq (ds : Word) (s : State) :
    allocate ds s = { s with cfg := { s.cfg with dictSize := ds }, win := emptyWin ds } := rfl

theorem smReset_eq (s : State) : smReset s = { s with st := zeroFsm, prob := [] } := rfl

theorem construct_eq (lc : BitVec 4) (lp pb : BitVec 3) (ds : Word) (sd : Bool) (u : BitVec 64) (shared : Bool)
    (s : State) : construct lc lp pb ds sd u shared s = { s with
      cfg := { lc := lc, lp := lp, pb := pb, dictSize := if shared then s.cfg.dictSize else ds }
      win := if shared then s.win else emptyWin ds
      st := zeroFsm, prob := [], sizeDefined := sd, rem := if sd then u else s.rem } := by
  rw [construct, loadSize_eq]
  cases shared with
  | true => rfl
  | false =>
    simp only [Bool.false_eq_true, if_false, allocate_eq, smReset_eq]
    rfl

theorem constructRun_eq (p : Byte) (ds : Word) (sd : Bool) (u : BitVec 64) (shared : Bool) (s : State) :
    constructRun p ds sd u shared s = { s with
      cfg := propsCfg p (if shared then s.cfg.dictSize else ds)
      win := if shared then s.win else emptyWin ds
      st := zeroFsm, prob := [], sizeDefined := sd, rem := if sd then u else s.rem, phase := .rcinit } := by
  rw [constructRun, construct_eq]
  rfl

theorem hdr1_refused {p : Byte} {c : Cause} (h : propsRefused s.par.litBitsCap p c) (d : Word) (u : BitVec 64) :
    hdr1 p d u s = .raised (faulted .incorrectProperties c (p.setWidth 32) s) := by
  rw [hdr1, propCheck_refused h]
  rfl

/-- HDR1 goes on to the dictionary size once the property byte is taken. -/
theorem hdr1_legal {p : Byte} (h : propsLegal s.par.litBitsCap p) (d : Word) (u : BitVec 64) :
    hdr1 p d u s =
      (dictCheck d s).bind fun ds s => .ok () (constructRun p ds (sizeIsDefined u) u false s) := by
  rw [hdr1, propCheck_legal h]
  rfl

/-! ### Where a command is accepted, and what a START command writes first -/

theorem beginRun_eq (s : State) : beginRun s = { s with
    status := clearStatus, inCount := 0, wait := none
    env := { s.env with hold := .none, indGiven := false } } := rfl

theorem beginStart_eq (m : Mode) (s : State) : beginStart m s = { s with
    mode := m, status := clearStatus, inCount := 0, rc := { s.rc with corrupted := false }
    win := { s.win with pending := 0 }, c2 := { s.c2 with haveDecoder := false }, wait := none
    env := { s.env with hold := .none, indGiven := false } } := by
  rw [beginStart, beginRun_eq, dropPending]
  rfl

theorem startLzma1_eq (s : State) : startLzma1 s = { beginStart .lzma1 s with phase := .hdr1 } := rfl

theorem Phase.quiet_iff (p : Phase) : p.quiet = true ↔ p = .idle ∨ p = .done ∨ p = .fault := by
  cases p <;> decide

theorem startAccepted_iff : startAccepted s = true ↔ s.phase = .idle ∨ s.phase = .done ∨ s.phase = .fault :=
  s.phase.quiet_iff

theorem reopenAccepted_iff : reopenAccepted s = true ↔ s.phase = .done ∧ (s.mode = .lzma1 ∨ s.mode = .raw) := by
  simp [reopenAccepted]

section
variable (h : startAccepted s = true)
include h

theorem exec_cmdStartLzma1_accepted : exec .cmdStartLzma1 s = .next (startLzma1 s) := if_pos h

theorem exec_cmdStartLzma2_accepted (d : Word) : exec (.cmdStartLzma2 d) s = settle s (startLzma2 d s) := if_pos h

theorem exec_cmdStartRaw_accepted (p : Byte) (d : Word) (sd : Bool) (u : BitVec 64) {shared : Bool}
    (hs : shared = true → s.win.allocated = true) :
    exec (.cmdStartRaw p d sd u shared) s = settle s (startRaw p d sd u shared s) := by
  refine if_pos ?_
  cases shared with
  | true => simp [h, hs rfl]
  | false => simp [h]

end

/-- CMD.START_RAW with a shared window needs one (45_lzma1_reader.md R244). -/
theorem exec_cmdStartRaw_noWindow (h : s.win.allocated = false) (p : Byte) (d : Word) (sd : Bool) (u : BitVec 64) :
    exec (.cmdStartRaw p d sd u true) s = .next s := if_neg (by simp [h])

theorem exec_cmdReopen_accepted (h : reopenAccepted s = true) (sd : Bool) (u : BitVec 64) (rs np : Bool) (p : Byte)
    (rd : Bool) : exec (.cmdReopen sd u rs np p rd) s = settle s (reopen sd u rs np p rd s) := if_pos h

/-! ### CMD.RESET and CMD.START_RAW -/

theorem reset_src (s : State) : (reset s).env.src = s.env.src.drop s.env.hold.taken := rfl

theorem startRaw_refused {p : Byte} {c : Cause} (h : propsRefused s.par.litBitsCap p c) (d : Word) (sd : Bool)
    (u : BitVec 64) (shared : Bool) :
    startRaw p d sd u shared s =
      .raised (faulted .incorrectProperties c (p.setWidth 32) (beginStart .raw s)) := by
  rw [startRaw, propCheck_refused (s := beginStart .raw s) h]
  rfl

/-- With a window of its own CMD.START_RAW goes on to the dictionary size. -/
theorem startRaw_own {p : Byte} (h : propsLegal s.par.litBitsCap p) (d : Word) (sd : Bool) (u : BitVec 64) :
    startRaw p d sd u false s =
      (dictCheck d (beginStart .raw s)).bind fun ds s => .ok () (constructRun p ds sd u false s) := by
  rw [startRaw, propCheck_legal (s := beginStart .raw s) h]
  rfl

theorem startRaw_shared {p : Byte} (h : propsLegal s.par.litBitsCap p) (d : Word) (sd : Bool) (u : BitVec 64) :
    startRaw p d sd u true s = .ok () (constructRun p 0#32 sd u true (beginStart .raw s)) := by
  rw [startRaw, propCheck_legal (s := beginStart .raw s) h]
  rfl

/-! ### CMD.REOPEN -/

/-- CMD.REOPEN up to its dictionary reset (45_lzma1_reader.md R245): a run begins, with the properties and the decoder
reset its flags ask for. -/
def reopened (rs np : Bool) (p : Byte) (s : State) : State :=
  { beginRun s with
    cfg := if np then propsCfg p s.cfg.dictSize else s.cfg
    st := if np || rs then zeroFsm else s.st
    prob := if np || rs then [] else s.prob }

/-- CMD.REOPEN with properties that are legal, if it brings any: after `reopened` the dictionary reset, which needs
that nothing is pending, and the size. -/
theorem reopen_legal {np : Bool} {p : Byte} (h : np = true → propsLegal s.par.litBitsCap p) (sd : Bool)
    (u : BitVec 64) (rs rd : Bool) :
    reopen sd u rs np p rd s = .ok () (
      if rd then
        if s.win.pending = 0 then reopenEnd sd u (winReset (reopened rs np p s))
        else onHold .snk ((reopened rs np p s).withWait (some (.reopen sd u)))
      else reopenEnd sd u (reopened rs np p s)) := by
  have hprops : (if np then
        (propCheck p (beginRun s)).bind fun _ t =>
          Res.ok () (loadProps (propLc p) (propLp p) (propPb p) t)
      else Res.ok () (beginRun s)) =
      .ok () { beginRun s with cfg := if np then propsCfg p s.cfg.dictSize else s.cfg } := by
    cases np with
    | true =>
      rw [if_pos rfl, propCheck_legal (s := beginRun s) (h rfl)]
      rfl
    | false => rfl
  have hreset (t : State) : (if np || rs then smReset t else t) = { t with
      st := if np || rs then zeroFsm else t.st, prob := if np || rs then [] else t.prob } := by
    cases np || rs <;> rfl
  rw [reopen, hprops, Res.bind_ok]
  dsimp only
  rw [hreset]
  cases rd with
  | true => exact (apply_ite (Res.ok ()) _ _ _).symm
  | false => rfl

theorem reopen_refused {p : Byte} {c : Cause} (h : propsRefused s.par.litBitsCap p c) (sd : Bool) (u : BitVec 64)
    (rs rd : Bool) :
    reopen sd u rs true p rd s = .raised (faulted .incorrectProperties c (p.setWidth 32) (beginRun s)) := by
  rw [reopen, if_pos rfl, propCheck_refused (s := beginRun s) h]
  rfl

/-- `reopenEnd` in full. -/
theorem reopenEnd_eq (sd : Bool) (u : BitVec 64) (s : State) : reopenEnd sd u s =
    { s with sizeDefined := sd, rem := if sd then u else s.rem, phase := .rcinit } := by
  rw [reopenEnd, loadSize_eq]
  rfl

/-! ### `STATUS` -/

/-- A function agrees with a table of its values. -/
theorem eq_of_mem_table {α β : Type} {f : α → β} {l : List (α × β)} (h : ∀ x ∈ l, f x.1 = x.2) {a : α} {b : β}
    (hm : (a, b) ∈ l) : f a = b := h (a, b) hm

theorem statusView_busy (s : State) :
    (statusView s).busy = false ↔ s.phase = .idle ∨ s.phase = .done ∨ s.phase = .fault := by
  rw [← s.phase.quiet_iff]
  exact (Bool.not_eq_false' _).to_iff

end Sys2Proof.Machine
end

section
/-! PROOFS. The obligations on the LZMA1 driver and the commands of HOST. (In a namespace of their own: the model's
operations have the names of these statements.) -/
namespace Sys2Proof.Lzma1Reader
open Machine

/-- Settles O13: HOST's move is listed, and what it reads is `statusView`; the numbers are the tables of R301 and
R302. -/
theorem statusRead : Obligations.StatusRead := by
  intro s ts hts
  refine ⟨statusView s, by rw [step_listed hts]; rfl, rfl, rfl, statusView_busy s, ?_, ?_⟩
  · intro k n hm hk
    have hcode : kindCode k = n := eq_of_mem_table (by decide) hm
    exact (congrArg kindCode hk).trans hcode
  · intro c n hm hc
    have hcode : causeCode c = n := eq_of_mem_table (by decide) hm
    exact (congrArg causeCode hc).trans hcode

/-- Settles O46: the two checks in order, then `construct_eq`. -/
theorem hdr1 : Obligations.Hdr1 := by
  intro p d u s
  have hexec : exec (.hdr1 p d u) s = settle s (Machine.hdr1 p d u s) := rfl
  rw [hexec]
  refine ⟨fun hp hd => ?_, fun c hc => ?_, fun hp hd => ?_⟩
  · rw [hdr1_legal hp, dictCheck_fits hd, Res.bind_ok, settle_ok, constructRun_eq, sizeIsDefined_eq]
    by_cases hu : u = 0xFFFFFFFFFFFFFFFF#64 <;> simp [hu]
  · rw [hdr1_refused hc, settle_raised]
  · rw [hdr1_legal hp, dictCheck_tooLarge hd, raise_bind, settle_raise]
    rfl

/-- Settles O47: `construct_eq`. -/
theorem construct : Obligations.Construct := by
  intro lc lp pb ds sd u shared s
  exact congrArg Host.Outcome.next (construct_eq lc lp pb ds sd u shared s)

/-- Settles O48: the registers are those of power-on; SRC's answers by what the hold record says was taken. -/
theorem cmdReset : Obligations.CmdReset := by
  intro s
  refine ⟨reset s, rfl, rfl, rfl, rfl, rfl, rfl, rfl, rfl, rfl, rfl, rfl, rfl, fun n hn => ?_, fun hn => ?_⟩
  · rw [reset_src, hn]
    rfl
  · have htaken : s.env.hold.taken = 0 := by
      cases hh : s.env.hold with
      | src n => exact absurd hh (hn n)
      | none => rfl
      | snk => rfl
      | host => rfl
    rw [reset_src, htaken, List.drop_zero]

/-- Settles O49: the command is accepted; CMD.START_LZMA2 goes as its dictionary check does. -/
theorem startStreams : Obligations.StartStreams := by
  intro d s hphase
  have ha := startAccepted_iff.mpr hphase
  refine ⟨?_, fun hd => ?_, fun hd => ?_⟩
  · rw [exec_cmdStartLzma1_accepted ha, startLzma1_eq, beginStart_eq]
  · rw [exec_cmdStartLzma2_accepted ha, startLzma2, dictCheck_fits (s := beginStart .lzma2 s) hd, Res.bind_ok,
      settle_ok, allocate_eq, beginStart_eq]
    rfl
  · rw [exec_cmdStartLzma2_accepted ha, startLzma2, dictCheck_tooLarge (s := beginStart .lzma2 s) hd, raise_bind,
      settle_raise, raiseState_eq, beginStart_eq]
    rfl

/-- Settles O50: properties before the dictionary size, which only a window of its own has; then CONSTRUCT. -/
theorem startRaw : Obligations.StartRaw := by
  intro p d sd u s hphase
  have ha := startAccepted_iff.mpr hphase
  have hown := exec_cmdStartRaw_accepted ha p d sd u (shared := false) (by simp)
  refine ⟨fun hp hd => ?_, fun hp hd => ?_, fun hp hw => ?_, fun c shared hc hw => ?_, fun hw => ?_⟩
  · rw [hown, startRaw_own hp, dictCheck_fits (s := beginStart .raw s) hd, Res.bind_ok, settle_ok, constructRun_eq,
      beginStart_eq]
    rfl
  · rw [hown, startRaw_own hp, dictCheck_tooLarge (s := beginStart .raw s) hd, raise_bind, settle_raise,
      raiseState_eq, beginStart_eq]
    rfl
  · rw [exec_cmdStartRaw_accepted ha p d sd u fun _ => hw, startRaw_shared hp, settle_ok, constructRun_eq,
      beginStart_eq]
    rfl
  · rw [exec_cmdStartRaw_accepted ha p d sd u hw, startRaw_refused hc, settle_raised, beginStart_eq]
  · exact exec_cmdStartRaw_noWindow hw p d sd u

/-- Settles O51: `reopen_legal` and `reopen_refused`. -/
theorem reopen : Obligations.Reopen := by
  intro sd u rs np p rd s hphase hmode
  rw [exec_cmdReopen_accepted (reopenAccepted_iff.mpr ⟨hphase, hmode⟩)]
  refine ⟨fun hp => ⟨fun hn => ?_, fun hrd hn => ?_⟩, fun c hnp hc => ?_⟩
  · rw [reopen_legal hp, settle_ok]
    cases rd with
    | true =>
      rw [if_pos rfl, if_pos (hn rfl), reopenEnd_eq]
      rfl
    | false =>
      rw [if_neg Bool.false_ne_true, reopenEnd_eq]
      rfl
  · rw [reopen_legal hp, settle_ok, if_pos hrd, if_neg hn]
    rfl
  · subst hnp
    rw [reopen_refused hc]
    rfl

/-- Settles O52: no command is accepted in such a phase. -/
theorem refusedCommands : Obligations.RefusedCommands := by
  intro s
  refine ⟨fun hi hd hf => ?_, fun h sd u rs np p rd => if_neg (mt reopenAccepted_iff.mp h)⟩
  have ha : ¬ startAccepted s = true := by simp [startAccepted_iff, hi, hd, hf]
  exact ⟨if_neg ha, fun d => if_neg ha, fun p d sd u sh => if_neg fun h => ha (Bool.and_eq_true_iff.mp h).1⟩

end Sys2Proof.Lzma1Reader
end

section
/-! SUPPORT. A chunk header's sizes as numbers: high byte first, bits 20:16 in the control byte (30_encoding.md R90,
R91). -/
namespace Sys2Proof

theorem u16be_toNat (hi lo : Byte) : (u16be hi lo).toNat = hi.toNat * 256 + lo.toNat := by
  rw [u16be_eq_leBytes, leBytes_toNat (by simp)]
  simp [Nat.ofDigits_cons]
  omega

/-- A field too narrow for its bytes keeps their low bits. -/
theorem setWidth_leBytes {v w : Nat} (h : v ≤ w) (bs : List Byte) : (leBytes w bs).setWidth v = leBytes v bs := by
  apply BitVec.eq_of_getLsbD_eq
  intro i hi
  have hw : i < w := by omega
  rw [BitVec.getLsbD_setWidth, leBytes_getLsbD, leBytes_getLsbD]
  simp [hi, hw]

theorem unc21_toNat (c x1 x2 : Byte) :
    (unc21 c x1 x2).toNat = c.toNat % 32 * 65536 + x1.toNat * 256 + x2.toNat := by
  have hlow : (c &&& 0x1F#8).toNat = c.toNat % 32 := by
    rw [BitVec.toNat_and]
    exact Nat.and_two_pow_sub_one_eq_mod _ 5
  have h1 := x1.isLt
  have h2 := x2.isLt
  rw [unc21_eq_leBytes, ← setWidth_leBytes (w := 24) (by decide), BitVec.toNat_setWidth, leBytes_toNat (by simp)]
  simp [Nat.ofDigits_cons, hlow]
  omega

theorem decodeC2_eos (rest : List Byte) : decodeC2 (0x00#8 :: rest) = .ok (.c2Eos, rest) := by
  simp [decodeC2, c2HeaderLen, chunkOf]

end Sys2Proof
end

section
/-! SUPPORT. The chunk kinds of LZMA2 in whole states: what opening a chunk writes, and its two ways to get a decoder
(46_lzma2_demux.md R273 to R284). -/
namespace Sys2Proof.Machine

variable {s : State}

/-! ### The instructions -/

theorem exec_c2Raw (u : BitVec 16) (s : State) :
    exec (.c2Raw u) s = .next (rawEnter (loadUnc (uncSizeOf u) s)) := rfl

theorem exec_c2Rawd (u : BitVec 16) (s : State) : exec (.c2Rawd u) s = .next (c2Rawd (uncSizeOf u) s) := rfl

theorem exec_c2Lzma0 (u : BitVec 21) (c : BitVec 16) (s : State) :
    exec (.c2Lzma0 u c) s = settle s (c2Lzma0 u c s) := rfl

theorem exec_c2Lzma1 (u : BitVec 21) (c : BitVec 16) (s : State) :
    exec (.c2Lzma1 u c) s = settle s (c2Lzma1 u c s) := rfl

theorem exec_c2Lzma2 (u : BitVec 21) (c : BitVec 16) (p : Byte) (s : State) :
    exec (.c2Lzma2 u c p) s = settle s (c2Lzma2 u c p s) := rfl

theorem exec_c2Lzma3 (u : BitVec 21) (c : BitVec 16) (p : Byte) (s : State) :
    exec (.c2Lzma3 u c p) s = settle s (c2Lzma3 u c p s) := rfl

theorem exec_rawCopy (s : State) : exec .rawCopy s = settle s (rawCopy s) := rfl

/-! ### Sizes -/

theorem setWidth_uncSizeOf {w : Nat} (u : BitVec w) (h : w ≤ 21) (n : Nat) :
    (uncSizeOf u).setWidth n = BitVec.ofNat n (u.toNat + 1) := by
  have hu := u.isLt
  have hw : 2 ^ w ≤ 2 ^ 21 := Nat.pow_le_pow_right (by decide) h
  apply BitVec.eq_of_toNat_eq
  rw [uncSizeOf_eq u h, BitVec.toNat_setWidth, BitVec.toNat_ofNat, BitVec.toNat_ofNat,
    Nat.mod_eq_of_lt (b := 2 ^ 22) (by omega)]

theorem loadSizes_eq (u : BitVec 21) (c : BitVec 16) (s : State) : loadSizes u c s =
    { s with c2 := { s.c2 with
      uncSize := BitVec.ofNat 22 (u.toNat + 1), compSize := BitVec.ofNat 17 (c.toNat + 1) } } := by
  rw [loadSizes, uncSizeOf_eq u le_rfl, compSizeOf_eq]
  rfl

/-! ### Raw chunks -/

theorem rawEnter_eq (s : State) : rawEnter s =
    { s with c2 := { s.c2 with rawLeft := s.c2.uncSize.setWidth 17 }, phase := .c2raw } := rfl

theorem rawEnter_loadUnc_eq (u : BitVec 16) (s : State) : rawEnter (loadUnc (uncSizeOf u) s) =
    { s with
      c2 := { s.c2 with
        uncSize := BitVec.ofNat 22 (u.toNat + 1), rawLeft := BitVec.ofNat 17 (u.toNat + 1) }
      phase := .c2raw } := by
  rw [← uncSizeOf_eq u (by decide), ← setWidth_uncSizeOf u (by decide)]
  rfl

theorem c2Rawd_of_no_pending (h : s.win.pending = 0) (n : BitVec 22) :
    c2Rawd n s = { rawEnter (loadUnc n s) with win := rewound s.win } := if_pos h

theorem c2Rawd_of_pending (h : s.win.pending ≠ 0) (n : BitVec 22) :
    c2Rawd n s = onHold .snk ((loadUnc n s).withWait (some .rawd)) := if_neg h

/-! ### LZMA chunks -/

/-- The last lines of an LZMA chunk, its sizes loaded. -/
theorem lzmaEnd_of_sizes {u : BitVec 21} {c : BitVec 16} (hu : s.c2.uncSize = BitVec.ofNat 22 (u.toNat + 1))
    (hc : s.c2.compSize = BitVec.ofNat 17 (c.toNat + 1)) : lzmaEnd s = { s with
      sizeDefined := true, rem := BitVec.ofNat 64 (u.toNat + 1)
      c2 := { s.c2 with compLeft := BitVec.ofNat 17 (c.toNat + 1) }, phase := .rcinit } := by
  rw [← setWidth_uncSizeOf u le_rfl, uncSizeOf_eq u le_rfl, ← hu, ← hc]
  rfl

theorem oldDecoder_of_decoder (h : s.c2.haveDecoder = true) : oldDecoder s = .ok () s := if_pos h

theorem oldDecoder_of_none (h : s.c2.haveDecoder = false) :
    oldDecoder s = .raised (faulted .resultError .noProperties 0#32 s) := if_neg (by simp [h])

/-- New properties that are legal: the state reset comes with them. -/
theorem newDecoder_legal {p : Byte} (h : propsLegal s.par.litBitsCap p) : newDecoder p s = .ok () { s with
    cfg := propsCfg p s.cfg.dictSize, st := zeroFsm, prob := []
    c2 := { s.c2 with prop := p, haveDecoder := true } } := by
  rw [newDecoder, propCheck_legal (s := s.withC2 { s.c2 with prop := p }) h]
  rfl

theorem newDecoder_refused {p : Byte} {e : Cause} (h : propsRefused s.par.litBitsCap p e) :
    newDecoder p s = .raised (faulted .incorrectProperties e (p.setWidth 32)
      { s with c2 := { s.c2 with prop := p } }) := by
  rw [newDecoder, propCheck_refused (s := s.withC2 { s.c2 with prop := p }) h]
  rfl

theorem propsLegal_or_refused (cap : Nat) (p : Byte) : propsLegal cap p ∨ ∃ e, propsRefused cap p e := by
  by_cases h : p.toNat < 225
  · by_cases hcap : p.toNat % 9 + p.toNat / 9 % 5 ≤ cap
    · exact .inl ⟨h, hcap⟩
    · exact .inr ⟨_, .inr ⟨h, Nat.not_le.mp hcap, rfl⟩⟩
  · exact .inr ⟨_, .inl ⟨Nat.not_lt.mp h, rfl⟩⟩

/-! ### RAWCOPY -/

/-- Outside RCINIT and RUN no chunk limit is active: a pull counts in `inCount` only. -/
theorem afterPulls_unlimited (h : limitActive s = false) (n : Nat) (rest : List SrcAnswer) :
    afterPulls n rest s = { s with inCount := s.inCount + n, env := { s.env with src := rest } } := by
  rw [afterPulls, h]
  rfl

/-- The loop goes on while bytes are left and the window has room. -/
theorem rawCopy_of_room (hp : s.phase = .c2raw) (hleft : s.c2.rawLeft ≠ 0#17)
    (hroom : s.win.pending < s.win.size.toNat) :
    rawCopy s = (pull s).bind fun b s => (winPut b s).bind fun _ s => .ok () (rawNext s) := by
  rw [rawCopy, if_pos hp, if_neg hleft, if_neg (Nat.not_le.mpr hroom)]

theorem rawNext_eq (hp : s.phase = .c2raw) : rawNext s = { s with
    c2 := { s.c2 with rawLeft := s.c2.rawLeft - 1#17 }
    phase := if s.c2.rawLeft = 1#17 then .c2ctrl else .c2raw } := by
  have hlast : s.c2.rawLeft - 1#17 = 0#17 ↔ s.c2.rawLeft = 1#17 := sub_eq_zero
  by_cases h : s.c2.rawLeft = 1#17
  · rw [if_pos h]
    exact if_pos (hlast.mpr h)
  · rw [if_neg h, ← hp]
    exact if_neg (mt hlast.mp h)

/-- One byte of the loop. -/
theorem rawCopy_of_byte {b : Byte} {rest : List SrcAnswer} (hp : s.phase = .c2raw) (hleft : s.c2.rawLeft ≠ 0#17)
    (hroom : s.win.pending < s.win.size.toNat) (hc : s.win.pos < s.win.size) (hsrc : s.env.src = .byte b :: rest) :
    rawCopy s = .ok () { s with
      win := putWin b s.win, inCount := s.inCount + 1, env := { s.env with src := rest }
      c2 := { s.c2 with rawLeft := s.c2.rawLeft - 1#17 }
      phase := if s.c2.rawLeft = 1#17 then .c2ctrl else .c2raw } := by
  have hl : limitActive s = false := by simp [limitActive, hp]
  rw [rawCopy_of_room hp hleft hroom, pull_eq_afterPulls hsrc (by simp [hl]), Res.bind_ok,
    winPut_ok (s := afterPulls 1 rest s) hc, Res.bind_ok, afterPulls_unlimited hl]
  exact congrArg (Res.ok ()) (rawNext_eq (s := { s with
    win := putWin b s.win, inCount := s.inCount + 1, env := { s.env with src := rest } }) hp)

end Sys2Proof.Machine
end

section
/-! PROOFS. The obligations on the chunk kinds of LZMA2, RAWCOPY and CHUNKEND. (In a namespace of their own: the
model's operations have the names of these statements.) -/
namespace Sys2Proof.Lzma2Demux
open Machine

/-- Settles O4, class by class: an LZMA control byte is below or above 0xC0 as its header has a property byte. -/
theorem controlByteClasses : Obligations.ControlByteClasses := by
  intro c x1 x2 x3 x4 x5 rest
  refine ⟨?_, ?_, ?_, fun h1 h2 => ?_, fun h => ?_⟩
  · rintro rfl
    exact decodeC2_eos rest
  · rintro rfl
    exact ⟨_, u16be_toNat x1 x2, decodeC2_rawd x1 x2 rest⟩
  · rintro rfl
    exact ⟨_, u16be_toNat x1 x2, decodeC2_raw x1 x2 rest⟩
  · exact decodeC2_ill h1 (Nat.lt_succ_of_le h2) rest
  · have hc : 128 ≤ c.toNat := h
    have hlt := c.isLt
    refine ⟨_, _, unc21_toNat c x1 x2, u16be_toNat x3 x4, fun hk => ?_, fun hk => ?_, fun hk => ?_, fun hk => ?_⟩
    · rw [decodeC2_noProp hc (by omega), if_pos (by omega)]
    · rw [decodeC2_noProp hc (by omega), if_neg (by omega)]
    · rw [decodeC2_prop (by omega), if_pos (by omega)]
    · rw [decodeC2_prop (by omega), if_neg (by omega)]

/-- Settles O56: the entry, and one pass of the loop, whose pull no chunk limit counts. -/
theorem rawCopy : Obligations.RawCopy := by
  intro s
  rw [exec_rawCopy]
  refine ⟨fun hp => ?_, fun hp hleft hc => ⟨fun hfull => ?_, fun t hroom hf => ?_, fun b rest hroom hsrc => ?_⟩⟩
  · rw [Machine.rawCopy, if_neg hp, settle_ok, rawEnter_eq]
  · rw [Machine.rawCopy, if_pos hp, if_neg hleft, if_pos hfull]
    rfl
  · rw [rawCopy_of_room hp hleft hroom, pull_raised_iff.mpr hf]
    rfl
  · rw [rawCopy_of_byte hp hleft hroom hc hsrc, settle_ok]
    exact ⟨_, rfl, advanced_putWin hc b, cellGet_cellPut_same _ _ _, rfl⟩

/-- Settles O53: neither pulls, and neither writes anything but its end. -/
theorem endAndIllegalChunks : Obligations.EndAndIllegalChunks := fun _ _ => ⟨rfl, rfl⟩

/-- Settles O54: the entry of RAWCOPY with the chunk's size. -/
theorem rawChunks : Obligations.RawChunks := by
  intro u s opened
  have hopen : rawEnter (loadUnc (uncSizeOf u) s) = opened := rawEnter_loadUnc_eq u s
  refine ⟨?_, fun hp => ?_⟩
  · rw [exec_c2Raw, hopen]
  · rw [exec_c2Rawd, c2Rawd_of_no_pending hp, hopen]

/-- Settles O57: the decoder of an earlier chunk, or the raise. -/
theorem lzmaChunksKeepingProperties : Obligations.LzmaChunksKeepingProperties := by
  intro u c s sized opened
  have hsized : loadSizes u c s = sized := loadSizes_eq u c s
  have hopen : lzmaEnd sized = opened := lzmaEnd_of_sizes rfl rfl
  rw [exec_c2Lzma0, exec_c2Lzma1, c2Lzma0, c2Lzma1, hsized]
  refine ⟨fun hd => ?_, fun hd => ?_⟩
  · rw [oldDecoder_of_decoder (s := sized) hd, Res.bind_ok, Res.bind_ok, settle_ok, settle_ok, ← hopen]
    exact ⟨rfl, rfl⟩
  · rw [oldDecoder_of_none (s := sized) hd]
    exact ⟨rfl, rfl⟩

/-- Settles O58: the properties are taken with the state reset, or refused before it; then C2.LZMA2 opens the chunk,
and C2.LZMA3 resets the window first. -/
theorem lzmaChunksWithProperties : Obligations.LzmaChunksWithProperties := by
  intro u c p s sized made opened
  have hopen : lzmaEnd made = opened := lzmaEnd_of_sizes rfl rfl
  rw [exec_c2Lzma2, exec_c2Lzma3, c2Lzma2, c2Lzma3]
  refine ⟨fun hlegal => ?_, fun e he => ?_⟩
  · have hnew : newDecoder p (loadSizes u c s) = .ok () made := by
      rw [newDecoder_legal (s := loadSizes u c s) hlegal, loadSizes_eq]
    rw [hnew, Res.bind_ok, Res.bind_ok, settle_ok, hopen]
    refine ⟨rfl, fun hp => ?_, fun hp => ?_⟩
    · have hpend : made.win.pending = 0 := hp
      rw [if_pos hpend, settle_ok, ← hopen]
      rfl
    · have hpend : ¬ made.win.pending = 0 := hp
      rw [if_neg hpend]
      rfl
  · have hnew : newDecoder p (loadSizes u c s) =
        .raised (faulted .incorrectProperties e (p.setWidth 32) sized) := by
      rw [newDecoder_refused (s := loadSizes u c s) he, loadSizes_eq]
    rw [hnew]
    exact ⟨rfl, rfl⟩

/-- Settles O59: whether input of the chunk is left over. -/
theorem chunkEnd : Obligations.ChunkEnd := by
  intro s
  rw [exec_chunkEnd, Machine.chunkEnd]
  refine ⟨fun h => ?_, fun h => ?_⟩
  · rw [if_pos h]
    rfl
  · rw [if_neg h]
    rfl

/-- Settles O60: both reset the FSM and every probability, and keep the properties and the window. -/
theorem stateResetIsAFreshDecoder : Obligations.StateResetIsAFreshDecoder := by
  intro u c ds s t t' hd ht ht'
  obtain ⟨-, hlzma1⟩ := (lzmaChunksKeepingProperties u c s).1 hd
  have hfresh := Lzma1Reader.construct s.cfg.lc s.cfg.lp s.cfg.pb ds true (BitVec.ofNat 64 (u.toNat + 1)) true s
  cases hlzma1.symm.trans ht
  cases hfresh.symm.trans ht'
  exact ⟨rfl, rfl, rfl, rfl, rfl⟩

end Sys2Proof.Lzma2Demux
end

section
/-! SUPPORT. A header's bytes pulled one after the other: `n` pulls take what SRC offers, or raise where it offers
less (20_memory.md R58, R59). -/
namespace Sys2Proof.Machine

variable {s t : State} {bs : List Byte} {rest : List SrcAnswer} {n : Nat}

/-- SRC's next answers are the bytes `bs`, then `rest`, and a chunk limit, if active, leaves room for them. -/
structure Offers (bs : List Byte) (rest : List SrcAnswer) (s : State) : Prop where
  src : s.env.src = bs.map .byte ++ rest
  room : limitActive s = true → bs.length ≤ s.c2.compLeft.toNat

theorem limitActive_afterPulls (n : Nat) (rest : List SrcAnswer) (s : State) :
    limitActive (afterPulls n rest s) = limitActive s := rfl

theorem afterPulls_zero (h : s.env.src = rest) : afterPulls 0 rest s = s := by
  subst h
  cases hl : limitActive s <;> simp [afterPulls, hl]

theorem afterPulls_afterPulls (m n : Nat) (mid rest : List SrcAnswer) (s : State) :
    afterPulls n rest (afterPulls m mid s) = afterPulls (m + n) rest s := by
  have hsub : s.c2.compLeft - BitVec.ofNat 17 m - BitVec.ofNat 17 n = s.c2.compLeft - BitVec.ofNat 17 (m + n) := by
    rw [BitVec.ofNat_add, sub_add_eq_sub_sub]
  rw [afterPulls, limitActive_afterPulls]
  cases hl : limitActive s <;> simp [afterPulls, hl, hsub, Nat.add_assoc]

section
variable {b : Byte} (h : Offers (b :: bs) rest s)
include h

/-- The first byte is pulled. -/
theorem Offers.pull_eq : pull s = .ok b (afterPulls 1 (bs.map .byte ++ rest) s) :=
  pull_eq_afterPulls h.src fun hl h0 => by simpa [h0] using h.room hl

/-- The other bytes are still offered. -/
theorem Offers.tail : Offers bs rest (afterPulls 1 (bs.map .byte ++ rest) s) := by
  refine ⟨rfl, fun hl => ?_⟩
  have hl' : limitActive s = true := hl
  have hroom := h.room hl'
  rw [List.length_cons] at hroom
  rw [afterPulls_c2, if_pos hl', BitVec.toNat_sub_of_le (BitVec.le_def.mpr (Nat.le_of_add_left_le hroom))]
  exact Nat.le_sub_of_add_le hroom

end

/-- All the bytes that are offered are pulled. -/
theorem Offers.pullN_eq (h : Offers bs rest s) : pullN bs.length s = .ok bs (afterPulls bs.length rest s) := by
  induction bs generalizing s with
  | nil =>
    rw [List.length_nil, afterPulls_zero (rest := rest) h.src]
    rfl
  | cons b bs ih =>
    rw [List.length_cons, pullN, h.pull_eq, Res.bind_ok, ih h.tail, Res.bind_ok, afterPulls_afterPulls,
      Nat.add_comm]

/-- More pulls than there are bytes: the pull after the last byte raises. -/
theorem Offers.pullN_raised (h : Offers bs rest s) (hn : bs.length < n)
    (hf : pullFails (afterPulls bs.length rest s) t) : pullN n s = .raised t := by
  induction bs generalizing s n with
  | nil =>
    obtain ⟨m, rfl⟩ := Nat.exists_eq_add_of_lt hn
    rw [List.length_nil, afterPulls_zero (rest := rest) h.src] at hf
    rw [List.length_nil, Nat.zero_add, pullN, pull_raised_iff.mpr hf]
    rfl
  | cons b bs ih =>
    obtain ⟨m, rfl⟩ := Nat.exists_eq_add_of_lt hn
    rw [List.length_cons, Nat.add_comm, ← afterPulls_afterPulls] at hf
    rw [pullN, h.pull_eq, Res.bind_ok, ih h.tail (by rw [List.length_cons]; omega) hf]
    rfl

/-- A pull that fails writes no register of the range decoder. -/
theorem rc_of_pullFails (h : pullFails s t) : t.rc = s.rc := by
  rcases h with ⟨-, -, rfl⟩ | ⟨-, rest, ⟨-, rfl⟩ | ⟨e, -, rfl⟩⟩
  · split <;> rfl
  · rfl
  · rfl

end Sys2Proof.Machine
end

section
/-! SUPPORT. Words that decode are a header of their format: its number of bytes, and the operation of its fields
(30_encoding.md R81, R82, R89). -/
namespace Sys2Proof

theorem exactly_eq_ok {r : Except Reject (Instr × List Byte)} {i : Instr} :
    exactly r = .ok i ↔ r = .ok (i, []) := by
  rcases r with e | ⟨j, _ | ⟨b, bs⟩⟩ <;> simp [exactly]

/-- A header of a fixed length has that length. -/
theorem header_of_decodeFixed {n : Nat} {f : List Byte → Instr} {bs : List Byte} {i : Instr}
    (h : exactly (decodeFixed n f bs) = .ok i) : bs.length = n ∧ f bs = i := by
  rw [exactly_eq_ok, decodeFixed] at h
  split at h
  · cases h
  · rename_i hn
    injection h with h
    obtain ⟨hi, hdrop⟩ := Prod.mk.inj h
    have hle : bs.length ≤ n := List.drop_eq_nil_iff.mp hdrop
    rw [List.take_of_length_le hle] at hi
    exact ⟨Nat.le_antisymm hle (Nat.not_lt.mp hn), hi⟩

/-- A chunk header is a control byte and the bytes its class has after it. -/
theorem chunkOf_of_decode {bs : List Byte} {i : Instr} (h : decode .c2 (.bytes bs) = .ok i) :
    ∃ c x, bs = c :: x ∧ x.length = c2HeaderLen c ∧ chunkOf c x = i := by
  have h : decodeC2 bs = .ok (i, []) := exactly_eq_ok.mp h
  cases bs with
  | nil => cases h
  | cons c x =>
    rw [decodeC2] at h
    split at h
    · cases h
    · rename_i hn
      injection h with h
      obtain ⟨hi, hdrop⟩ := Prod.mk.inj h
      have hle : x.length ≤ c2HeaderLen c := List.drop_eq_nil_iff.mp hdrop
      rw [List.take_of_length_le hle] at hi
      exact ⟨c, x, rfl, Nat.le_antisymm hle (Nat.not_lt.mp hn), hi⟩

/-- The header lengths class by class (30_encoding.md R89). -/
theorem c2HeaderLen_eq (c : Byte) : c2HeaderLen c =
    if c = 1#8 ∨ c = 2#8 then 2 else if 0xC0#8 ≤ c then 5 else if 0x80#8 ≤ c then 4 else 0 := by
  simp only [c2HeaderLen, ← BitVec.toNat_inj, BitVec.lt_def, BitVec.le_def, BitVec.reduceToNat]
  split_ifs <;> omega

end Sys2Proof
end

section
/-! SUPPORT. The three headers fetched: what CORE has when all of a header's bytes are offered, and that it raises
when fewer are (46_lzma2_demux.md R271, 45_lzma1_reader.md R242, 40_range_decoder.md R120). No operation with a header
waits at a pull. -/
namespace Sys2Proof.Machine

variable {s t : State} {c : Byte} {x bs : List Byte} {rest : List SrcAnswer}

/-! ### The LZMA1 header and the prologue -/

theorem fetchHdr1_of_offers (h : Offers bs rest s) (hn : bs.length = 13) :
    fetchHdr1 s = .ok (hdr1Of bs) (afterPulls bs.length rest s) := by
  rw [fetchHdr1, ← hn, h.pullN_eq, Res.bind_ok]

theorem fetchHdr1_of_short (h : Offers bs rest s) (hn : bs.length < 13)
    (hf : pullFails (afterPulls bs.length rest s) t) : fetchHdr1 s = .raised t := by
  rw [fetchHdr1, h.pullN_raised hn hf, Res.bind_raised]

theorem fetchPrologue_of_offers (h : Offers bs rest s) (hn : bs.length = 5) :
    fetchPrologue s = .ok (prologueOf bs) (afterPulls bs.length rest s) := by
  rw [fetchPrologue, ← hn, h.pullN_eq]

theorem fetchPrologue_of_short (h : Offers bs rest s) (hn : bs.length < 5)
    (hf : pullFails (afterPulls bs.length rest s) t) : fetchPrologue s = .raised (forgetRc t) := by
  rw [fetchPrologue, h.pullN_raised hn hf]

/-! ### A chunk header -/

/-- The control byte is written and phase C2HDR entered (46_lzma2_demux.md R271). -/
def enterHeader (c : Byte) (s : State) : State := { s with phase := .c2hdr, c2 := { s.c2 with ctrl := c } }

/-- No limit counts the pulls of a chunk header, before the control byte or after it. -/
theorem afterPulls_enterHeader (hp : s.phase = .c2ctrl) (m n : Nat) (mid rest : List SrcAnswer) :
    afterPulls n rest (enterHeader c (afterPulls m mid s)) = enterHeader c (afterPulls (m + n) rest s) := by
  have hl : limitActive s = false := by simp [limitActive, hp]
  have hl' : limitActive (enterHeader c (afterPulls m mid s)) = false := by simp [limitActive, enterHeader]
  rw [afterPulls_unlimited hl', afterPulls_unlimited hl, afterPulls_unlimited hl, ← Nat.add_assoc]
  rfl

theorem offers_enterHeader (c : Byte) (x : List Byte) (rest : List SrcAnswer) (s : State) :
    Offers x rest (enterHeader c (afterPulls 1 (x.map .byte ++ rest) s)) :=
  ⟨rfl, fun hl => by simp [limitActive, enterHeader] at hl⟩

section
variable (h : Offers (c :: x) rest s)
include h

theorem fetchChunk_of_offers_cons :
    fetchChunk s = fetchC2Rest c (enterHeader c (afterPulls 1 (x.map .byte ++ rest) s)) := by
  rw [fetchChunk, h.pull_eq, Res.bind_ok]
  rfl

theorem fetchChunk_of_offers (hp : s.phase = .c2ctrl) (hx : x.length = c2HeaderLen c) :
    fetchChunk s = .ok (chunkOf c x) (enterHeader c (afterPulls (x.length + 1) rest s)) := by
  rw [fetchChunk_of_offers_cons h, fetchC2Rest, ← hx, (offers_enterHeader c x rest s).pullN_eq, Res.bind_ok,
    afterPulls_enterHeader hp, Nat.add_comm]

theorem fetchChunk_of_short (hp : s.phase = .c2ctrl) (hx : x.length < c2HeaderLen c)
    (hf : pullFails (enterHeader c (afterPulls (x.length + 1) rest s)) t) : fetchChunk s = .raised t := by
  rw [Nat.add_comm, ← afterPulls_enterHeader hp] at hf
  rw [fetchChunk_of_offers_cons h, fetchC2Rest, (offers_enterHeader c x rest s).pullN_raised hx hf,
    Res.bind_raised]

end

/-! ### No operation with a header waits at a pull -/

/-- If the outcome is a next state, CORE does not wait at a pull there. -/
def Unheld (o : Outcome) : Prop := ∀ t, o = .next t → t.env.hold.atPull = false

theorem Unheld.next (h : t.env.hold.atPull = false) : Unheld (.next t) := by
  rintro _ ⟨⟩
  exact h

theorem Unheld.afterExec_eq {o : Outcome} (h : Unheld o) (s : State) : afterExec s o = o := by
  cases o with
  | next t => exact if_neg (by simp [h t rfl])
  | fault f => rfl
  | refused r => rfl

section
variable (h : s.env.hold.atPull = false)
include h

theorem unheld_hdr1 (p : Byte) (d : Word) (u : BitVec 64) : Unheld (exec (.hdr1 p d u) s) := by
  obtain ⟨hfits, hrefused, hlarge⟩ := Lzma1Reader.hdr1 p d u s
  rcases propsLegal_or_refused s.par.litBitsCap p with hp | ⟨e, he⟩
  · by_cases hd : dictOf d ≤ s.par.winCap
    · rw [hfits hp hd]
      exact .next h
    · rw [hlarge hp (BitVec.not_le.mp hd)]
      exact .next h
  · rw [hrefused e he]
    exact .next h

theorem unheld_rcInit (b : Byte) (code : Word) : Unheld (exec (.rcInit b code) s) := .next h

theorem unheld_c2Rawd (u : BitVec 16) : Unheld (exec (.c2Rawd u) s) := by
  by_cases hp : s.win.pending = 0
  · rw [exec_c2Rawd, c2Rawd_of_no_pending hp]
    exact .next h
  · rw [exec_c2Rawd, c2Rawd_of_pending hp]
    exact .next rfl

theorem unheld_c2Lzma0_c2Lzma1 (u : BitVec 21) (v : BitVec 16) :
    Unheld (exec (.c2Lzma0 u v) s) ∧ Unheld (exec (.c2Lzma1 u v) s) := by
  obtain ⟨hsome, hnone⟩ := Lzma2Demux.lzmaChunksKeepingProperties u v s
  cases hd : s.c2.haveDecoder with
  | true =>
    rw [(hsome hd).1, (hsome hd).2]
    exact ⟨.next h, .next h⟩
  | false =>
    rw [(hnone hd).1, (hnone hd).2]
    exact ⟨.next h, .next h⟩

theorem unheld_c2Lzma2_c2Lzma3 (u : BitVec 21) (v : BitVec 16) (p : Byte) :
    Unheld (exec (.c2Lzma2 u v p) s) ∧ Unheld (exec (.c2Lzma3 u v p) s) := by
  obtain ⟨hlegal, hrefused⟩ := Lzma2Demux.lzmaChunksWithProperties u v p s
  rcases propsLegal_or_refused s.par.litBitsCap p with hp | ⟨e, he⟩
  · obtain ⟨h2, h3, h3wait⟩ := hlegal hp
    rw [h2]
    refine ⟨.next h, ?_⟩
    by_cases hpend : s.win.pending = 0
    · rw [h3 hpend]
      exact .next h
    · rw [h3wait hpend]
      exact .next rfl
  · rw [(hrefused e he).1, (hrefused e he).2]
    exact ⟨.next h, .next h⟩

theorem unheld_chunkOf (c : Byte) (x : List Byte) : Unheld (exec (chunkOf c x) s) := by
  unfold chunkOf
  split_ifs
  · exact .next h
  · exact unheld_c2Rawd h _
  · exact .next h
  · exact .next h
  · exact (unheld_c2Lzma0_c2Lzma1 h _ _).1
  · exact (unheld_c2Lzma0_c2Lzma1 h _ _).2
  · exact (unheld_c2Lzma2_c2Lzma3 h _ _ _).1
  · exact (unheld_c2Lzma2_c2Lzma3 h _ _ _).2

end

/-! ### CORE's move in a header's phase -/

section
variable {ts : List Turn} (hm : coreMoves ts s) (hw : s.wait = none)
include hm hw

theorem step_c2ctrl (hp : s.phase = .c2ctrl) : step s = execFetched (atTurn ts s) (fetchChunk (atTurn ts s)) := by
  have hphase : (atTurn ts s).phase = .c2ctrl := hp
  rw [step_core hm hw]
  simp only [corePhase, hphase]

theorem step_hdr1 (hp : s.phase = .hdr1) : step s = execFetched (atTurn ts s) (fetchHdr1 (atTurn ts s)) := by
  have hphase : (atTurn ts s).phase = .hdr1 := hp
  rw [step_core hm hw]
  simp only [corePhase, hphase]

theorem step_rcinit (hp : s.phase = .rcinit) :
    step s = execFetched (atTurn ts s) (fetchPrologue (atTurn ts s)) := by
  have hphase : (atTurn ts s).phase = .rcinit := hp
  rw [step_core hm hw]
  simp only [corePhase, hphase]

end

theorem execFetched_raised (s t : State) : execFetched s (.raised t) = .next t := rfl

theorem execFetched_of_unheld {i : Instr} (h : Unheld (exec i t)) (s : State) :
    execFetched s (.ok i t) = exec i t := h.afterExec_eq s

end Sys2Proof.Machine
end

section
/-! PROOFS. The obligation on the phases that read a header. -/
namespace Sys2Proof.Lzma2Demux
open Machine

/-- Settles O14, phase by phase: the bytes are pulled and their operation waits at no pull, or the pull after them
raises. Only the prologue's pulls can be counted by a chunk limit. -/
theorem stepRunsTheFetchedHeader : Obligations.StepRunsTheFetchedHeader := by
  intro s ts bs rest hm hw hsrc pulled inHeader
  have unlimited (h : limitActive s = false) : Offers bs rest (atTurn ts s) :=
    ⟨hsrc, fun hl => absurd (h.symm.trans hl) Bool.false_ne_true⟩
  have hctrl (hp : s.phase = .c2ctrl) : limitActive s = false := by simp [limitActive, hp]
  have hhdr1 (hp : s.phase = .hdr1) : limitActive s = false := by simp [limitActive, hp]
  have hheader {c : Byte} {x : List Byte} (hp : s.phase = .c2ctrl) (hbs : bs = c :: x) :
      enterHeader c (afterPulls (x.length + 1) rest (atTurn ts s)) = inHeader := by
    have hl : limitActive (atTurn ts s) = false := hctrl hp
    simp only [inHeader, pulled, hbs, List.headD_cons, List.length_cons, afterPulls_unlimited hl]
    rfl
  refine ⟨fun i => ⟨fun hp hd => ?_, fun hp hd => ?_, fun hp hroom hd => ?_⟩,
    fun t => ⟨fun hp hbs hf => ?_, fun c x hp hbs hx hf => ?_, fun hp hn hf => ?_, fun hp hn hroom hf => ?_⟩⟩
  · obtain ⟨c, x, hbs, hx, hi⟩ := chunkOf_of_decode hd
    have ho := unlimited (hctrl hp)
    rw [hbs] at ho
    rw [step_c2ctrl hm hw hp, fetchChunk_of_offers ho hp hx, hheader hp hbs, ← hi]
    exact execFetched_of_unheld (unheld_chunkOf rfl c x) _
  · obtain ⟨hn, hi⟩ := header_of_decodeFixed hd
    rw [step_hdr1 hm hw hp, fetchHdr1_of_offers (unlimited (hhdr1 hp)) hn, ← hi]
    exact execFetched_of_unheld (unheld_hdr1 rfl _ _ _) _
  · obtain ⟨hn, hi⟩ := header_of_decodeFixed hd
    have ho : Offers bs rest (atTurn ts s) := ⟨hsrc, fun hl => hn.symm ▸ hroom hl⟩
    rw [step_rcinit hm hw hp, fetchPrologue_of_offers ho hn, ← hi]
    exact execFetched_of_unheld (unheld_rcInit rfl _ _) _
  · subst hbs
    have hpulled : pulled = atTurn ts s := afterPulls_zero hsrc
    rw [hpulled] at hf
    rw [step_c2ctrl hm hw hp, fetchChunk, pull_raised_iff.mpr hf]
    rfl
  · have ho := unlimited (hctrl hp)
    rw [hbs] at ho
    rw [← c2HeaderLen_eq] at hx
    rw [← hheader hp hbs] at hf
    rw [step_c2ctrl hm hw hp, fetchChunk_of_short ho hp hx hf, execFetched_raised]
  · rw [step_hdr1 hm hw hp, fetchHdr1_of_short (unlimited (hhdr1 hp)) hn hf, execFetched_raised]
  · have ho : Offers bs rest (atTurn ts s) := ⟨hsrc, hroom⟩
    have hrc : t.rc = pulled.rc := rc_of_pullFails hf
    rw [step_rcinit hm hw hp, fetchPrologue_of_short ho hn hf, execFetched_raised, forgetRc, hrc]
    exact ⟨_, _, _, rfl⟩

end Sys2Proof.Lzma2Demux
end

section
/-! SUPPORT. What ends a run in phase FAULT stands there until HOST begins another one: no move of CORE, SNK or SRC and
no refused command of HOST touches the phase, `STATUS` or `inCount` (60_exceptions.md R311, R312). -/
namespace Sys2Proof.Machine

/-- `t` is in phase FAULT and shows the fault that `s` shows. -/
def StillFaulted (s t : State) : Prop := t.phase = .fault ∧ t.status = s.status ∧ t.inCount = s.inCount

theorem decodeHost_reopen {w : HostWord} (h : w.code = 4) : decodeHost w =
    .ok (.cmdReopen w.sizeDefined w.size w.resetState w.newProps w.prop w.resetDict) := by
  simp [decodeHost, h]

/-- A move that is not listed is no command of HOST. -/
theorem freeTurn_ne_command (s : State) (w : HostWord) : freeTurn s ≠ .command w := by
  unfold freeTurn
  split <;> exact Turn.noConfusion

variable {s t : State} (hf : s.phase = .fault)
include hf

theorem StillFaulted.refl : StillFaulted s s := ⟨hf, rfl, rfl⟩

/-! ### CORE and SNK -/

/-- With nothing waiting, CORE waits for HOST. -/
theorem coreTurn_of_fault (hw : s.wait = none) : coreTurn s = .next (onHold .host (onHold .none s)) := by
  simp [coreTurn, corePhase, onHold, hf, hw]

theorem winDrain_stillFaulted (e : settle s (winDrain s) = .next t) : StillFaulted s t := by
  have h : (winDrain s).Ends (fun _ => StillFaulted s) (StillFaulted s) := by
    unfold winDrain
    split
    · exact .refl hf
    · refine (winGet_ends _ s).bind fun b u hu => ?_
      subst hu
      exact ⟨hf, rfl, rfl⟩
  rcases h.settled e with ht | ht | rfl
  · exact ht
  · exact ht
  · exact ⟨hf, rfl, rfl⟩

/-- SNK takes a pending byte or the error indication, as `DRAIN_ON_FAULT` says (60_exceptions.md R306). -/
theorem snkTurn_stillFaulted (e : snkTurn s = .next t) : StillFaulted s t := by
  have told {u : State} (hu : StillFaulted s u)
      (e : Host.Outcome.next (indicate .error u) = (.next t : Outcome)) : StillFaulted s t := by
    cases e
    exact hu
  rw [snkTurn, if_pos hf] at e
  unfold faultTurn at e
  split at e
  · cases e
    exact .refl hf
  split at e
  · exact told (.refl hf) e
  split at e
  · exact told (.refl hf) e
  · exact winDrain_stillFaulted hf e
  · dsimp only at e
    split at e
    · exact winDrain_stillFaulted (s := s.withFree (s.free + 1)) hf e
    · exact told (u := s.withFree (s.free + 1)) ⟨hf, rfl, rfl⟩ e

/-! ### HOST -/

/-- CMD.REOPEN is refused (45_lzma1_reader.md R250), and a number that is no command changes nothing. -/
theorem commandTurn_of_fault {w : HostWord} (hc : w.code = 4 ∨ 5 ≤ w.code) : commandTurn w s = .next s := by
  rcases hc with h4 | h5
  · have hrefused : ¬ reopenAccepted s = true := by simp [reopenAccepted_iff, hf]
    rw [commandTurn_ok (decodeHost_reopen h4)]
    exact if_neg hrefused
  · rw [commandTurn, decodeHost_error h5]

/-! ### A step -/

theorem takeTurn_stillFaulted (hw : s.wait = none) {m : Turn}
    (hm : ∀ w, m = .command w → w.code = 4 ∨ 5 ≤ w.code) (e : takeTurn m s = .next t) : StillFaulted s t := by
  cases m with
  | core =>
    rw [takeTurn, coreTurn_of_fault hf hw] at e
    cases e
    exact ⟨hf, rfl, rfl⟩
  | snk => exact snkTurn_stillFaulted hf e
  | command w =>
    rw [takeTurn, commandTurn_of_fault hf (hm w rfl)] at e
    cases e
    exact .refl hf
  | src a =>
    cases e
    exact ⟨hf, rfl, rfl⟩
  | readStatus =>
    cases e
    exact ⟨hf, rfl, rfl⟩
  | attach answers =>
    cases e
    rw [attachTurn_eq]
    exact ⟨hf, rfl, rfl⟩

theorem step_stillFaulted (hw : s.wait = none)
    (hc : ∀ w ts, s.env.turns = .command w :: ts → w.code = 4 ∨ 5 ≤ w.code) (e : step s = .next t) :
    StillFaulted s t := by
  cases hm : s.env.turns with
  | nil => exact takeTurn_stillFaulted hf hw (fun w h => absurd h (freeTurn_ne_command s w)) (step_unlisted hm ▸ e)
  | cons m ms =>
    rw [step_listed hm] at e
    exact takeTurn_stillFaulted (s := s.withEnv { s.env with turns := ms }) hf hw (fun w h => hc w ms (h ▸ hm)) e

end Sys2Proof.Machine
end

section
/-! PROOFS. The obligation that a fault is final. -/
namespace Sys2Proof.Machine

/-- Settles O11: in phase FAULT no operation waits, so whoever's move it is leaves the fault as it was
(`step_stillFaulted`). -/
theorem faultIsFinal : Obligations.FaultIsFinal := by
  intro s t h hf e hc
  have hw : s.wait = none := h.phase.wait_none (by simp [hf]) (by simp [hf])
  exact step_stillFaulted hf hw hc e

end Sys2Proof.Machine
end

section
/-! SUPPORT. The reset that an operation waited for, in whole states: what C2.RAWD leaves while it waits, and what each
of the three operations does once it goes on (70_reset_and_hazards.md R347). -/
namespace Sys2Proof.Machine

theorem loadUnc_uncSizeOf_eq (u : BitVec 16) (s : State) : loadUnc (uncSizeOf u) s =
    { s with c2 := { s.c2 with uncSize := BitVec.ofNat 22 (u.toNat + 1) } } := by
  rw [loadUnc, uncSizeOf_eq u (by decide)]
  rfl

theorem lzmaEnd_eq (s : State) : lzmaEnd s = { s with
    sizeDefined := true, rem := s.c2.uncSize.setWidth 64
    c2 := { s.c2 with compLeft := s.c2.compSize }, phase := .rcinit } := rfl

theorem resume_rawd (s : State) : resume .rawd s = { s with
    win := rewound s.win, wait := none
    c2 := { s.c2 with rawLeft := s.c2.uncSize.setWidth 17 }, phase := .c2raw } := rfl

theorem resume_lzma3 (s : State) : resume .lzma3 s = { s with
    win := rewound s.win, wait := none
    sizeDefined := true, rem := s.c2.uncSize.setWidth 64
    c2 := { s.c2 with compLeft := s.c2.compSize }, phase := .rcinit } :=
  lzmaEnd_eq (winReset (s.withWait none))

theorem resume_reopen (sd : Bool) (u : BitVec 64) (s : State) : resume (.reopen sd u) s = { s with
    win := rewound s.win, wait := none
    sizeDefined := sd, rem := if sd then u else s.rem, phase := .rcinit } :=
  reopenEnd_eq sd u (winReset (s.withWait none))

/-! The two branches of `step_waiting`. -/

theorem step_waiting_of_pending {s : State} {ts : List Turn} {w : Wait} (h : coreMoves ts s)
    (hw : s.wait = some w) (hp : s.win.pending ≠ 0) :
    step s = .next { s with env := { s.env with turns := ts, hold := .snk } } := by
  rw [step_waiting h hw, if_neg hp]
  rfl

theorem step_waiting_of_no_pending {s : State} {ts : List Turn} {w : Wait} (h : coreMoves ts s)
    (hw : s.wait = some w) (hp : s.win.pending = 0) : step s = .next (resume w (atTurn ts s)) := by
  rw [step_waiting h hw, if_pos hp]

end Sys2Proof.Machine
end

section
/-! PROOFS. The obligation that the reset of the dictionary waits until every pending byte is delivered. -/
namespace Sys2Proof.Machine

/-- Settles O55: while bytes are pending CORE's move records only that it waits; with none pending it resumes, which is
the reset and then the last writes of the operation that waited. -/
theorem dictionaryResetWaits : Obligations.DictionaryResetWaits := by
  refine ⟨fun u s hp => ?_, fun s ts w hm hw => ⟨step_waiting_of_pending hm hw, fun hp => ?_⟩⟩
  · rw [exec_c2Rawd, c2Rawd_of_pending hp, loadUnc_uncSizeOf_eq]
    rfl
  · intro reset
    rw [step_waiting_of_no_pending hm hw hp]
    refine ⟨?_, ?_, fun sd u => ?_⟩
    · rintro rfl
      exact congrArg Host.Outcome.next (resume_rawd _)
    · rintro rfl
      exact congrArg Host.Outcome.next (resume_lzma3 _)
    · rintro rfl
      exact congrArg Host.Outcome.next (resume_reopen sd u _)

end Sys2Proof.Machine
end
